-- ==== Sys2Proof/Word.lean ====
section
/-! DEFINITION. The value types of the block (00_scope.md R12, R13). Every value is unsigned (R12); bytes, sequence
numbers and checksum words are bits, and slot indices, counts and lengths are natural numbers. -/

namespace Sys2Proof

/-- A byte: 8 bits, unsigned (R12). Sequence numbers are bytes too, so their arithmetic wraps modulo 256 (R112). -/
abbrev Byte := BitVec 8

/-- A 16-bit checksum word or sum (R100). -/
abbrev Word16 := BitVec 16

/-- A byte string (R13): byte 0 first. -/
abbrev Bytes := List Byte

end Sys2Proof
end

