-- ==== Sys2Proof/Config.lean ====
section
/-! DEFINITION. The build-time parameters of the block (00_scope.md R6 to R10) and the free values (R14 `draw`).
The parameters are plain data and a field of the machine's state that no step writes (R30), so a statement about
every state is a statement about every configuration (log 1). -/

namespace Sys2Proof

/-- The parameters of R6, under the spec's names. -/
structure Config where
  /-- `P`: total packet size in bytes. -/
  P : Nat
  /-- `WIN_SIZE`: sender window size in packets. -/
  winSize : Nat
  /-- `MAX_BUFFER`: capacity of the outbound buffer in packets. -/
  maxBuffer : Nat
  /-- `TIMEOUT`: duration argument of every timer start. No rule reads it (R221). -/
  timeout : Nat
  /-- `MAX_MSG`: largest message length `SND` accepts. -/
  maxMsg : Nat
  /-- `ACK_ON_CORRUPT`: whether `RCV` answers a corrupted packet with its current acknowledgment. -/
  ackOnCorrupt : Bool
deriving DecidableEq, Repr

/-- `C = P - 4`, the payload capacity (R6). -/
def Config.C (c : Config) : Nat := c.P - 4

/-- The constraints of R6 to R9. A configuration outside them is refused (R8, 93_implementation_defined.md section 3;
log 1). -/
abbrev Config.WF (c : Config) : Prop :=
  5 ≤ c.P ∧ c.P ≤ 259 ∧ 1 ≤ c.winSize ∧ c.winSize ≤ 255 ∧ 1 ≤ c.maxBuffer ∧ c.maxMsg ≤ 2 ^ 32 - 1

/-- `ceil(log2 n)` for `n ≥ 1`. -/
def ceilLog2 (n : Nat) : Nat := if n ≤ 1 then 0 else Nat.log2 (n - 1) + 1

/-- `IW`, the width of `base` and `nbp` in bits (10_state.md R22). -/
def Config.IW (c : Config) : Nat := max 1 (ceilLog2 c.maxBuffer)

/-- `CW`, the width of `count` in bits (10_state.md R24). -/
def Config.CW (c : Config) : Nat := ceilLog2 (c.maxBuffer + 1)

/-- The example configuration `EX` of R10. DESIGN CHOICE: its `TIMEOUT`, which R10 does not give, is 0 (log 1). -/
def Config.ex : Config :=
  { P := 64, winSize := 10, maxBuffer := 16, timeout := 0, maxMsg := 2 ^ 32 - 1, ackOnCorrupt := false }

/-- FREE VALUE: the tail bytes of the packets `SND` builds (30_encoding.md R74), by the count of `SND`'s draws. -/
opaque Config.sndTail : Nat → Byte

/-- FREE VALUE: the tail bytes of the packets `RCV` builds (30_encoding.md R74), by the count of `RCV`'s draws. -/
opaque Config.rcvTail : Nat → Byte

/-- FREE VALUE: the contents of buffer bytes nothing has written since reset (10_state.md R40, 20_memory.md R53). -/
opaque Config.bufByte : Nat → Byte

end Sys2Proof
end

