-- ==== Sys2Proof/Syntax.lean ====
section
/-! DEFINITION. The commands of the block (30_encoding.md R76 to R78): the two units, the seven operations, one
constructor of `Instr` per row of the opcode table, and the four reasons a command is refused for (R82, R83). -/

namespace Sys2Proof

/-- The two stateful units, each an agent with a command input of its own (R2, R11). -/
inductive UnitId where
  | snd
  | rcv
deriving DecidableEq, Repr

/-- The seven operation codes of R77. -/
inductive Op where
  | sndMsg
  | sndAck
  | sndTimeout
  | rcvPkt
  | ckSum
  | ckVerify
  | pktEncode
deriving DecidableEq, Repr

/-- One command, with its operands (R78). The length fields `M`, `N` and `L` are the lengths of the byte strings.
The codec commands are accepted by both units (R77), so theirs carry the unit the command is addressed to (R85). -/
inductive Instr where
  /-- `SND_MSG`: message from above (R121). -/
  | sndMsg (msg : Bytes)
  /-- `SND_ACK`: acknowledgment from below (R130). -/
  | sndAck (pkt : Bytes)
  /-- `SND_TIMEOUT`: timer fired (R140). -/
  | sndTimeout
  /-- `RCV_PKT`: packet from below (R160). -/
  | rcvPkt (pkt : Bytes)
  /-- `CK_SUM`: raw sum and checksum of a byte string (R104). -/
  | ckSum (u : UnitId) (data : Bytes)
  /-- `CK_VERIFY`: judge a packet (R108). -/
  | ckVerify (u : UnitId) (pkt : Bytes)
  /-- `PKT_ENCODE`: build a packet (R106). -/
  | pktEncode (u : UnitId) (seq : Byte) (data : Bytes)
deriving DecidableEq, Repr

/-- The unit a command is addressed to (R77 "accepted by"). -/
def Instr.unit : Instr → UnitId
  | .sndMsg _ => .snd
  | .sndAck _ => .snd
  | .sndTimeout => .snd
  | .rcvPkt _ => .rcv
  | .ckSum u _ => u
  | .ckVerify u _ => u
  | .pktEncode u _ _ => u

/-- The operation of a command (R77). -/
def Instr.op : Instr → Op
  | .sndMsg _ => .sndMsg
  | .sndAck _ => .sndAck
  | .sndTimeout => .sndTimeout
  | .rcvPkt _ => .rcvPkt
  | .ckSum _ _ => .ckSum
  | .ckVerify _ _ => .ckVerify
  | .pktEncode _ _ _ => .pktEncode

/-- Why a command is refused, with the information R181 records. -/
inductive Rejection where
  /-- `ILLEGAL_OP`: unassigned op, op for the other unit, or (`none`) an empty command (R82). -/
  | illegalOp (op : Option Byte)
  /-- `BAD_LENGTH`: the command's length disagrees with its layout (R79). -/
  | badLength (len : Nat)
  /-- `MSG_TOO_LONG`: `M > MAX_MSG` (R83). -/
  | msgTooLong (m : Nat)
  /-- `BAD_PAYLOAD_LEN`: `L > C` in `PKT_ENCODE` (R83). -/
  | badPayloadLen (l : Nat)
deriving DecidableEq, Repr

end Sys2Proof
end

