-- ==== Sys2Proof/WellFormed.lean ====
section
/-! DEFINITION. Which commands a configuration can spell: the operand lengths of 30_encoding.md R78. Values that can
be spelled and are refused by value (`M > MAX_MSG`, `L > C`, R83) are well formed: their meanings refuse them. -/

namespace Sys2Proof

/-- Each operand fits its field of R78: the length fields of `SND_MSG`, `CK_SUM` and `PKT_ENCODE` have 32, 16 and 8
bits, and a packet operand has exactly `P` bytes (R70). -/
def Instr.wf (c : Config) : Instr → Bool
  | .sndMsg msg => decide (msg.length < 2 ^ 32)
  | .sndAck pkt => decide (pkt.length = c.P)
  | .sndTimeout => true
  | .rcvPkt pkt => decide (pkt.length = c.P)
  | .ckSum _ data => decide (data.length < 2 ^ 16)
  | .ckVerify _ pkt => decide (pkt.length = c.P)
  | .pktEncode _ _ data => decide (data.length < 2 ^ 8)

end Sys2Proof
end

