-- ==== Sys2Proof/Decode.lean ====
section
/-! DEFINITION. Decoding a command (30_encoding.md R76 to R79, R82, R84), total on every byte string and rejecting by
name, then the encoder written from the same layouts, then how the host lays out a word of the opcode table. -/

namespace Sys2Proof

/-! ## Byte order (20_memory.md R57, R58; 30_encoding.md R78): every multi-byte quantity is big-endian -/

/-- `w[15:8]`. -/
def hiByte (w : Word16) : Byte := w.extractLsb' 8 8

/-- `w[7:0]`. -/
def loByte (w : Word16) : Byte := w.extractLsb' 0 8

/-- `(hi << 8) | lo`. -/
def beWord (hi lo : Byte) : Word16 := hi ++ lo

/-- A 2-byte length field, most significant byte first. -/
def be16 (b1 b0 : Byte) : Nat := b1.toNat * 2 ^ 8 + b0.toNat

/-- A 4-byte length field, most significant byte first. -/
def be32 (b3 b2 b1 b0 : Byte) : Nat := b3.toNat * 2 ^ 24 + b2.toNat * 2 ^ 16 + b1.toNat * 2 ^ 8 + b0.toNat

/-- Byte `k` of a number, byte 0 the least significant. -/
def byteOf (n k : Nat) : Byte := BitVec.ofNat 8 (n / 2 ^ (8 * k))

/-! ## Operation codes (30_encoding.md R77) -/

/-- The code of an operation: bits 7:4 its group, bits 3:0 its function. -/
def Op.code : Op → Byte
  | .sndMsg => 0x01
  | .sndAck => 0x02
  | .sndTimeout => 0x03
  | .rcvPkt => 0x11
  | .ckSum => 0x21
  | .ckVerify => 0x22
  | .pktEncode => 0x23

/-- Every operation of the table. -/
def Op.all : List Op := [.sndMsg, .sndAck, .sndTimeout, .rcvPkt, .ckSum, .ckVerify, .pktEncode]

/-- The operation a code stands for; none for an unassigned code (R82). -/
def Op.ofByte? (b : Byte) : Option Op := Op.all.find? (fun o => o.code == b)

/-- Which unit accepts an operation (R77). -/
def Op.acceptedBy : Op → UnitId → Bool
  | .sndMsg, u => u == .snd
  | .sndAck, u => u == .snd
  | .sndTimeout, u => u == .snd
  | .rcvPkt, u => u == .rcv
  | .ckSum, _ => true
  | .ckVerify, _ => true
  | .pktEncode, _ => true

/-! ## Framing (30_encoding.md R79) -/

/-- The total length of a command, told from its op and, where it has one, its length field; none for an unassigned
op or a length field that is not all there. -/
def frameLength (c : Config) : Bytes → Option Nat
  | [] => none
  | op :: rest =>
    match Op.ofByte? op, rest with
    | some .sndMsg, m3 :: m2 :: m1 :: m0 :: _ => some (5 + be32 m3 m2 m1 m0)
    | some .sndAck, _ => some (1 + c.P)
    | some .sndTimeout, _ => some 1
    | some .rcvPkt, _ => some (1 + c.P)
    | some .ckSum, n1 :: n0 :: _ => some (3 + be16 n1 n0)
    | some .ckVerify, _ => some (1 + c.P)
    | some .pktEncode, _ :: l :: _ => some (3 + l.toNat)
    | _, _ => none

/-! ## The decoder -/

/-- The operands of an accepted operation, from the bytes after the op (R78); `BAD_LENGTH`, with the length of the
whole command, where the command is shorter or longer than its layout (R79). -/
def decodeOperands (c : Config) (u : UnitId) (o : Op) (rest : Bytes) : Except Rejection Instr :=
  match o, rest with
  | .sndMsg, m3 :: m2 :: m1 :: m0 :: msg =>
    if msg.length = be32 m3 m2 m1 m0 then .ok (.sndMsg msg) else .error (.badLength (1 + rest.length))
  | .sndMsg, _ => .error (.badLength (1 + rest.length))
  | .sndAck, pkt => if pkt.length = c.P then .ok (.sndAck pkt) else .error (.badLength (1 + rest.length))
  | .sndTimeout, [] => .ok .sndTimeout
  | .sndTimeout, _ :: _ => .error (.badLength (1 + rest.length))
  | .rcvPkt, pkt => if pkt.length = c.P then .ok (.rcvPkt pkt) else .error (.badLength (1 + rest.length))
  | .ckSum, n1 :: n0 :: data =>
    if data.length = be16 n1 n0 then .ok (.ckSum u data) else .error (.badLength (1 + rest.length))
  | .ckSum, _ => .error (.badLength (1 + rest.length))
  | .ckVerify, pkt => if pkt.length = c.P then .ok (.ckVerify u pkt) else .error (.badLength (1 + rest.length))
  | .pktEncode, seq :: l :: data =>
    if data.length = l.toNat then .ok (.pktEncode u seq data) else .error (.badLength (1 + rest.length))
  | .pktEncode, _ => .error (.badLength (1 + rest.length))

/-- The command a unit reads from a byte string: `cmd[0]` is the op, tested first (R82, R184), the rest its operands. -/
def decode (c : Config) (u : UnitId) (cmd : Bytes) : Except Rejection Instr :=
  match cmd with
  | [] => .error (.illegalOp none)
  | op :: rest =>
    match Op.ofByte? op with
    | none => .error (.illegalOp (some op))
    | some o => if o.acceptedBy u then decodeOperands c u o rest else .error (.illegalOp (some op))

/-! ## The encoder, from the layouts of 30_encoding.md R78 -/

/-- The bytes of a command after its op. -/
def encodeOperands : Instr → Bytes
  | .sndMsg msg => [byteOf msg.length 3, byteOf msg.length 2, byteOf msg.length 1, byteOf msg.length 0] ++ msg
  | .sndAck pkt => pkt
  | .sndTimeout => []
  | .rcvPkt pkt => pkt
  | .ckSum _ data => [byteOf data.length 1, byteOf data.length 0] ++ data
  | .ckVerify _ pkt => pkt
  | .pktEncode _ seq data => [seq, byteOf data.length 0] ++ data

/-- The byte string of a command. -/
def encode (i : Instr) : Bytes := i.op.code :: encodeOperands i

/-! ## Words of the opcode table, as the host numbers their bits -/

/-- The unit a word of the opcode table is presented to: the one its row's "accepted_by" names first (log 5). -/
def Op.homeUnit : Op → UnitId
  | .sndMsg => .snd
  | .sndAck => .snd
  | .sndTimeout => .snd
  | .rcvPkt => .rcv
  | .ckSum => .snd
  | .ckVerify => .snd
  | .pktEncode => .snd

/-- The unit a laid-out command is presented to; `SND` where its op is unassigned. -/
def homeUnit : Bytes → UnitId
  | [] => .snd
  | op :: _ => ((Op.ofByte? op).map Op.homeUnit).getD .snd

/-- The first `nbits / 8` bytes of a word whose bit 0 is the least significant bit of the first byte. -/
def bytesOfWord (nbits w : Nat) : Bytes := (List.range (nbits / 8)).map (byteOf w)

/-- A word as a command: its bytes, then zero bytes up to the length its op and length field give (R79). -/
def layOut (c : Config) (nbits w : Nat) : Bytes :=
  let bs := bytesOfWord nbits w
  match frameLength c (bs ++ [0, 0, 0, 0]) with
  | none => bs
  | some n => bs ++ List.replicate (n - bs.length) 0

/-- The instruction the decoder reads from a word of the opcode table, in the reset configuration. -/
def decodeTableWord (nbits w : Nat) : Option Instr :=
  let cmd := layOut Config.ex nbits w
  match decode Config.ex (homeUnit cmd) cmd with
  | .ok i => some i
  | .error _ => none

end Sys2Proof
end

