-- ==== Sys2Proof/Machine/State.lean ====
section
/-! DEFINITION. The state of the block (10_state.md), what a transaction emits and records (30_encoding.md R80,
60_exceptions.md R181), the events the environment presents, and the state after reset (R40, R210). -/

namespace Sys2Proof.Machine

/-- Output actions (R80). `TIMER_START` carries no operand: its duration is the parameter `TIMEOUT`. -/
inductive Action where
  /-- `PKT_OUT(p)`, to the channel. -/
  | pktOut (p : Bytes)
  /-- `TIMER_START`, to the timer device. -/
  | timerStart
  /-- `TIMER_STOP`, to the timer device. -/
  | timerStop
  /-- `MSG_OUT(m)`, to the application. -/
  | msgOut (m : Bytes)
  /-- `RESULT(r)`, to the issuer of a codec command. -/
  | result (r : Bytes)
deriving DecidableEq, Repr

/-- Outcome codes with their recorded information (R181, log 6). -/
inductive TxOutcome where
  | ok
  | msgAccepted (stored : Nat)
  | msgTruncated (stored dropped : Nat)
  | msgDropped (dropped : Nat)
  | msgEmpty
  | ackAdvanced (interval : Nat)
  | ackCorrupt
  | ackStale (interval : Nat)
  | ackIdle
  | toRetransmit (resent : Nat)
  | toEmpty
  | rxAccepted (seq : Byte)
  | rxDuplicate (seq : Byte)
  | rxCorrupt
  | refused (reason : Rejection)
deriving DecidableEq, Repr

/-- One transaction as it is observed (R11): the command, its outcome code, its output actions in order. -/
structure Entry where
  cmd : Bytes
  outcome : TxOutcome
  actions : List Action
deriving DecidableEq, Repr

/-- An event the environment presents: a command to one unit (R76), the reset of one unit (R210), or the reset of both
units together (R213). -/
inductive Input where
  | command (u : UnitId) (cmd : Bytes)
  | reset (u : UnitId)
  | resetBoth
deriving DecidableEq, Repr

/-- The outbound buffer's bytes that have been written since reset: (address, byte) pairs, addresses strictly rising;
the address of byte `o` of slot `s` is `s * P + o` (R50, log 3). An address that is not listed holds no written byte
and reads as a free value (R53). -/
abbrev Memory := List Host.Cell

/-- The sender `SND` (R20), the timer flag a model keeps beside it (R31), and the model's own fields. -/
structure Sender where
  /-- `base` (R22; a `Nat`, log 12): slot of the oldest unacknowledged packet. -/
  base : Nat
  /-- `nbp` (R23): slot where the next packet is written. -/
  nbp : Nat
  /-- `count` (R24): packets from `base` to the write head. -/
  count : Nat
  /-- `next_seq` (R25). -/
  nextSeq : Byte
  /-- `buf` (R26). -/
  buf : Memory
  /-- `tmr_armed` (R31), held by the environment. -/
  tmrArmed : Bool
  /-- The observation of `SND`, oldest transaction first (R11). -/
  trace : List Entry
  /-- MODEL'S OWN: how many tail bytes `SND` has drawn (log 2). -/
  draws : Nat
  /-- MODEL'S OWN: where this reset's free buffer contents begin among the values of `Config.bufByte` (log 3). -/
  bufDraw : Nat
deriving DecidableEq, Repr

/-- The receiver `RCV` (R20) and the model's own fields. -/
structure Receiver where
  /-- `expected_seq` (R27). -/
  expectedSeq : Byte
  /-- `ack_valid` (R28): whether a packet has been accepted since reset. -/
  ackValid : Bool
  /-- The observation of `RCV`, oldest transaction first (R11). -/
  trace : List Entry
  /-- MODEL'S OWN: how many tail bytes `RCV` has drawn (log 2). -/
  draws : Nat
deriving DecidableEq, Repr

/-- MODEL'S OWN: how many transactions of each unit's observation stand before the last reset of both units together.
The channel holds no packet of those (R213, log 19). -/
structure Epoch where
  snd : Nat
  rcv : Nat
deriving DecidableEq, Repr

/-- The machine: the parameters (R6), the two units, which share nothing (R2), the run's refusal mark (R183, log 7), the
events still to be presented (log 4), and where the observation since the last joint reset begins (log 19). -/
structure State where
  cfg : Config
  snd : Sender
  rcv : Receiver
  refusalMark : Bool
  inputs : List Input
  epoch : Epoch
deriving DecidableEq, Repr

/-- Why a step stops. The block itself has no faults (R188). -/
inductive Fault where
  /-- Raised by the buffer accesses `memRead` and `memWrite` for a slot index outside `0..MAX_BUFFER-1`, or a write
  that is not `P` bytes, neither of which exists (R50, R53, R54; log 10). Safe: no run from reset reaches it. -/
  | noSuchSlot (slot : Nat)
deriving DecidableEq, Repr

/-- Why a step has no meaning. -/
inductive Refusal where
  /-- Raised by no arm of `exec`: every instruction of the table has its meaning. Safe. -/
  | notModelled (mnemonic : String)
  /-- Raised by `step` where the parameters break R6 to R9: "refused by the model" (R8). Safe. -/
  | badConfig
deriving DecidableEq, Repr

/-- What a step or a meaning answers. -/
abbrev Answer := Host.Outcome State Fault Refusal

/-- `SND` after reset (R40). -/
def Sender.reset : Sender :=
  { base := 0, nbp := 0, count := 0, nextSeq := 0, buf := [], tmrArmed := false, trace := [], draws := 0, bufDraw := 0 }

/-- `RCV` after reset (R40). -/
def Receiver.reset : Receiver :=
  { expectedSeq := 0, ackValid := false, trace := [], draws := 0 }

/-- The machine after reset, for any configuration (R40, R213). -/
def State.resetOf (c : Config) : State :=
  { cfg := c, snd := Sender.reset, rcv := Receiver.reset, refusalMark := false, inputs := [], epoch := { snd := 0, rcv := 0 } }

/-- The machine after reset in the spec's example configuration `EX` (R10, log 1). -/
def State.reset : State := State.resetOf Config.ex

end Sys2Proof.Machine
end

