-- ==== Sys2Proof/Machine/Actions.lean ====
section
/-! DEFINITION. The encodings of what a transaction emits (30_encoding.md R80) and records (60_exceptions.md R181),
which unit may emit what, and what an action does to the timer (10_state.md R31). -/

namespace Sys2Proof.Machine

/-- The byte layout of an output action (R80, log 17). -/
def Action.encode : Action → Bytes
  | .pktOut p => 0x81 :: p
  | .timerStart => [0x82]
  | .timerStop => [0x83]
  | .msgOut m => [0x91, byteOf m.length 0] ++ m
  | .result r => [0xA1, byteOf r.length 1, byteOf r.length 0] ++ r

/-- Which actions a unit emits (R80: the last paragraph). -/
def Action.emittedBy : Action → UnitId → Bool
  | .pktOut _, _ => true
  | .timerStart, u => u == .snd
  | .timerStop, u => u == .snd
  | .msgOut _, u => u == .rcv
  | .result _, _ => true

/-- The duration a `TIMER_START` hands to the timer device (R80, R186); no other action has one. -/
def Action.duration (c : Config) : Action → Option Nat
  | .pktOut _ => none
  | .timerStart => some c.timeout
  | .timerStop => none
  | .msgOut _ => none
  | .result _ => none

/-- `tmr_armed` after an action (R31, R185): a start arms or restarts, a stop disarms. -/
def Action.timer (armed : Bool) : Action → Bool
  | .pktOut _ => armed
  | .timerStart => true
  | .timerStop => false
  | .msgOut _ => armed
  | .result _ => armed

/-- The numeric code of a refusal (R181). -/
def rejectionCode : Rejection → Byte
  | .illegalOp _ => 0xF0
  | .badLength _ => 0xF1
  | .msgTooLong _ => 0xF2
  | .badPayloadLen _ => 0xF3

/-- The numeric outcome code (R181). -/
def TxOutcome.code : TxOutcome → Byte
  | .ok => 0x00
  | .msgAccepted _ => 0x10
  | .msgTruncated _ _ => 0x11
  | .msgDropped _ => 0x12
  | .msgEmpty => 0x13
  | .ackAdvanced _ => 0x20
  | .ackCorrupt => 0x21
  | .ackStale _ => 0x22
  | .ackIdle => 0x23
  | .toRetransmit _ => 0x30
  | .toEmpty => 0x31
  | .rxAccepted _ => 0x40
  | .rxDuplicate _ => 0x41
  | .rxCorrupt => 0x42
  | .refused r => rejectionCode r

/-- The source's classes of error (R182); `none` for an outcome the source does not call an error. -/
inductive ErrorClass where
  | corruption
  | windowOverflow
  | staleAck
  | emptyTimeout
deriving DecidableEq, Repr

/-- How the source's error classes map onto the codes (R182). -/
def TxOutcome.errorClass : TxOutcome → Option ErrorClass
  | .ok => none
  | .msgAccepted _ => none
  | .msgTruncated _ _ => some .windowOverflow
  | .msgDropped _ => some .windowOverflow
  | .msgEmpty => none
  | .ackAdvanced _ => none
  | .ackCorrupt => some .corruption
  | .ackStale _ => some .staleAck
  | .ackIdle => some .staleAck
  | .toRetransmit _ => none
  | .toEmpty => some .emptyTimeout
  | .rxAccepted _ => none
  | .rxDuplicate _ => none
  | .rxCorrupt => some .corruption
  | .refused _ => none

end Sys2Proof.Machine
end

