-- ==== Sys2Proof/Machine/Operands.lean ====
section
/-! DEFINITION. The operand forms of the commands: byte strings and their pieces (00_scope.md R13), the fields of a
packet (30_encoding.md R71, R72), the checksum functions (40_codec_checksum.md R100, R101), the packet that `encode`
builds (R105), segmentation (41_sender.md R122), and sequence arithmetic (R112). -/

namespace Sys2Proof.Machine

/-! ## Byte strings (R13) -/

/-- `b[i]`; every use is of an index below the length. -/
def byteAt (b : Bytes) (i : Nat) : Byte := b.getD i 0

/-- `b[i..j)`. -/
def slice (b : Bytes) (i j : Nat) : Bytes := (b.drop i).take (j - i)

/-! ## Packet fields (R71, R72) -/

/-- `seq(p)`. -/
def pktSeq (p : Bytes) : Byte := byteAt p 0

/-- `len(p)`, read unsigned (R72, R75). -/
def pktLen (p : Bytes) : Nat := (byteAt p 1).toNat

/-- `cksum(p)`, big-endian (R57). -/
def pktCksum (p : Bytes) : Word16 := beWord (byteAt p 2) (byteAt p 3)

/-- `region(p)`, the occupied region that the checksum covers (R71). -/
def pktRegion (p : Bytes) : Bytes := slice p 0 (4 + pktLen p)

/-- `payload(p)`. -/
def pktPayload (p : Bytes) : Bytes := slice p 4 (4 + pktLen p)

/-! ## The checksum engine (R100, R101) -/

/-- One step of the one's-complement sum: the 17-bit sum of two words with its carry added back in (R100). -/
def onesAdd (s w : Word16) : Word16 :=
  let t : BitVec 17 := s.setWidth 17 + w.setWidth 17
  t.extractLsb' 0 16 + (t.extractLsb' 16 1).setWidth 16

/-- The words of a byte string: big-endian, a trailing odd byte the high byte of a last word (R58). -/
def wordsOf : Bytes → List Word16
  | [] => []
  | [hi] => [beWord hi 0]
  | hi :: lo :: rest => beWord hi lo :: wordsOf rest

/-- The one's-complement sum of words, from the left (R100). -/
def sumWords (ws : List Word16) : Word16 := ws.foldl onesAdd 0

/-- `csum_sum(b)` (R100). -/
def csumSum (b : Bytes) : Word16 := sumWords (wordsOf b)

/-- `checksum(b) = ~16 csum_sum(b)`; zero is kept (R101). -/
def checksum (b : Bytes) : Word16 := ~~~ csumSum b

/-! ## The packet codec (R105) -/

/-- The header with the checksum field zeroed, and the payload: what the checksum is computed over (R105). -/
def zeroedRegion (seq : Byte) (d : Bytes) : Bytes := [seq, byteOf d.length 0, 0x00, 0x00] ++ d

/-- The packet `encode(seq, d)` builds around a tail (R105). -/
def buildPacket (seq : Byte) (d tail : Bytes) : Bytes :=
  [seq, byteOf d.length 0, hiByte (checksum (zeroedRegion seq d)), loByte (checksum (zeroedRegion seq d))] ++ d ++ tail

/-- The length of the tail of a packet with payload `d` (R71). -/
def tailLength (c : Config) (d : Bytes) : Nat := c.P - 4 - d.length

/-- A `draw` of `n` bytes from a stream of free values, from draw number `k` on (R14, R74). -/
def drawBytes (stream : Nat → Byte) (k n : Nat) : Bytes := (List.range n).map fun i => stream (k + i)

/-! ## Segmentation (R122) -/

/-- `ceil(M / C)`. -/
def chunkCount (c : Config) (msg : Bytes) : Nat := (msg.length + c.C - 1) / c.C

/-- Chunk `j` of a message: `msg[j*C .. min((j+1)*C, M))`. -/
def chunk (c : Config) (msg : Bytes) (j : Nat) : Bytes := slice msg (j * c.C) (min ((j + 1) * c.C) msg.length)

/-- The chunks of a message, in order. -/
def chunks (c : Config) (msg : Bytes) : List Bytes := (List.range (chunkCount c msg)).map (chunk c msg)

/-! ## Sequence and index arithmetic (R112, R113) -/

/-- `(s + 1) mod 256`. -/
def seqNext (s : Byte) : Byte := s + 1

/-- The distance from `a` to `b`: `(b - a + 256) mod 256` (R112). -/
def seqDist (a b : Byte) : Nat := (b - a).toNat

/-- `(i + k) mod MAX_BUFFER` (R51, R113). -/
def slotAdd (c : Config) (i k : Nat) : Nat := (i + k) % c.maxBuffer

end Sys2Proof.Machine
end

