-- ==== Sys2Proof/Machine/Flags.lean ====
section
/-! DEFINITION. The conditions a transaction computes. The block stores no flag (10_state.md R29): whether a packet is
corrupted, whether a slot lies inside the window and whether an acknowledgment is stale are values of one
transaction. -/

namespace Sys2Proof.Machine

/-- `verify(p)` (R107): an invalid length byte is corrupted with no checksum computed; otherwise the raw sum over the
region, the checksum field included, is `0xFFFF`. -/
def verify (c : Config) (p : Bytes) : Bool :=
  if c.C < pktLen p then false else csumSum (pktRegion p) == 0xFFFF

/-- The stale test of an acknowledgment (R131 points 3 and 4). -/
def ackStale (c : Config) (count interval : Nat) : Bool := decide (c.winSize ≤ interval) || decide (count ≤ interval)

/-- Whether window position `i` lies inside the window (R126). -/
def inWindow (c : Config) (i : Nat) : Bool := decide (i < c.winSize)

/-- Whether window position `WIN_SIZE - 1` holds an outstanding packet (R133). -/
def trailingEdgeHeld (c : Config) (count : Nat) : Bool := decide (c.winSize ≤ count)

end Sys2Proof.Machine
end

