-- ==== Sys2Proof/Machine/Ops.lean ====
section
/-! DEFINITION. The shared operations: the buffer (20_memory.md R50 to R55), `encode` with its draw (R105), `emit`
(R14), ending a transaction with an outcome code (R181) or a refusal (R183), and reset (R210, R211). The block has no
exception entry and no return from one (R188), so there is no such operation. -/

namespace Sys2Proof.Machine

/-! ## The buffer -/

/-- Whether addresses rise strictly: the canonical form. -/
def Memory.wf : Memory → Bool
  | [] => true
  | [_] => true
  | x :: y :: rest => decide (x.1 < y.1) && Memory.wf (y :: rest)

/-- The byte listed at an address, if any. -/
def Memory.get? : Memory → Nat → Option Byte
  | [], _ => none
  | x :: rest, a => if x.1 = a then some x.2 else Memory.get? rest a

/-- Write one byte, keeping the order of addresses. -/
def Memory.set : Memory → Nat → Byte → Memory
  | [], a, b => [(a, b)]
  | x :: rest, a, b =>
    if a < x.1 then (a, b) :: x :: rest
    else if x.1 = a then (a, b) :: rest
    else x :: Memory.set rest a b

/-- Write a byte string from an address on. -/
def Memory.setBytes : Memory → Nat → Bytes → Memory
  | m, _, [] => m
  | m, a, b :: bs => Memory.setBytes (Memory.set m a b) (a + 1) bs

/-- What an address that is not listed reads as: a free value of this reset (R40, R53; log 3). -/
def Sender.unwritten (x : Sender) (a : Nat) : Byte := Config.bufByte (x.bufDraw + a)

/-- The byte at an address of the buffer. -/
def Sender.byteAtAddr (x : Sender) (a : Nat) : Byte := (x.buf.get? a).getD (x.unwritten a)

/-- The address of byte `o` of slot `s` (R50, log 3). -/
def slotAddr (c : Config) (s o : Nat) : Nat := s * c.P + o

/-- `buf[s][0..n)`. -/
def Sender.slotBytes (x : Sender) (c : Config) (s n : Nat) : Bytes :=
  (List.range n).map fun o => x.byteAtAddr (slotAddr c s o)

/-- `MemRead(s, n)` (R53). -/
def memRead (c : Config) (x : Sender) (s n : Nat) : Except Fault Bytes :=
  if s < c.maxBuffer then .ok (x.slotBytes c s n) else .error (.noSuchSlot s)

/-- `MemWrite(s, P, v)` (R54). -/
def memWrite (c : Config) (x : Sender) (s : Nat) (v : Bytes) : Except Fault Sender :=
  if s < c.maxBuffer ∧ v.length = c.P then .ok { x with buf := x.buf.setBytes (slotAddr c s 0) v }
  else .error (.noSuchSlot s)

/-! ## A transaction of the sender: its unit's state and the actions emitted so far (R14 `emit`) -/

/-- `SND` in the middle of a transaction. -/
structure SndTx where
  u : Sender
  out : List Action
deriving DecidableEq, Repr

/-- `emit` of `SND`: append the action; an action on the timer sets `tmr_armed` (R31). -/
def SndTx.emit (t : SndTx) (a : Action) : SndTx :=
  { u := { t.u with tmrArmed := a.timer t.u.tmrArmed }, out := t.out ++ [a] }

/-- `encode(seq, d)` of `SND`: the packet, its tail the unit's next draw (R105, R74). -/
def Sender.encodePkt (x : Sender) (c : Config) (seq : Byte) (d : Bytes) : Bytes × Sender :=
  (buildPacket seq d (drawBytes Config.sndTail x.draws (tailLength c d)),
   { x with draws := x.draws + tailLength c d })

/-- `encode(seq, d)` of `RCV`. -/
def Receiver.encodePkt (x : Receiver) (c : Config) (seq : Byte) (d : Bytes) : Bytes × Receiver :=
  (buildPacket seq d (drawBytes Config.rcvTail x.draws (tailLength c d)),
   { x with draws := x.draws + tailLength c d })

/-! ## Ending a transaction -/

/-- Append a transaction to a unit's observation (R11). -/
def State.record (s : State) (u : UnitId) (e : Entry) : State :=
  match u with
  | .snd => { s with snd := { s.snd with trace := s.snd.trace ++ [e] } }
  | .rcv => { s with rcv := { s.rcv with trace := s.rcv.trace ++ [e] } }

/-- End a transaction of `u` that ran the command `cmd`: `outcome K` after the actions `out` (R14). -/
def finish (s : State) (u : UnitId) (cmd : Bytes) (k : TxOutcome) (out : List Action) : Answer :=
  .next (s.record u { cmd := cmd, outcome := k, actions := out })

/-- End a transaction of `SND` in the middle of which its state is `t`. -/
def finishSnd (s : State) (cmd : Bytes) (k : TxOutcome) (t : SndTx) : Answer :=
  finish { s with snd := t.u } .snd cmd k t.out

/-- `raise Refused(r)` (R14, R183): no state written, no action emitted, the code recorded, the run's mark set. -/
def refuse (s : State) (u : UnitId) (cmd : Bytes) (r : Rejection) : Answer :=
  finish { s with refusalMark := true } u cmd (.refused r) []

/-! ## Reset (R210, R211), an input of each unit and no transaction: no action, no outcome code -/

/-- Reset `SND`: the registers take their reset values, the buffer's contents are unspecified anew, and the
environment disarms its timer (R211). The observation of the run stays (log 8). -/
def Sender.resetUnit (c : Config) (x : Sender) : Sender :=
  { x with base := 0, nbp := 0, count := 0, nextSeq := 0, buf := [], tmrArmed := false,
           bufDraw := x.bufDraw + c.maxBuffer * c.P }

/-- Reset `RCV`. -/
def Receiver.resetUnit (x : Receiver) : Receiver := { x with expectedSeq := 0, ackValid := false }

/-- Reset one unit. -/
def State.resetUnit (s : State) (u : UnitId) : State :=
  match u with
  | .snd => { s with snd := s.snd.resetUnit s.cfg }
  | .rcv => { s with rcv := s.rcv.resetUnit }

/-- Reset both units together (R213): each is reset and the timer disarmed, and the channel holds no packet from before,
so the packets that may still be delivered are those of the transactions from here on (log 19). -/
def State.resetTogether (s : State) : State :=
  { (s.resetUnit .snd).resetUnit .rcv with epoch := { snd := s.snd.trace.length, rcv := s.rcv.trace.length } }

end Sys2Proof.Machine
end

