-- ==== Sys2Proof/Machine/Codec.lean ====
section
/-! DEFINITION. The codec family (40_codec_checksum.md): `CK_SUM`, `CK_VERIFY`, `PKT_ENCODE`, accepted by both units.
None writes a register (R33). -/

namespace Sys2Proof.Machine

/-- `CK_SUM` (R104). A byte string longer than its 16-bit length field has no spelling (log 11). -/
def execCkSum (u : UnitId) (data : Bytes) (s : State) : Answer :=
  let cmd := encode (.ckSum u data)
  if data.length < 2 ^ 16 then
    let sum := csumSum data
    let ck := ~~~ sum
    finish s u cmd .ok [.result [hiByte sum, loByte sum, hiByte ck, loByte ck]]
  else refuse s u cmd (.badLength cmd.length)

/-- `CK_VERIFY` (R108). -/
def execCkVerify (u : UnitId) (pkt : Bytes) (s : State) : Answer :=
  let cmd := encode (.ckVerify u pkt)
  if pkt.length = s.cfg.P then
    finish s u cmd .ok [.result [if verify s.cfg pkt then 0x01 else 0x00]]
  else refuse s u cmd (.badLength cmd.length)

/-- `PKT_ENCODE` (R106). The tail is a draw of the unit that runs the command. -/
def execPktEncode (u : UnitId) (seq : Byte) (data : Bytes) (s : State) : Answer :=
  let cmd := encode (.pktEncode u seq data)
  if s.cfg.C < data.length then refuse s u cmd (.badPayloadLen data.length)
  else
    match u with
    | .snd =>
      let e := s.snd.encodePkt s.cfg seq data
      finish { s with snd := e.2 } u cmd .ok [.result e.1]
    | .rcv =>
      let e := s.rcv.encodePkt s.cfg seq data
      finish { s with rcv := e.2 } u cmd .ok [.result e.1]

end Sys2Proof.Machine
end

