-- ==== Sys2Proof/Machine/Receiving.lean ====
section
/-! DEFINITION. The receiver family (42_receiver.md): `RCV_PKT` and the acknowledgment constructor. -/

namespace Sys2Proof.Machine

/-- `ack_seq_byte()` (R161): the last accepted sequence number, or the sentinel byte `0xFF` (R162). -/
def Receiver.ackSeqByte (x : Receiver) : Byte := if x.ackValid then x.expectedSeq - 1 else 0xFF

/-- `ack_packet()` (R161): a fresh packet each time. -/
def Receiver.ackPacket (x : Receiver) (c : Config) : Bytes × Receiver := x.encodePkt c x.ackSeqByte []

/-- Accept the packet of sequence number `seq` (R160, R163). -/
def Receiver.accept (x : Receiver) (seq : Byte) : Receiver := { x with expectedSeq := seqNext seq, ackValid := true }

/-- End a transaction of `RCV` that emits `out` and then the acknowledgment of `x`. -/
def finishAck (s : State) (cmd : Bytes) (k : TxOutcome) (x : Receiver) (out : List Action) : Answer :=
  let a := x.ackPacket s.cfg
  finish { s with rcv := a.2 } .rcv cmd k (out ++ [.pktOut a.1])

/-- `RCV_PKT` (R160). -/
def execRcvPkt (pkt : Bytes) (s : State) : Answer :=
  let cmd := encode (.rcvPkt pkt)
  if pkt.length = s.cfg.P then
    if verify s.cfg pkt then
      if pktSeq pkt = s.rcv.expectedSeq then
        finishAck s cmd (.rxAccepted (pktSeq pkt)) (s.rcv.accept (pktSeq pkt)) [.msgOut (pktPayload pkt)]
      else finishAck s cmd (.rxDuplicate (pktSeq pkt)) s.rcv []
    else if s.cfg.ackOnCorrupt then finishAck s cmd .rxCorrupt s.rcv []
    else finish s .rcv cmd .rxCorrupt []
  else refuse s .rcv cmd (.badLength cmd.length)

end Sys2Proof.Machine
end

