-- ==== Sys2Proof/Machine/Sending.lean ====
section
/-! DEFINITION. The sender family (41_sender.md): `SND_MSG`, `SND_ACK`, `SND_TIMEOUT`. -/

namespace Sys2Proof.Machine

/-! ## SND_MSG (R121) -/

/-- `if x[count] < WIN_SIZE: emit PKT_OUT(p)`, then `TIMER_START` for the first packet of an empty window
(R126, R127). -/
def transmitStored (c : Config) (t : SndTx) (p : Bytes) : SndTx :=
  if inWindow c t.u.count then
    if t.u.count = 0 then (t.emit (.pktOut p)).emit .timerStart else t.emit (.pktOut p)
  else t

/-- `nbp <- (nbp + 1) mod MAX_BUFFER`, `count <- count + 1` (R125). -/
def advanceHead (c : Config) (t : SndTx) : SndTx :=
  { t with u := { t.u with nbp := slotAdd c t.u.nbp 1, count := t.u.count + 1 } }

/-- Number, build, store and transmit one chunk, the buffer having room for it (R124 to R127). -/
def storeChunk (c : Config) (t : SndTx) (d : Bytes) : Except Fault SndTx :=
  let seq := t.u.nextSeq
  let e := { t.u with nextSeq := seqNext seq }.encodePkt c seq d
  match memWrite c e.2 e.2.nbp e.1 with
  | .ok x => .ok (advanceHead c (transmitStored c { t with u := x } e.1))
  | .error f => .error f

/-- Store chunks until the buffer is full (R123): the transaction so far and how many chunks it stored. -/
def storeChunks (c : Config) : List Bytes → SndTx → Except Fault (SndTx × Nat)
  | [], t => .ok (t, 0)
  | d :: ds, t =>
    if t.u.count = c.maxBuffer then .ok (t, 0)
    else
      match storeChunk c t d with
      | .ok t' =>
        match storeChunks c ds t' with
        | .ok (t'', n) => .ok (t'', n + 1)
        | .error f => .error f
      | .error f => .error f

/-- The outcome of `SND_MSG` with `stored` of `k ≥ 1` chunks stored (R128). -/
def msgOutcome (stored k : Nat) : TxOutcome :=
  if stored = k then .msgAccepted k
  else if stored = 0 then .msgDropped k
  else .msgTruncated stored (k - stored)

/-- `SND_MSG` (R121). -/
def execSndMsg (msg : Bytes) (s : State) : Answer :=
  let cmd := encode (.sndMsg msg)
  if s.cfg.maxMsg < msg.length then refuse s .snd cmd (.msgTooLong msg.length)
  else if msg.length = 0 then finish s .snd cmd .msgEmpty []
  else
    match storeChunks s.cfg (chunks s.cfg msg) { u := s.snd, out := [] } with
    | .ok (t, stored) => finishSnd s cmd (msgOutcome stored (chunkCount s.cfg msg)) t
    | .error f => .fault f

/-! ## SND_ACK (R130) -/

/-- Emit the packet stored in a slot, tail included (R66, R142). -/
def transmitSlot (c : Config) (t : SndTx) (slot : Nat) : Except Fault SndTx :=
  match memRead c t.u slot c.P with
  | .ok p => .ok (t.emit (.pktOut p))
  | .error f => .error f

/-- `base <- (base + 1) mod MAX_BUFFER`, `count <- count - 1` (R132). The freed slot keeps its bytes (R32, log 9). -/
def freeBase (c : Config) (t : SndTx) : SndTx :=
  { t with u := { t.u with base := slotAdd c t.u.base 1, count := t.u.count - 1 } }

/-- Free one slot and transmit the packet that enters the window's trailing edge, if there is one (R132, R133). -/
def slideOne (c : Config) (t : SndTx) : Except Fault SndTx :=
  let t := freeBase c t
  if trailingEdgeHeld c t.u.count then transmitSlot c t (slotAdd c t.u.base (c.winSize - 1)) else .ok t

/-- Free `n` slots, one at a time (R132). -/
def slide (c : Config) : Nat → SndTx → Except Fault SndTx
  | 0, t => .ok t
  | n + 1, t =>
    match slideOne c t with
    | .ok t' => slide c n t'
    | .error f => .error f

/-- `SND_ACK` (R130), its tests in the order of R131. -/
def execSndAck (pkt : Bytes) (s : State) : Answer :=
  let cmd := encode (.sndAck pkt)
  if pkt.length = s.cfg.P then
    if verify s.cfg pkt then
      if s.snd.count = 0 then finish s .snd cmd .ackIdle []
      else
        match memRead s.cfg s.snd s.snd.base 1 with
        | .ok b =>
          let interval := seqDist (byteAt b 0) (pktSeq pkt)
          if ackStale s.cfg s.snd.count interval then finish s .snd cmd (.ackStale interval) []
          else
            match slide s.cfg (interval + 1) { u := s.snd, out := [] } with
            | .ok t => finishSnd s cmd (.ackAdvanced interval) (t.emit .timerStart)
            | .error f => .fault f
        | .error f => .fault f
    else finish s .snd cmd .ackCorrupt []
  else refuse s .snd cmd (.badLength cmd.length)

/-! ## SND_TIMEOUT (R140) -/

/-- Emit the packets at the window positions listed, in their order (R142). -/
def transmitWindow (c : Config) : List Nat → SndTx → Except Fault SndTx
  | [], t => .ok t
  | i :: is, t =>
    match transmitSlot c t (slotAdd c t.u.base i) with
    | .ok t' => transmitWindow c is t'
    | .error f => .error f

/-- `SND_TIMEOUT` (R140). The expiry disarms the timer before the handler runs (R31). -/
def execSndTimeout (s : State) : Answer :=
  let cmd := encode .sndTimeout
  let t : SndTx := { u := { s.snd with tmrArmed := false }, out := [] }
  if s.snd.count = 0 then finishSnd s cmd .toEmpty (t.emit .timerStop)
  else
    let n := min s.snd.count s.cfg.winSize
    match transmitWindow s.cfg (List.range n) t with
    | .ok t => finishSnd s cmd (.toRetransmit n) (t.emit .timerStart)
    | .error f => .fault f

end Sys2Proof.Machine
end

