-- ==== Sys2Proof/Machine/Dispatch.lean ====
section
/-! DEFINITION. What each command does: one arm per row of the opcode table. -/

namespace Sys2Proof.Machine

def exec (i : Instr) (s : State) : Host.Outcome State Fault Refusal :=
  match i with
  | .sndMsg msg => Sys2Proof.Machine.execSndMsg msg s
  | .sndAck pkt => Sys2Proof.Machine.execSndAck pkt s
  | .sndTimeout => Sys2Proof.Machine.execSndTimeout s
  | .rcvPkt pkt => Sys2Proof.Machine.execRcvPkt pkt s
  | .ckSum u data => Sys2Proof.Machine.execCkSum u data s
  | .ckVerify u pkt => Sys2Proof.Machine.execCkVerify u pkt s
  | .pktEncode u seq data => Sys2Proof.Machine.execPktEncode u seq data s

end Sys2Proof.Machine
end

