-- ==== Sys2Proof/Machine/Step.lean ====
section
/-! DEFINITION. One step: the next event the environment presents, processed to completion (00_scope.md R3). -/

namespace Sys2Proof.Machine

/-- Present a command to a unit (R76): run it, or refuse it (R183). -/
def present (u : UnitId) (cmd : Bytes) (s : State) : Answer :=
  match decode s.cfg u cmd with
  | .ok i => exec i s
  | .error r => refuse s u cmd r

/-- One step. Parameters outside R6 to R9 are refused (R8). With nothing presented both units are idle and keep all
their state (R192, log 4). -/
def step (s : State) : Host.Outcome State Fault Refusal :=
  if s.cfg.WF then
    match s.inputs with
    | [] => .next s
    | .command u cmd :: rest => present u cmd { s with inputs := rest }
    | .reset u :: rest => .next (State.resetUnit { s with inputs := rest } u)
    | .resetBoth :: rest => .next (State.resetTogether { s with inputs := rest })
  else .refused .badConfig

/-- Place a word of the opcode table where the next step takes its command from: the front of the events to be
presented, addressed to the unit its row names first (log 5). -/
def State.withFetchWord (s : State) (nbits w : Nat) : State :=
  let cmd := layOut s.cfg nbits w
  { s with inputs := .command (homeUnit cmd) cmd :: s.inputs }

end Sys2Proof.Machine
end

