-- ==== Sys2Proof/Machine/Script.lean ====
section
/-! DEFINITION. The event script of 30_encoding.md R85 and its pseudo-instructions of R86: abstract syntax, what each
line presents to the block, and its spelling (log 18). -/

namespace Sys2Proof.Machine

/-- Operand spellings (R85). -/
inductive ByteExpr where
  /-- `hex"a1b2..."`. -/
  | hex (bs : Bytes)
  /-- `fill(n, v)`. -/
  | fill (n : Nat) (v : Byte)
  /-- `ramp(n, a)`. -/
  | ramp (n : Nat) (a : Byte)
  /-- `s1 ++ s2`. -/
  | cat (s1 s2 : ByteExpr)
  /-- `pkt(s, d)`. -/
  | pkt (s : Byte) (d : ByteExpr)
  /-- `flip(q, i, m)`. -/
  | flip (q : ByteExpr) (i : Nat) (m : Byte)
deriving DecidableEq, Repr

/-- The byte string a spelling means (R85). Two spellings have no meaning in R85, and what they make here is a DESIGN
CHOICE (log 18): `pkt(s, d)` with `d` longer than `C`, which `PKT_ENCODE` refuses, makes the `4 + |d|` bytes of the
layout, longer than `P`, with `|d| mod 256` in the `len` byte; `flip` of a byte outside its string changes nothing. -/
def ByteExpr.eval (c : Config) : ByteExpr → Bytes
  | .hex bs => bs
  | .fill n v => List.replicate n v
  | .ramp n a => (List.range n).map fun i => a + BitVec.ofNat 8 i
  | .cat s1 s2 => s1.eval c ++ s2.eval c
  | .pkt s d => buildPacket s (d.eval c) (List.replicate (tailLength c (d.eval c)) 0x00)
  | .flip q i m => (q.eval c).set i (byteAt (q.eval c) i ^^^ m)

/-- What one line asks of a unit: the seven mnemonics (R85) and the four pseudo-instructions (R86). -/
inductive Directive where
  | sndMsg (m : ByteExpr)
  | sndAck (p : ByteExpr)
  | sndTimeout
  | rcvPkt (p : ByteExpr)
  | ckSum (d : ByteExpr)
  | ckVerify (p : ByteExpr)
  | pktEncode (s : Byte) (d : ByteExpr)
  | ack (n : Byte)
  | data (s : Byte) (d : ByteExpr)
  | tick
  | reset
deriving DecidableEq, Repr

/-- One line: `<unit>: <mnemonic> <operands>`. -/
structure Line where
  unit : UnitId
  what : Directive
deriving DecidableEq, Repr

/-- The command a directive stands for at a unit, pseudo-instructions expanded (R86); `RESET` is no command. -/
def Directive.instr? (c : Config) (u : UnitId) : Directive → Option Instr
  | .sndMsg m => some (.sndMsg (m.eval c))
  | .sndAck p => some (.sndAck (p.eval c))
  | .sndTimeout => some .sndTimeout
  | .rcvPkt p => some (.rcvPkt (p.eval c))
  | .ckSum d => some (.ckSum u (d.eval c))
  | .ckVerify p => some (.ckVerify u (p.eval c))
  | .pktEncode s d => some (.pktEncode u s (d.eval c))
  | .ack n => some (.sndAck ((ByteExpr.pkt n (.hex [])).eval c))
  | .data s d => some (.rcvPkt ((ByteExpr.pkt s d).eval c))
  | .tick => some .sndTimeout
  | .reset => none

/-- The event a line presents to its unit: the assembler supplies the length fields (R85). A byte string longer than its
length field can say has no command, and the low bytes of its length are written (DESIGN CHOICE, log 18). -/
def Line.assemble (c : Config) (l : Line) : Input :=
  match l.what.instr? c l.unit with
  | some i => .command l.unit (encode i)
  | none => .reset l.unit

/-- A script, presented line by line after what is already to be presented. -/
def State.load (s : State) (script : List Line) : State :=
  { s with inputs := s.inputs ++ script.map (Line.assemble s.cfg) }

/-! ## Spelling (R85) -/

/-- Two lower-case hex digits. -/
def spellHexPair (b : Byte) : String :=
  String.singleton (Nat.digitChar (b.toNat / 16)) ++ String.singleton (Nat.digitChar (b.toNat % 16))

/-- The spelling of an operand; a byte value is written `0xNN`, a length in decimal. -/
def ByteExpr.spell : ByteExpr → String
  | .hex [] => "[]"
  | .hex bs => "hex\"" ++ String.join (bs.map spellHexPair) ++ "\""
  | .fill n v => "fill(" ++ toString n ++ ", 0x" ++ spellHexPair v ++ ")"
  | .ramp n a => "ramp(" ++ toString n ++ ", 0x" ++ spellHexPair a ++ ")"
  | .cat s1 s2 => s1.spell ++ " ++ " ++ s2.spell
  | .pkt s d => "pkt(0x" ++ spellHexPair s ++ ", " ++ d.spell ++ ")"
  | .flip q i m => "flip(" ++ q.spell ++ ", " ++ toString i ++ ", 0x" ++ spellHexPair m ++ ")"

/-- The spelling of a directive. -/
def Directive.spell : Directive → String
  | .sndMsg m => "SND_MSG " ++ m.spell
  | .sndAck p => "SND_ACK " ++ p.spell
  | .sndTimeout => "SND_TIMEOUT"
  | .rcvPkt p => "RCV_PKT " ++ p.spell
  | .ckSum d => "CK_SUM " ++ d.spell
  | .ckVerify p => "CK_VERIFY " ++ p.spell
  | .pktEncode s d => "PKT_ENCODE 0x" ++ spellHexPair s ++ ", " ++ d.spell
  | .ack n => "ACK 0x" ++ spellHexPair n
  | .data s d => "DATA 0x" ++ spellHexPair s ++ ", " ++ d.spell
  | .tick => "TICK"
  | .reset => "RESET"

/-- The spelling of a unit. -/
def spellUnit : UnitId → String
  | .snd => "snd"
  | .rcv => "rcv"

/-- The spelling of a line. -/
def Line.spell (l : Line) : String := spellUnit l.unit ++ ": " ++ l.what.spell

end Sys2Proof.Machine
end

