-- ==== Sys2Proof/Safety.lean ====
section
/-! DEFINITION. What claims about the block speak of: the invariants of 10_state.md section 7, safe and quiescent
states (60_exceptions.md R183, R194), and the environment's duties (R193), which a claim names as premises. -/

namespace Sys2Proof.Machine

/-! ## What is stored -/

/-- The packet at window position `i`: slot `(base + i) mod MAX_BUFFER` (R36). -/
def Sender.packetAt (c : Config) (x : Sender) (i : Nat) : Bytes := x.slotBytes c (slotAdd c x.base i) c.P

/-- The sequence number of window position `i`: `(next_seq - count + i) mod 256` (R36). -/
def Sender.seqAt (x : Sender) (i : Nat) : Byte := x.nextSeq - BitVec.ofNat 8 x.count + BitVec.ofNat 8 i

/-- How many outstanding packets have been sent since they were stored: `min(count, WIN_SIZE)` (R38, R41). -/
def Sender.sentCount (c : Config) (x : Sender) : Nat := min x.count c.winSize

/-- A byte string that `encode(seq, d)` builds for a payload `d` that fits, whatever the tail (R105). -/
def IsPacketOf (c : Config) (seq : Byte) (d p : Bytes) : Prop :=
  d.length ≤ c.C ∧ ∃ tail : Bytes, tail.length = tailLength c d ∧ p = buildPacket seq d tail

/-- A state but for how many tail bytes a unit has drawn, which is the model's own (log 2). -/
def State.setDraws (s : State) (u : UnitId) (k : Nat) : State :=
  match u with
  | .snd => { s with snd := { s.snd with draws := k } }
  | .rcv => { s with rcv := { s.rcv with draws := k } }

/-- A wide accumulator with its carries folded in `k` times: what an implementation of the checksum may do (R102). -/
def foldCarries : Nat → Nat → Nat
  | 0, n => n
  | k + 1, n => foldCarries k (n % 2 ^ 16 + n / 2 ^ 16)

/-- A packet with bit `k` of byte `i` flipped. -/
def flipBit (p : Bytes) (i k : Nat) : Bytes := p.set i (byteAt p i ^^^ BitVec.ofNat 8 (2 ^ k))

/-- The state a refused command leaves: no state written, no action, its code recorded, the run's mark set (R183). -/
def State.refusedAs (s : State) (u : UnitId) (cmd : Bytes) (r : Rejection) : State :=
  ({ s with refusalMark := true } : State).record u { cmd := cmd, outcome := .refused r, actions := [] }

/-- Two senders that agree on everything but the bytes of slots outside the outstanding range (R32). -/
structure Sender.AgreesOutstanding (c : Config) (x y : Sender) : Prop where
  base : x.base = y.base
  nbp : x.nbp = y.nbp
  count : x.count = y.count
  nextSeq : x.nextSeq = y.nextSeq
  tmrArmed : x.tmrArmed = y.tmrArmed
  trace : x.trace = y.trace
  draws : x.draws = y.draws
  packets : ∀ i, i < x.count → x.packetAt c i = y.packetAt c i

/-! ## Invariants (10_state.md section 7): consequences of the rules at every transaction boundary -/

/-- R22 to R24, R34, R35: the indices are in their ranges and agree. -/
abbrev Sender.IndexInv (c : Config) (x : Sender) : Prop :=
  x.base < c.maxBuffer ∧ x.count ≤ c.maxBuffer ∧ x.nbp = (x.base + x.count) % c.maxBuffer

/-- The buffer is in canonical form and holds bytes of its own address space only (R50). -/
abbrev Sender.BufInv (c : Config) (x : Sender) : Prop :=
  x.buf.wf = true ∧ ∀ cell ∈ x.buf, cell.1 < c.maxBuffer * c.P

/-- R36: every outstanding slot holds the packet built for its sequence number. -/
def Sender.PacketInv (c : Config) (x : Sender) : Prop :=
  ∀ i, i < x.count → ∃ d, IsPacketOf c (x.seqAt i) d (x.packetAt c i)

/-- R37: outstanding packets mean an armed timer. -/
abbrev Sender.TimerInv (x : Sender) : Prop := 0 < x.count → x.tmrArmed = true

/-- R28, R39: before any acceptance the next expected number is 0. -/
abbrev Receiver.Inv (x : Receiver) : Prop := x.ackValid = false → x.expectedSeq = 0

/-- The invariants of the sender together. -/
structure Sender.Inv (c : Config) (x : Sender) : Prop where
  index : x.IndexInv c
  buffer : x.BufInv c
  packets : x.PacketInv c
  timer : x.TimerInv

/-- The invariants of the machine. -/
structure State.Inv (s : State) : Prop where
  config : s.cfg.WF
  sender : s.snd.Inv s.cfg
  receiver : s.rcv.Inv

/-! ## Safe and quiescent -/

/-- No command of the run has been refused (R183). -/
abbrev State.Unrefused (s : State) : Prop := s.refusalMark = false

/-- A safe state: the invariants hold and no command has been refused. -/
def State.Safe (s : State) : Prop := s.Inv ∧ s.Unrefused

/-- Quiescent: `count = 0` and the timer is disarmed (R194). -/
abbrev State.Quiescent (s : State) : Prop := s.snd.count = 0 ∧ s.snd.tmrArmed = false

/-- `n` steps, stopping at a fault or a refusal. -/
abbrev runSteps (n : Nat) (s : State) : Answer := Host.Core.run core n s

/-! ## What a run shows (R11) -/

/-- The observation of a unit. -/
def State.traceOf (s : State) : UnitId → List Entry
  | .snd => s.snd.trace
  | .rcv => s.rcv.trace

/-- How many transactions of a unit stand before the last reset of both units together. -/
def Epoch.of (e : Epoch) : UnitId → Nat
  | .snd => e.snd
  | .rcv => e.rcv

/-- The observation of a unit since the last reset of both units together. -/
def State.sinceReset (s : State) (u : UnitId) : List Entry := (s.traceOf u).drop (s.epoch.of u)

/-- The last joint reset stands within the observation: an invariant of the model's own field (log 19). -/
abbrev State.EpochInv (s : State) : Prop := ∀ u, s.epoch.of u ≤ (s.traceOf u).length

/-- The packets among a list of actions, in order. -/
def pktOuts : List Action → List Bytes
  | [] => []
  | .pktOut p :: rest => p :: pktOuts rest
  | .timerStart :: rest => pktOuts rest
  | .timerStop :: rest => pktOuts rest
  | .msgOut _ :: rest => pktOuts rest
  | .result _ :: rest => pktOuts rest

/-- The messages delivered to the application by a list of actions, in order. -/
def msgOuts : List Action → List Bytes
  | [] => []
  | .pktOut _ :: rest => msgOuts rest
  | .timerStart :: rest => msgOuts rest
  | .timerStop :: rest => msgOuts rest
  | .msgOut m :: rest => m :: msgOuts rest
  | .result _ :: rest => msgOuts rest

/-- Every action of a trace, in order. -/
def actionsOf (tr : List Entry) : List Action := tr.flatMap (·.actions)

/-- The sequence numbers accepted in a trace, in order. -/
def acceptedSeqs (tr : List Entry) : List Byte :=
  tr.filterMap fun e => match e.outcome with
    | .rxAccepted n => some n
    | _ => none

/-- Packets delivered to `RCV` one after the other, each as `RCV_PKT`. -/
def deliverAll : List Bytes → State → Answer
  | [], s => .next s
  | p :: ps, s =>
    match exec (.rcvPkt p) s with
    | .next t => deliverAll ps t
    | .fault f => .fault f
    | .refused r => .refused r

/-- How many packets the acknowledgments of a trace have freed: `interval + 1` each (R132). -/
def ackedTotal : List Entry → Nat
  | [] => 0
  | e :: rest =>
    (match e.outcome with
      | .ackAdvanced interval => interval + 1
      | _ => 0) + ackedTotal rest

/-- How many chunks the messages of a trace have stored: `k` where all were, the number stored where some were (R128). -/
def storedTotal : List Entry → Nat
  | [] => 0
  | e :: rest =>
    (match e.outcome with
      | .msgAccepted stored => stored
      | .msgTruncated stored _ => stored
      | _ => 0) + storedTotal rest

/-! ## The environment (R193). Its liberties are every list of inputs; its duties are premises (log 16) -/

/-- The unit at the other end of the channel. -/
def peer : UnitId → UnitId
  | .snd => .rcv
  | .rcv => .snd

/-- The packet an event delivers to a unit: the operand of `SND_ACK` or `RCV_PKT`. -/
def Input.delivery (c : Config) : Input → Option (UnitId × Bytes)
  | .command u cmd =>
    match decode c u cmd with
    | .ok (.sndAck p) => some (.snd, p)
    | .ok (.rcvPkt p) => some (.rcv, p)
    | .ok (.sndMsg _) => none
    | .ok .sndTimeout => none
    | .ok (.ckSum _ _) => none
    | .ok (.ckVerify _ _) => none
    | .ok (.pktEncode _ _ _) => none
    | .error _ => none
  | .reset _ => none
  | .resetBoth => none

/-- Row R: both units are reset together, so no event resets one alone (R213, R214). -/
def DutyR (events : List Input) : Prop := ∀ u, Input.reset u ∉ events

/-- Row T: an expiry is delivered only after a start that no later start, stop or expiry has superseded, which is when
the timer is armed. -/
def DutyT (s : State) (e : Input) : Prop := e = .command .snd (encode .sndTimeout) → s.snd.tmrArmed = true

/-- The packets a unit has put on the channel that the channel may still hold: those it emitted since both units were
last reset together (R213 (3), log 19). -/
def State.onChannel (s : State) (u : UnitId) : List Bytes := pktOuts (actionsOf (s.sinceReset u))

/-- Rows C1 to C3: a delivered packet is one the channel may hold from the peer, or a corruption of one that `verify`
detects. Dropping, duplicating, delaying and reordering are liberties (C1). -/
def DutyC3 (s : State) (e : Input) : Prop :=
  ∀ u p, e.delivery s.cfg = some (u, p) → ∃ q ∈ s.onChannel (peer u), p = q ∨ verify s.cfg p = false

/-! Packets are numbered from 0 since both units were last reset together: a data packet by the chunk it carries, an
acknowledgment by the packet it acknowledges, so that the sentinel, which acknowledges none, has number -1 (R162). Only
the number modulo 256 is on the wire (log 16). -/

/-- The number at which the sender's window starts: the packets acknowledged. -/
def State.acked (s : State) : Nat := ackedTotal (s.sinceReset .snd)

/-- The number the receiver waits for: the packets accepted. -/
def State.accepted (s : State) : Nat := (acceptedSeqs (s.sinceReset .rcv)).length

/-- The packets of `SND` in a trace that began with the window at number `acked`, each with its number: a transaction
emits packets of the window it leaves only, so the number is the first from the start of that window on that has the
packet's sequence number (R126, R133, R142). -/
def numberSnd : Nat → List Entry → List (Int × Bytes)
  | _, [] => []
  | acked, e :: rest =>
    (pktOuts e.actions).map (fun p =>
      (((acked + ackedTotal [e] + seqDist (BitVec.ofNat 8 (acked + ackedTotal [e])) (pktSeq p) : Nat) : Int), p)) ++
      numberSnd (acked + ackedTotal [e]) rest

/-- The packets of `RCV` in a trace that began with `accepted` packets accepted, each with the number of the packet it
acknowledges: the last accepted, or -1 before any (R161, R162). -/
def numberRcv : Nat → List Entry → List (Int × Bytes)
  | _, [] => []
  | accepted, e :: rest =>
    (pktOuts e.actions).map (fun p => (((accepted + (acceptedSeqs [e]).length : Nat) : Int) - 1, p)) ++
      numberRcv (accepted + (acceptedSeqs [e]).length) rest

/-- The packets the channel may still hold from a unit (`State.onChannel`), each with its number. -/
def State.numbered (s : State) : UnitId → List (Int × Bytes)
  | .snd => numberSnd 0 (s.sinceReset .snd)
  | .rcv => numberRcv 0 (s.sinceReset .rcv)

/-- Row C4, with rows C1 to C3: what is delivered is a packet the channel may hold from the peer, or a corruption of one
that `verify` detects, and that packet's number is not more than `256 - WIN_SIZE` behind the start of the sender's window
(R218; log 16). -/
def DutyC4 (s : State) (e : Input) : Prop :=
  ∀ u p, e.delivery s.cfg = some (u, p) →
    ∃ x ∈ s.numbered (peer u), (p = x.2 ∨ verify s.cfg p = false) ∧ (s.acked : Int) ≤ x.1 + (256 - s.cfg.winSize)

/-- What the numbers of packets are about, as long as no unit is reset alone: an invariant. The last joint reset stands
within the observation; `base_seq` and `expected_seq` are the numbers of the window and of the packet waited for, modulo
256; and every packet on the channel has its number's byte and a number that its unit has reached. -/
structure State.ChannelInv (s : State) : Prop where
  epoch : s.EpochInv
  window : s.snd.nextSeq - BitVec.ofNat 8 s.snd.count = BitVec.ofNat 8 s.acked
  expected : s.rcv.expectedSeq = BitVec.ofNat 8 s.accepted
  sent : ∀ x ∈ s.numbered .snd, 0 ≤ x.1 ∧ x.1 < (s.acked + s.snd.count : Nat) ∧ byteAt x.2 0 = BitVec.ofInt 8 x.1
  answered : ∀ x ∈ s.numbered .rcv, -1 ≤ x.1 ∧ x.1 < s.accepted ∧ byteAt x.2 0 = BitVec.ofInt 8 x.1

end Sys2Proof.Machine
end

