-- ==== Sys2Proof/Certificates/Slice0/Obligations.lean ====
section
/-! DEFINITION. The statements for the provers. Each docstring names the rule it formalises. -/

open Sys2Proof Sys2Proof.Machine

/-! ## The checksum engine and the codec (40_codec_checksum.md) -/

/-- R102, which the spec marks derived: the sum is 0 exactly when every word is 0, and otherwise the one value in `1..0xFFFF` congruent to the integer
sum of the words modulo `0xFFFF`; it depends neither on the order of the words nor on when carries are folded. -/
def Obligations.CsumSumIsOnesComplementSum : Prop :=
  ∀ b : Bytes,
    (csumSum b = 0 ↔ ∀ w ∈ wordsOf b, w = 0) ∧
    (csumSum b ≠ 0 →
      (csumSum b).toNat % 0xFFFF = ((wordsOf b).map BitVec.toNat).sum % 0xFFFF ∧
      ∀ v : Nat, 1 ≤ v → v ≤ 0xFFFF → v % 0xFFFF = ((wordsOf b).map BitVec.toNat).sum % 0xFFFF →
        v = (csumSum b).toNat) ∧
    (∀ ws : List Word16, ws.Perm (wordsOf b) → sumWords ws = csumSum b) ∧
    (∃ k, foldCarries k ((wordsOf b).map BitVec.toNat).sum < 2 ^ 16) ∧
    (∀ k, foldCarries k ((wordsOf b).map BitVec.toNat).sum < 2 ^ 16 →
      foldCarries k ((wordsOf b).map BitVec.toNat).sum = (csumSum b).toNat)

/-- R101: the checksum is the complement of the sum, and zero is kept. -/
def Obligations.ChecksumComplementsTheSum : Prop :=
  ∀ b : Bytes, (checksum b).toNat = 0xFFFF - (csumSum b).toNat ∧ (csumSum b = 0xFFFF → (checksum b).toNat = 0)

/-- R107: a packet is judged not corrupted exactly when its length byte, read unsigned, is legal and the raw sum over
the first `4 + L` bytes, the checksum field included, is `0xFFFF`. -/
def Obligations.VerifyIsLegalLengthAndFullSum : Prop :=
  ∀ (c : Config) (p : Bytes),
    verify c p = true ↔
      (byteAt p 1).toNat ≤ c.C ∧ csumSum (p.take (4 + (byteAt p 1).toNat)) = 0xFFFF

/-- R109, which the spec marks derived: every packet that `encode` builds, whatever its tail, verifies. -/
def Obligations.EncodedPacketVerifies : Prop :=
  ∀ (c : Config) (seq : Byte) (d p : Bytes), c.WF → IsPacketOf c seq d p → verify c p = true

/-- R110, which the spec marks derived: a flipped bit of an encoded packet is always detected in the sequence, checksum and payload bytes, may or may
not be detected in the length byte, always when the new length is too long, and is never seen in the tail. -/
def Obligations.SingleBitFlipDetection : Prop :=
  (∀ (c : Config) (seq : Byte) (d p : Bytes) (i k : Nat), c.WF → IsPacketOf c seq d p → i < c.P → k < 8 →
    (i = 0 ∨ (2 ≤ i ∧ i < 4 + d.length) → verify c (flipBit p i k) = false) ∧
    (i = 1 → c.C < pktLen (flipBit p i k) → verify c (flipBit p i k) = false) ∧
    (4 + d.length ≤ i → verify c (flipBit p i k) = true)) ∧
  (∃ seq d p k, IsPacketOf Config.ex seq d p ∧ k < 8 ∧ verify Config.ex (flipBit p 1 k) = true) ∧
  (∃ seq d p k, IsPacketOf Config.ex seq d p ∧ k < 8 ∧ pktLen (flipBit p 1 k) ≤ Config.ex.C ∧
    verify Config.ex (flipBit p 1 k) = false)

/-- R104: `CK_SUM` at either unit completes with the sum and its complement, writes no register, and refuses a command
that is not exactly `3 + N` bytes. That the length `BAD_LENGTH` records is the presented command's is the model's reading
of R181 (log 6). -/
def Obligations.CkSumResult : Prop :=
  (∀ (u : UnitId) (data : Bytes) (s : State), data.length < 2 ^ 16 →
    ∃ r0 r1 r2 r3 : Byte,
      exec (.ckSum u data) s = .next (s.record u
        { cmd := encode (.ckSum u data), outcome := .ok, actions := [.result [r0, r1, r2, r3]] }) ∧
      r0.toNat * 256 + r1.toNat = (csumSum data).toNat ∧
      r2.toNat * 256 + r3.toNat = 0xFFFF - (csumSum data).toNat) ∧
  (∀ (u : UnitId) (rest : Bytes) (s : State),
    (∀ n1 n0 data, rest = n1 :: n0 :: data → data.length ≠ n1.toNat * 256 + n0.toNat) →
    present u (0x21 :: rest) s = .next (s.refusedAs u (0x21 :: rest) (.badLength (1 + rest.length))))

/-- R108: `CK_VERIFY` at either unit completes with the judgement of `verify`, writes no register, and refuses a command
that is not exactly `1 + P` bytes, recording its length (the model's reading of R181, log 6). -/
def Obligations.CkVerifyResult : Prop :=
  (∀ (u : UnitId) (pkt : Bytes) (s : State), pkt.length = s.cfg.P →
    ∃ r : Byte,
      exec (.ckVerify u pkt) s = .next (s.record u
        { cmd := encode (.ckVerify u pkt), outcome := .ok, actions := [.result [r]] }) ∧
      (verify s.cfg pkt = true → r = 0x01) ∧ (verify s.cfg pkt = false → r = 0x00)) ∧
  (∀ (u : UnitId) (pkt : Bytes) (s : State), pkt.length ≠ s.cfg.P →
    present u (0x22 :: pkt) s = .next (s.refusedAs u (0x22 :: pkt) (.badLength (1 + pkt.length))))

/-- R106: `PKT_ENCODE` at either unit completes with a packet of its operands, writes no register, refuses a payload
longer than `C`, and refuses a command that is not exactly `3 + L` bytes before that. That `BAD_LENGTH` records the
presented command's length is the model's reading of R181 (log 6); a payload longer than its length field, which no
command spells, is refused like any other longer than `C` by the model's choice (log 11). -/
def Obligations.PktEncodeResult : Prop :=
  (∀ (u : UnitId) (seq : Byte) (data : Bytes) (s : State), s.cfg.WF → data.length ≤ s.cfg.C →
    ∃ (p : Bytes) (k : Nat), IsPacketOf s.cfg seq data p ∧
      exec (.pktEncode u seq data) s = .next ((s.setDraws u k).record u
        { cmd := encode (.pktEncode u seq data), outcome := .ok, actions := [.result p] })) ∧
  (∀ (u : UnitId) (seq : Byte) (data : Bytes) (s : State), s.cfg.C < data.length →
    exec (.pktEncode u seq data) s =
      .next (s.refusedAs u (encode (.pktEncode u seq data)) (.badPayloadLen data.length))) ∧
  (∀ (u : UnitId) (rest : Bytes) (s : State),
    (∀ seq l data, rest = seq :: l :: data → data.length ≠ l.toNat) →
    present u (0x23 :: rest) s = .next (s.refusedAs u (0x23 :: rest) (.badLength (1 + rest.length))))

/-! ## Segmentation and SND_MSG (41_sender.md) -/

/-- R122: a message is cut into `ceil(M / C)` chunks, all but the last of `C` bytes, the last of `1..C`, chunk `j`
holding the message bytes from `j * C` on; together they are the message; an empty message has none, and `SND_MSG` of it
emits nothing. -/
def Obligations.SegmentationCutsTheMessage : Prop :=
  ∀ (c : Config) (msg : Bytes), c.WF →
    (chunks c msg).length = (msg.length + c.C - 1) / c.C ∧
    (∀ j d, (chunks c msg)[j]? = some d →
      (j + 1 < (chunks c msg).length → d.length = c.C) ∧
      (j + 1 = (chunks c msg).length → d.length = msg.length - j * c.C ∧ 1 ≤ d.length ∧ d.length ≤ c.C) ∧
      (∀ i, i < d.length → d[i]? = msg[j * c.C + i]?)) ∧
    (chunks c msg).flatten = msg ∧
    (msg = [] → chunks c msg = [] ∧ ∀ s : State, exec (.sndMsg msg) s = .next (s.record .snd
      { cmd := encode (.sndMsg msg), outcome := .msgEmpty, actions := [] }))

/-- R128, R83: `SND_MSG` completes, with the outcome that the number of stored chunks gives; an empty message and a
message longer than `MAX_MSG` write nothing but the observation (and the refusal's mark). A message of `2^32` bytes or more,
which no command spells, is refused like any other longer than `MAX_MSG` by the model's choice (log 11). -/
def Obligations.SndMsgOutcome : Prop :=
  ∀ (msg : Bytes) (s : State), s.cfg.WF → s.snd.IndexInv s.cfg →
    (s.cfg.maxMsg < msg.length →
      exec (.sndMsg msg) s = .next (s.refusedAs .snd (encode (.sndMsg msg)) (.msgTooLong msg.length))) ∧
    (msg = [] → exec (.sndMsg msg) s = .next (s.record .snd
      { cmd := encode (.sndMsg msg), outcome := .msgEmpty, actions := [] })) ∧
    (msg ≠ [] → msg.length ≤ s.cfg.maxMsg →
      ∃ (t : State) (out : List Action) (k n : Nat), exec (.sndMsg msg) s = .next t ∧
        k = (msg.length + s.cfg.C - 1) / s.cfg.C ∧ n = min k (s.cfg.maxBuffer - s.snd.count) ∧
        ((n = k ∧ t.snd.trace = s.snd.trace ++
            [{ cmd := encode (.sndMsg msg), outcome := .msgAccepted k, actions := out }]) ∨
         (n = 0 ∧ t.snd.trace = s.snd.trace ++
            [{ cmd := encode (.sndMsg msg), outcome := .msgDropped k, actions := out }]) ∨
         (0 < n ∧ n < k ∧ t.snd.trace = s.snd.trace ++
            [{ cmd := encode (.sndMsg msg), outcome := .msgTruncated n (k - n), actions := out }])))

/-- R121, R123 to R125: `SND_MSG` stores as many chunks as fit; `nbp`, `count` and `next_seq` advance by that many,
an empty window arms the timer, and nothing else of the machine changes but the buffer, the draws and the
observation. -/
def Obligations.SndMsgRegisters : Prop :=
  ∀ (msg : Bytes) (s : State), s.cfg.WF → s.snd.IndexInv s.cfg → msg ≠ [] → msg.length ≤ s.cfg.maxMsg →
    ∃ (t : State) (n : Nat), exec (.sndMsg msg) s = .next t ∧
      n = min ((msg.length + s.cfg.C - 1) / s.cfg.C) (s.cfg.maxBuffer - s.snd.count) ∧
      t.snd.base = s.snd.base ∧
      t.snd.nbp = (s.snd.nbp + n) % s.cfg.maxBuffer ∧
      t.snd.count = s.snd.count + n ∧
      t.snd.nextSeq = s.snd.nextSeq + BitVec.ofNat 8 n ∧
      t.snd.tmrArmed = (if s.snd.count = 0 then true else s.snd.tmrArmed) ∧
      t.snd.bufDraw = s.snd.bufDraw ∧
      t.cfg = s.cfg ∧ t.rcv = s.rcv ∧ t.refusalMark = s.refusalMark ∧ t.inputs = s.inputs ∧ t.epoch = s.epoch

/-- R124: of the chunks, those stored are numbered from `next_seq` on, which advances by as many, so that a dropped chunk
consumes no number. Chunk `j` of those stored stands whole in slot `nbp + j`, and every address outside those slots reads
as before (R125). -/
def Obligations.SndMsgStoresChunks : Prop :=
  ∀ (msg : Bytes) (s : State), s.cfg.WF → s.snd.IndexInv s.cfg → msg ≠ [] → msg.length ≤ s.cfg.maxMsg →
    ∃ (t : State) (n : Nat), exec (.sndMsg msg) s = .next t ∧
      n = min ((msg.length + s.cfg.C - 1) / s.cfg.C) (s.cfg.maxBuffer - s.snd.count) ∧
      t.snd.nextSeq = s.snd.nextSeq + BitVec.ofNat 8 n ∧
      (∀ j, j < n → IsPacketOf s.cfg (s.snd.nextSeq + BitVec.ofNat 8 j) (chunk s.cfg msg j)
        (t.snd.slotBytes s.cfg (slotAdd s.cfg s.snd.nbp j) s.cfg.P)) ∧
      (∀ a, (∀ j, j < n → a < slotAddr s.cfg (slotAdd s.cfg s.snd.nbp j) 0 ∨
          slotAddr s.cfg (slotAdd s.cfg s.snd.nbp j) s.cfg.P ≤ a) →
        t.snd.byteAtAddr a = s.snd.byteAtAddr a)

/-- R127, and R126, which the spec marks derived: of the chunks stored, exactly those whose slot lies inside the window are transmitted, in order; the
first packet of an empty window is followed by `TIMER_START`, and nothing else is emitted. -/
def Obligations.SndMsgTransmits : Prop :=
  ∀ (msg : Bytes) (s : State), s.cfg.WF → s.snd.IndexInv s.cfg → msg ≠ [] → msg.length ≤ s.cfg.maxMsg →
    ∃ (t : State) (e : Entry) (n : Nat), exec (.sndMsg msg) s = .next t ∧
      n = min ((msg.length + s.cfg.C - 1) / s.cfg.C) (s.cfg.maxBuffer - s.snd.count) ∧
      t.snd.trace = s.snd.trace ++ [e] ∧
      e.actions = (List.range n).flatMap fun j =>
        if s.snd.count + j < s.cfg.winSize then
          .pktOut (t.snd.slotBytes s.cfg (slotAdd s.cfg s.snd.nbp j) s.cfg.P) ::
            (if s.snd.count + j = 0 then [.timerStart] else [])
        else []

/-! ## SND_ACK (41_sender.md) -/

/-- R132, R134, and R133, which the spec marks derived: an accepted acknowledgment at distance `interval` frees `interval + 1` slots, transmits the
packets that enter the window (old window positions `WIN_SIZE` to `WIN_SIZE + interval` that hold one), restarts the
timer last, and changes nothing else. -/
def Obligations.SndAckAdvances : Prop :=
  ∀ (pkt : Bytes) (s : State) (interval : Nat), s.cfg.WF → s.snd.IndexInv s.cfg → pkt.length = s.cfg.P →
    verify s.cfg pkt = true →
    interval = ((byteAt pkt 0).toNat + 256 - (byteAt (s.snd.slotBytes s.cfg s.snd.base 1) 0).toNat) % 256 →
    interval < s.cfg.winSize → interval < s.snd.count →
    exec (.sndAck pkt) s = .next { s with snd := { s.snd with
      base := (s.snd.base + (interval + 1)) % s.cfg.maxBuffer
      count := s.snd.count - (interval + 1)
      tmrArmed := true
      trace := s.snd.trace ++ [{
        cmd := encode (.sndAck pkt)
        outcome := .ackAdvanced interval
        actions := (((List.range' s.cfg.winSize (interval + 1)).filter fun i => decide (i < s.snd.count)).map
          fun i => .pktOut (s.snd.slotBytes s.cfg ((s.snd.base + i) % s.cfg.maxBuffer) s.cfg.P)) ++ [.timerStart] }] } }

/-- R131: an acknowledgment that is corrupted, or finds an empty buffer, or is stale, in this order of tests, is ignored:
its outcome is recorded and nothing changes. Any other is accepted. -/
def Obligations.SndAckTests : Prop :=
  ∀ (pkt : Bytes) (s : State) (interval : Nat), s.cfg.WF → s.snd.IndexInv s.cfg → pkt.length = s.cfg.P →
    interval = ((byteAt pkt 0).toNat + 256 - (byteAt (s.snd.slotBytes s.cfg s.snd.base 1) 0).toNat) % 256 →
    (verify s.cfg pkt = false → exec (.sndAck pkt) s = .next (s.record .snd
      { cmd := encode (.sndAck pkt), outcome := .ackCorrupt, actions := [] })) ∧
    (verify s.cfg pkt = true → s.snd.count = 0 → exec (.sndAck pkt) s = .next (s.record .snd
      { cmd := encode (.sndAck pkt), outcome := .ackIdle, actions := [] })) ∧
    (verify s.cfg pkt = true → 0 < s.snd.count → (s.cfg.winSize ≤ interval ∨ s.snd.count ≤ interval) →
      exec (.sndAck pkt) s = .next (s.record .snd
        { cmd := encode (.sndAck pkt), outcome := .ackStale interval, actions := [] })) ∧
    (verify s.cfg pkt = true → 0 < s.snd.count → interval < s.cfg.winSize → interval < s.snd.count →
      ∃ t out, exec (.sndAck pkt) s = .next t ∧ t.snd.trace = s.snd.trace ++
        [{ cmd := encode (.sndAck pkt), outcome := .ackAdvanced interval, actions := out }])

/-- R218, which the spec marks derived: an acknowledgment `d` sequence numbers behind `base_seq` is stale when `d <= 256 - WIN_SIZE`;
an older one, where as many packets are stored, is taken as new. -/
def Obligations.OldAcknowledgmentStaleOrAliased : Prop :=
  ∀ (pkt : Bytes) (s : State) (d : Nat), s.cfg.WF → s.snd.IndexInv s.cfg → pkt.length = s.cfg.P →
    verify s.cfg pkt = true → 0 < s.snd.count → 1 ≤ d → d ≤ 255 →
    byteAt pkt 0 = byteAt (s.snd.slotBytes s.cfg s.snd.base 1) 0 - BitVec.ofNat 8 d →
    (d ≤ 256 - s.cfg.winSize → exec (.sndAck pkt) s = .next (s.record .snd
      { cmd := encode (.sndAck pkt), outcome := .ackStale (256 - d), actions := [] })) ∧
    (256 - s.cfg.winSize < d → 256 - d < s.snd.count →
      ∃ t out, exec (.sndAck pkt) s = .next t ∧
        t.snd.trace = s.snd.trace ++
          [{ cmd := encode (.sndAck pkt), outcome := .ackAdvanced (256 - d), actions := out }])

/-- The duty C4 of R193 as a premise, in the model's form (log 16): an intact packet that is delivered has a number, counted
since the last joint reset, at most `256 - WIN_SIZE` behind the start of the sender's window, and its sequence byte is that
number's. At `SND`, an acknowledgment of a packet the window has passed is then stale, a late sentinel (number -1) among
them; at `RCV`, a packet already accepted fewer than 256 numbers ago is then re-acknowledged and not delivered. -/
def Obligations.DutyC4MakesPassedAcksStale : Prop :=
  (∀ (pkt : Bytes) (s : State), s.Inv → s.ChannelInv → pkt.length = s.cfg.P → verify s.cfg pkt = true →
    0 < s.snd.count → DutyC4 s (.command .snd (encode (.sndAck pkt))) →
    ∃ n : Int, (n, pkt) ∈ s.numbered .rcv ∧ byteAt pkt 0 = BitVec.ofInt 8 n ∧
      s.acked ≤ n + (256 - s.cfg.winSize) ∧
      (n < s.acked → exec (.sndAck pkt) s = .next (s.record .snd
        { cmd := encode (.sndAck pkt), outcome := .ackStale (256 - (s.acked - n)).toNat, actions := [] }))) ∧
  (∀ (pkt : Bytes) (s : State), s.Inv → s.ChannelInv → pkt.length = s.cfg.P → verify s.cfg pkt = true →
    DutyC4 s (.command .rcv (encode (.rcvPkt pkt))) →
    ∃ n : Int, (n, pkt) ∈ s.numbered .snd ∧ byteAt pkt 0 = BitVec.ofInt 8 n ∧
      s.acked ≤ n + (256 - s.cfg.winSize) ∧
      (n < s.accepted → s.accepted < n + 256 → ∃ t out, exec (.rcvPkt pkt) s = .next t ∧
        t.rcv.trace = s.rcv.trace ++
          [{ cmd := encode (.rcvPkt pkt), outcome := .rxDuplicate (byteAt pkt 0), actions := [.pktOut out] }]))

/-- R162: the sentinel acknowledgment `RCV` sends while it has accepted nothing is stale at a sender whose oldest
outstanding packet has sequence number 0. -/
def Obligations.SentinelNeverAcknowledges : Prop :=
  ∀ (s : State) (p : Bytes), s.Inv → s.rcv.ackValid = false → IsPacketOf s.cfg s.rcv.ackSeqByte [] p →
    0 < s.snd.count → byteAt (s.snd.slotBytes s.cfg s.snd.base 1) 0 = 0x00 →
    byteAt p 0 = 0xFF ∧
    exec (.sndAck p) s = .next (s.record .snd
      { cmd := encode (.sndAck p), outcome := .ackStale 255, actions := [] })

/-- R137 (Scenario D), which the spec marks derived: with a window of 10, the third outstanding packet's acknowledgment advances `base` by 3 and emits
the packets at old window positions 10, 11 and 12 that exist, then restarts the timer. -/
def Obligations.ScenarioDSlidesByThree : Prop :=
  ∀ (pkt : Bytes) (s : State), s.Inv → s.cfg.winSize = 10 → 10 ≤ s.snd.count →
    IsPacketOf s.cfg (s.snd.seqAt 2) [] pkt →
    ∃ t e, exec (.sndAck pkt) s = .next t ∧
      t.snd.base = (s.snd.base + 3) % s.cfg.maxBuffer ∧ t.snd.count = s.snd.count - 3 ∧
      t.snd.trace = s.snd.trace ++ [e] ∧ t.snd.tmrArmed = true ∧
      e.actions = (([10, 11, 12].filter fun i => decide (i < s.snd.count)).map
        fun i => .pktOut (s.snd.packetAt s.cfg i)) ++ [.timerStart]

/-! ## SND_TIMEOUT (41_sender.md) -/

/-- R140 to R142: an expiry over an empty buffer stops the timer; otherwise the outstanding packets of the window are
resent from `base` on, in order, as they are stored, and the timer restarts; no register and no byte of the buffer
changes. A command that is not exactly one byte is refused, recording its length (the model's reading of R181, log 6). -/
def Obligations.SndTimeoutRetransmits : Prop :=
  (∀ s : State, s.snd.count = 0 →
    exec .sndTimeout s = .next { s with snd := { s.snd with
      tmrArmed := false
      trace := s.snd.trace ++ [{ cmd := [0x03], outcome := .toEmpty, actions := [.timerStop] }] } }) ∧
  (∀ s : State, s.cfg.WF → 0 < s.snd.count →
    exec .sndTimeout s = .next { s with snd := { s.snd with
      tmrArmed := true
      trace := s.snd.trace ++ [{
        cmd := [0x03]
        outcome := .toRetransmit (min s.snd.count s.cfg.winSize)
        actions := ((List.range (min s.snd.count s.cfg.winSize)).map fun i =>
          .pktOut (s.snd.slotBytes s.cfg ((s.snd.base + i) % s.cfg.maxBuffer) s.cfg.P)) ++ [.timerStart] }] } }) ∧
  (∀ (s : State) (rest : Bytes), rest ≠ [] →
    present .snd (0x03 :: rest) s = .next (s.refusedAs .snd (0x03 :: rest) (.badLength (1 + rest.length))))

/-- R143 (Scenario C), which the spec marks derived: a message that fits an empty window is transmitted, and an expiry with nothing acknowledged emits
exactly the same packets, `base` unchanged. -/
def Obligations.ScenarioCResendsTheSamePackets : Prop :=
  ∀ (msg : Bytes) (s : State), s.cfg.WF → s.snd.IndexInv s.cfg → s.snd.count = 0 → msg ≠ [] →
    msg.length ≤ s.cfg.maxMsg →
    (msg.length + s.cfg.C - 1) / s.cfg.C ≤ s.cfg.winSize → (msg.length + s.cfg.C - 1) / s.cfg.C ≤ s.cfg.maxBuffer →
    ∃ t e t' e', exec (.sndMsg msg) s = .next t ∧ t.snd.trace = s.snd.trace ++ [e] ∧
      exec .sndTimeout t = .next t' ∧ t'.snd.trace = t.snd.trace ++ [e'] ∧
      (pktOuts e.actions).length = (msg.length + s.cfg.C - 1) / s.cfg.C ∧
      pktOuts e'.actions = pktOuts e.actions ∧ t'.snd.base = s.snd.base

/-- R134, R141 (conflict C5): the acknowledgment that empties the buffer leaves the timer armed, and the next expiry
stops it: the run is quiescent (R194). -/
def Obligations.EmptyingAckThenExpiryIsQuiescent : Prop :=
  ∀ (pkt : Bytes) (s : State), s.Inv → 0 < s.snd.count → s.snd.count ≤ s.cfg.winSize →
    IsPacketOf s.cfg (s.snd.nextSeq - 1) [] pkt →
    ∃ t t', exec (.sndAck pkt) s = .next t ∧ t.snd.count = 0 ∧ t.snd.tmrArmed = true ∧
      exec .sndTimeout t = .next t' ∧ t'.Quiescent

/-- The first two laws of R144, which the spec marks derived: over any run with no reset, from every state that meets the
invariants, `base` has advanced by the number of packets acknowledged and `next_seq` by the number produced, and as many
are acknowledged as were outstanding or produced and are outstanding no longer. -/
def Obligations.AcknowledgedNeverExceedsProduced : Prop :=
  ∀ (n : Nat) (s t : State), s.Inv → (∀ u, Input.reset u ∉ s.inputs) → Input.resetBoth ∉ s.inputs →
    runSteps n s = .next t →
    ∃ es : List Entry, t.snd.trace = s.snd.trace ++ es ∧
      t.snd.count + ackedTotal es = s.snd.count + storedTotal es ∧
      t.snd.base = (s.snd.base + ackedTotal es) % s.cfg.maxBuffer ∧
      t.snd.nextSeq = s.snd.nextSeq + BitVec.ofNat 8 (storedTotal es)

/-! ## RCV_PKT (42_receiver.md) -/

/-- R161: the acknowledgment is `[a, 0x00, 0xFF - a, 0xFF]` and `P - 4` tail bytes, `a` the last accepted sequence
number or `0xFF` before any; building one changes no register. That it advances the unit's draw counter by the `P - 4`
bytes of its tail is the model's form of a draw (log 2). -/
def Obligations.AcknowledgmentBytes : Prop :=
  ∀ (c : Config) (x : Receiver), c.WF →
    ∃ (a : Byte) (tail : Bytes), tail.length = c.P - 4 ∧
      (x.ackPacket c).1 = [a, 0x00, 0xFF - a, 0xFF] ++ tail ∧
      (x.ackValid = true → a = x.expectedSeq - 1) ∧ (x.ackValid = false → a = 0xFF) ∧
      (x.ackPacket c).2 = { x with draws := x.draws + (c.P - 4) }

/-- R160, R163: a valid packet with the expected number is delivered, then acknowledged with its own number;
`expected_seq` and `ack_valid` are the only registers written. -/
def Obligations.RcvPktAccepts : Prop :=
  ∀ (pkt : Bytes) (s : State), s.cfg.WF → pkt.length = s.cfg.P → verify s.cfg pkt = true →
    byteAt pkt 0 = s.rcv.expectedSeq →
    ∃ (ack : Bytes) (k : Nat), IsPacketOf s.cfg (byteAt pkt 0) [] ack ∧
      exec (.rcvPkt pkt) s = .next { s with rcv :=
        { expectedSeq := byteAt pkt 0 + 1
          ackValid := true
          draws := k
          trace := s.rcv.trace ++ [{
            cmd := encode (.rcvPkt pkt)
            outcome := .rxAccepted (byteAt pkt 0)
            actions := [.msgOut ((pkt.drop 4).take (byteAt pkt 1).toNat), .pktOut ack] }] } }

/-- R165: a valid packet with any other number is not delivered and is answered with the acknowledgment of the last
accepted number; no register is written. -/
def Obligations.RcvPktReacknowledges : Prop :=
  ∀ (pkt : Bytes) (s : State), s.cfg.WF → pkt.length = s.cfg.P → verify s.cfg pkt = true →
    byteAt pkt 0 ≠ s.rcv.expectedSeq →
    ∃ (ack : Bytes) (k : Nat),
      IsPacketOf s.cfg (if s.rcv.ackValid then s.rcv.expectedSeq - 1 else 0xFF) [] ack ∧
      exec (.rcvPkt pkt) s = .next { s with rcv := { s.rcv with
        draws := k
        trace := s.rcv.trace ++ [{
          cmd := encode (.rcvPkt pkt), outcome := .rxDuplicate (byteAt pkt 0), actions := [.pktOut ack] }] } }

/-- R164: a corrupted packet changes nothing; it is answered with the current acknowledgment exactly where
`ACK_ON_CORRUPT` is set. A command that is not `1 + P` bytes is refused (R160), recording its length (the model's reading
of R181, log 6). -/
def Obligations.RcvPktCorrupted : Prop :=
  (∀ (pkt : Bytes) (s : State), s.cfg.WF → pkt.length = s.cfg.P → verify s.cfg pkt = false →
    (s.cfg.ackOnCorrupt = false → exec (.rcvPkt pkt) s = .next (s.record .rcv
      { cmd := encode (.rcvPkt pkt), outcome := .rxCorrupt, actions := [] })) ∧
    (s.cfg.ackOnCorrupt = true → ∃ (ack : Bytes) (k : Nat),
      IsPacketOf s.cfg (if s.rcv.ackValid then s.rcv.expectedSeq - 1 else 0xFF) [] ack ∧
      exec (.rcvPkt pkt) s = .next ((s.setDraws .rcv k).record .rcv
        { cmd := encode (.rcvPkt pkt), outcome := .rxCorrupt, actions := [.pktOut ack] }))) ∧
  (∀ (pkt : Bytes) (s : State), pkt.length ≠ s.cfg.P →
    present .rcv (0x11 :: pkt) s = .next (s.refusedAs .rcv (0x11 :: pkt) (.badLength (1 + pkt.length))))

/-- R39, which the spec marks derived: the acknowledgment byte is `(expected_seq - 1) mod 256` in every state of a run. -/
def Obligations.AckByteIsExpectedMinusOne : Prop :=
  ∀ s : State, s.Inv → s.rcv.ackSeqByte = s.rcv.expectedSeq - 1

/-- R166, which the spec marks derived: over any run with no reset, the numbers of the accepted packets continue `expected_seq` with no gap and no
repeat modulo 256, one message is delivered for each and none otherwise, and `expected_seq` has advanced by their
count. -/
def Obligations.DeliveryInSequenceOrder : Prop :=
  ∀ (n : Nat) (s t : State), (∀ u, Input.reset u ∉ s.inputs) → Input.resetBoth ∉ s.inputs → runSteps n s = .next t →
    ∃ (es : List Entry) (k : Nat), t.rcv.trace = s.rcv.trace ++ es ∧
      acceptedSeqs es = (List.range k).map (fun i => s.rcv.expectedSeq + BitVec.ofNat 8 i) ∧
      (msgOuts (actionsOf es)).length = k ∧
      t.rcv.expectedSeq = s.rcv.expectedSeq + BitVec.ofNat 8 k

/-! ## Both units together -/

/-- Scenario A in general (R167, R59): a message that fits an empty window, delivered undamaged and in order to a
receiver that is in step, reaches the application whole, in the chunks it was cut into. -/
def Obligations.LosslessMessageReachesTheApplication : Prop :=
  ∀ (msg : Bytes) (s : State), s.Inv → s.snd.count = 0 → s.rcv.expectedSeq = s.snd.nextSeq → msg ≠ [] →
    msg.length ≤ s.cfg.maxMsg → (msg.length + s.cfg.C - 1) / s.cfg.C ≤ s.cfg.winSize →
    (msg.length + s.cfg.C - 1) / s.cfg.C ≤ s.cfg.maxBuffer →
    ∃ t e t' es, exec (.sndMsg msg) s = .next t ∧ t.snd.trace = s.snd.trace ++ [e] ∧
      deliverAll (pktOuts e.actions) t = .next t' ∧ t'.rcv.trace = s.rcv.trace ++ es ∧
      msgOuts (actionsOf es) = chunks s.cfg msg ∧ (msgOuts (actionsOf es)).flatten = msg ∧
      t'.rcv.expectedSeq = t'.snd.nextSeq

/-- One round of recovery (R195): from a state where the receiver waits for the oldest outstanding packet, an expiry, the
delivery of what it resends and of the last acknowledgment frees the whole sent window. -/
def Obligations.OneRoundOfRecoveryFreesTheWindow : Prop :=
  ∀ s : State, s.Inv → 0 < s.snd.count → s.rcv.expectedSeq = s.snd.seqAt 0 →
    ∃ t1 e t2 ack t3, exec .sndTimeout s = .next t1 ∧ t1.snd.trace = s.snd.trace ++ [e] ∧
      deliverAll (pktOuts e.actions) t1 = .next t2 ∧
      (pktOuts (actionsOf t2.rcv.trace)).getLast? = some ack ∧
      exec (.sndAck ack) t2 = .next t3 ∧
      t3.snd.count = s.snd.count - s.snd.sentCount s.cfg ∧ t3.rcv.expectedSeq = t3.snd.seqAt 0

/-- R187, R2: a command of `SND` and a command of `RCV` can be presented in either order, with the same end state and
the same observations: what one order reaches, the other reaches, in both directions. -/
def Obligations.UnitsDoNotInterfere : Prop :=
  ∀ (i j : Instr) (s s2 : State), i.unit = .snd → j.unit = .rcv →
    ((∃ s1, exec i s = .next s1 ∧ exec j s1 = .next s2) ↔ ∃ s1, exec j s = .next s1 ∧ exec i s1 = .next s2)

/-- The writes of R33, which the spec marks derived: which transaction writes which piece of state; no other piece changes. The parameters and the events still to
be presented never change (R30), nor does the place of the last joint reset, which is the model's own (log 19). -/
def Obligations.AccessMatrix : Prop :=
  ∀ (i : Instr) (s t : State), exec i s = .next t →
    t.cfg = s.cfg ∧ t.inputs = s.inputs ∧ t.epoch = s.epoch ∧
    (i.op ≠ .sndAck → t.snd.base = s.snd.base) ∧
    (i.op ≠ .sndMsg → t.snd.nbp = s.snd.nbp ∧ t.snd.nextSeq = s.snd.nextSeq ∧
      ∀ a, t.snd.byteAtAddr a = s.snd.byteAtAddr a) ∧
    (i.op ≠ .sndMsg → i.op ≠ .sndAck → t.snd.count = s.snd.count) ∧
    (i.op ≠ .sndMsg → i.op ≠ .sndAck → i.op ≠ .sndTimeout → t.snd.tmrArmed = s.snd.tmrArmed) ∧
    (i.op ≠ .rcvPkt → t.rcv.expectedSeq = s.rcv.expectedSeq ∧ t.rcv.ackValid = s.rcv.ackValid) ∧
    (i.unit = .snd → t.rcv = s.rcv) ∧ (i.unit = .rcv → t.snd = s.snd)

/-- R32: the bytes of slots outside the outstanding range are unobservable: two senders that differ in them only run
every command alike, with the same observation, and differ in such slots only again. -/
def Obligations.StaleSlotsUnobservable : Prop :=
  ∀ (i : Instr) (s s' t : State), s.cfg.WF → s.snd.IndexInv s.cfg →
    s'.cfg = s.cfg → s'.rcv = s.rcv → s'.refusalMark = s.refusalMark → s'.inputs = s.inputs →
    s'.epoch = s.epoch → s.snd.AgreesOutstanding s.cfg s'.snd → exec i s = .next t →
    ∃ t', exec i s' = .next t' ∧ t'.cfg = t.cfg ∧ t'.rcv = t.rcv ∧ t'.refusalMark = t.refusalMark ∧
      t'.inputs = t.inputs ∧ t'.epoch = t.epoch ∧ t.snd.AgreesOutstanding t.cfg t'.snd

/-- R74, R136: the tail of a received packet is never read: two packets that agree on the occupied region, or, where the
length is illegal, on the header alone, have the same effect. -/
def Obligations.ReceivedTailNeverRead : Prop :=
  ∀ (u : UnitId) (p q : Bytes) (s : State), s.cfg.WF → s.snd.IndexInv s.cfg → p.length = s.cfg.P →
    q.length = s.cfg.P →
    (if pktLen p ≤ s.cfg.C then p.take (4 + pktLen p) = q.take (4 + pktLen p) else p.take 4 = q.take 4) →
    (∃ (t : State) (k : TxOutcome) (out : List Action), exec (.rcvPkt p) s = .next (t.record .rcv ⟨encode (.rcvPkt p), k, out⟩) ∧
      exec (.rcvPkt q) s = .next (t.record .rcv ⟨encode (.rcvPkt q), k, out⟩)) ∧
    (∃ (t : State) (k : TxOutcome) (out : List Action), exec (.sndAck p) s = .next (t.record .snd ⟨encode (.sndAck p), k, out⟩) ∧
      exec (.sndAck q) s = .next (t.record .snd ⟨encode (.sndAck q), k, out⟩)) ∧
    (∃ (t : State) (k : TxOutcome) (out : List Action), exec (.ckVerify u p) s = .next (t.record u ⟨encode (.ckVerify u p), k, out⟩) ∧
      exec (.ckVerify u q) s = .next (t.record u ⟨encode (.ckVerify u q), k, out⟩))

/-- The last law of R144, which the spec marks derived: every packet a transaction emits, by either unit, is a whole packet and verifies. -/
def Obligations.EveryEmittedPacketVerifies : Prop :=
  ∀ (i : Instr) (s t : State) (e : Entry) (p : Bytes), s.Inv → exec i s = .next t →
    t.traceOf i.unit = s.traceOf i.unit ++ [e] → .pktOut p ∈ e.actions →
    p.length = s.cfg.P ∧ verify s.cfg p = true

/-- R80: `SND` emits only `PKT_OUT`, `TIMER_START`, `TIMER_STOP` and `RESULT`, `RCV` only `PKT_OUT`, `MSG_OUT` and
`RESULT`; a delivered message has at most `C` bytes. -/
def Obligations.UnitsEmitTheirOwnActions : Prop :=
  ∀ (i : Instr) (s t : State) (e : Entry) (a : Action), exec i s = .next t →
    t.traceOf i.unit = s.traceOf i.unit ++ [e] → a ∈ e.actions →
    (i.unit = .snd → (∃ p, a = .pktOut p) ∨ a = .timerStart ∨ a = .timerStop ∨ ∃ r, a = .result r) ∧
    (i.unit = .rcv → (∃ p, a = .pktOut p) ∨ (∃ m, a = .msgOut m ∧ m.length ≤ s.cfg.C) ∨ ∃ r, a = .result r)

/-- R31: `tmr_armed` is what the actions of a transaction on the timer make of it, an expiry disarming it first. -/
def Obligations.TimerFollowsTheActions : Prop :=
  ∀ (i : Instr) (s t : State) (e : Entry), i.unit = .snd → exec i s = .next t →
    t.snd.trace = s.snd.trace ++ [e] →
    t.snd.tmrArmed =
      if .timerStart ∈ e.actions then true
      else if .timerStop ∈ e.actions ∨ i = .sndTimeout then false
      else s.snd.tmrArmed

/-- R38, R41, which the spec marks derived: with `sent = min(count, WIN_SIZE)` packets of the buffer sent before, what `SND_MSG` and an accepted
`SND_ACK` transmit are exactly the packets that make `sent` what it is after: each once, none beyond the window. -/
def Obligations.FirstTransmissionsFillTheWindow : Prop :=
  ∀ (i : Instr) (s t : State) (e : Entry) (freed : Nat), s.cfg.WF → s.snd.IndexInv s.cfg → exec i s = .next t →
    t.snd.trace = s.snd.trace ++ [e] →
    (i.op = .sndMsg ∧ freed = 0 ∨ i.op = .sndAck ∧ ∃ interval, e.outcome = .ackAdvanced interval ∧ freed = interval + 1) →
    pktOuts e.actions =
      (List.range' (s.snd.sentCount s.cfg - freed) (t.snd.sentCount s.cfg - (s.snd.sentCount s.cfg - freed))).map
        (t.snd.packetAt s.cfg)

/-! ## Invariants -/

/-- R40: the registers and the timer flag after reset, for every configuration; the fields of the model's own, the form
of the unspecified buffer among them, are not spoken of. -/
def Obligations.ResetValues : Prop :=
  ∀ c : Config,
    (State.resetOf c).snd.base = 0 ∧ (State.resetOf c).snd.nbp = 0 ∧ (State.resetOf c).snd.count = 0 ∧
    (State.resetOf c).snd.nextSeq = 0 ∧ (State.resetOf c).rcv.expectedSeq = 0 ∧
    (State.resetOf c).rcv.ackValid = false ∧ (State.resetOf c).snd.tmrArmed = false

/-- The invariants R34 to R37 and R39, which the spec marks derived, hold after reset, in every admitted configuration and
in `EX`; with them the canonical form of the buffer, which is the model's (log 3), and what the model's numbers of packets
are about (log 16). -/
def Obligations.ResetMeetsTheInvariants : Prop :=
  (∀ c : Config, c.WF → (State.resetOf c).Inv ∧ (State.resetOf c).ChannelInv) ∧ State.reset.Inv ∧ State.reset.ChannelInv

/-- R34 to R37, R39, which the spec marks derived, and the buffer's canonical form, which is the model's (log 3): every step
keeps them, from every state that meets them, whatever the environment presents, a reset of one unit included (log 8).
Every step but a reset of one unit alone also keeps the relation of the sequence numbers, and of the packets on the channel,
to the model's numbers of packets since the last joint reset (log 16). -/
def Obligations.StepKeepsTheInvariants : Prop :=
  ∀ s t : State, s.Inv → step s = .next t →
    t.Inv ∧ (s.ChannelInv → (∀ u rest, s.inputs ≠ .reset u :: rest) → t.ChannelInv)

/-- The buffer's canonical form, which is the model's (log 3): every step keeps it, from every state at all, and no step lists a byte outside the
buffer's address space (R50). -/
def Obligations.StepKeepsTheBufferCanonical : Prop :=
  ∀ s t : State, s.snd.BufInv s.cfg → step s = .next t → t.snd.BufInv t.cfg

/-- R180, R189: no step stops, whatever is presented: a state that meets the invariants always has a next state. -/
def Obligations.NoStepStops : Prop :=
  ∀ s : State, s.Inv → ∃ t, step s = .next t

/-- R180, R184: a presented command is one transaction: its unit records exactly one entry, of that command, and the
other unit records none. -/
def Obligations.EveryCommandRecordsOneOutcome : Prop :=
  ∀ (s : State) (u : UnitId) (cmd : Bytes) (rest : List Input), s.Inv → s.inputs = .command u cmd :: rest →
    ∃ t k out, step s = .next t ∧ t.inputs = rest ∧
      t.traceOf u = s.traceOf u ++ [{ cmd := cmd, outcome := k, actions := out }] ∧
      t.traceOf (peer u) = s.traceOf (peer u)

/-- R182: the outcomes that are errors of the source's taxonomy are exactly the two corruptions, the two overflows, the
stale and the idle acknowledgment, and the expiry over an empty buffer; a re-acknowledged packet is none. -/
def Obligations.ErrorClassesOfOutcomes : Prop :=
  ∀ k : TxOutcome,
    (k.errorClass = some .corruption ↔ k.code = 0x21 ∨ k.code = 0x42) ∧
    (k.errorClass = some .windowOverflow ↔ k.code = 0x11 ∨ k.code = 0x12) ∧
    (k.errorClass = some .staleAck ↔ k.code = 0x22 ∨ k.code = 0x23) ∧
    (k.errorClass = some .emptyTimeout ↔ k.code = 0x31)

/-- R183: a refused command, whatever the reason, writes no state but the run's mark and its record, with code and reason,
and emits nothing; a command that is not refused leaves the mark; no transaction clears it. That a reset leaves it too is
the model's choice (log 8), and that a step on nothing keeps it the model's reading of R192 (log 4). -/
def Obligations.RefusalsWriteOnlyTheMark : Prop :=
  ∀ s t : State, step s = .next t →
    (s.refusalMark = true → t.refusalMark = true) ∧
    (∀ u cmd rest e, s.inputs = .command u cmd :: rest → t.traceOf u = s.traceOf u ++ [e] →
      (∀ r, e.outcome = .refused r → t = ({ s with inputs := rest } : State).refusedAs u cmd r) ∧
      ((∀ r, e.outcome ≠ .refused r) → t.refusalMark = s.refusalMark)) ∧
    ((∀ u cmd rest, s.inputs ≠ .command u cmd :: rest) → t.refusalMark = s.refusalMark)

/-- R36, R135, which the spec marks derived: an outstanding slot's first byte is its sequence number and its packet verifies; `base_seq` is
`(next_seq - count) mod 256`. -/
def Obligations.OutstandingPacketsAreNumbered : Prop :=
  ∀ (s : State) (i : Nat), s.Inv → i < s.snd.count →
    byteAt (s.snd.packetAt s.cfg i) 0 = s.snd.nextSeq - BitVec.ofNat 8 s.snd.count + BitVec.ofNat 8 i ∧
    verify s.cfg (s.snd.packetAt s.cfg i) = true ∧
    byteAt (s.snd.slotBytes s.cfg s.snd.base 1) 0 = s.snd.nextSeq - BitVec.ofNat 8 s.snd.count

/-- R22 to R24: under the invariants `base` and `nbp` fit `IW` bits and `count` fits `CW` bits. -/
def Obligations.RegistersFitTheirWidths : Prop :=
  ∀ s : State, s.Inv →
    s.snd.base < 2 ^ s.cfg.IW ∧ s.snd.nbp < 2 ^ s.cfg.IW ∧ s.snd.count < 2 ^ s.cfg.CW

/-! ## The command interface (30_encoding.md) -/

/-- Every well-formed command, with every operand at every value, decodes from its own encoding (R77, R78). -/
def Obligations.DecodeOfEncode : Prop :=
  ∀ (c : Config) (i : Instr), i.wf c = true → decode c i.unit (encode i) = .ok i

/-- A byte string has at most one meaning (R77 to R79): what a unit decodes from it is well formed, is addressed to that
unit and has that byte string as its encoding. -/
def Obligations.EncodeOfDecode : Prop :=
  ∀ (c : Config) (u : UnitId) (cmd : Bytes) (i : Instr), decode c u cmd = .ok i →
    i.wf c = true ∧ i.unit = u ∧ encode i = cmd

/-- R82: an empty command, an unassigned code, and a code of the other unit are illegal, whatever follows, and no other
command is; an illegal command is refused with no state written and no action emitted. That the refusal of an empty
command records no op byte is the model's reading of R181 (log 6). -/
def Obligations.IllegalOperationCodes : Prop :=
  ∀ (c : Config) (u : UnitId),
    decode c u [] = .error (.illegalOp none) ∧
    (∀ (op : Byte) (rest : Bytes),
      decode c u (op :: rest) = .error (.illegalOp (some op)) ↔
        (op = 0x00 ∨ (0x04 ≤ op.toNat ∧ op.toNat ≤ 0x10) ∨ (0x12 ≤ op.toNat ∧ op.toNat ≤ 0x20) ∨ 0x24 ≤ op.toNat) ∨
        (u = .rcv ∧ 0x01 ≤ op.toNat ∧ op.toNat ≤ 0x03) ∨ (u = .snd ∧ op = 0x11)) ∧
    ∀ (s : State) (cmd : Bytes) (op : Option Byte), decode s.cfg u cmd = .error (.illegalOp op) →
      present u cmd s = .next (s.refusedAs u cmd (.illegalOp op))

/-- R79, R184, R183: a command of an accepted code that is shorter or longer than its layout, that is, the encoding of no
well-formed command of its unit, is refused with `BAD_LENGTH`: no state is written and no action emitted. That the length recorded is the command's own is the model's reading
of R181 (log 6). -/
def Obligations.OtherLengthsAreRefused : Prop :=
  ∀ (c : Config) (u : UnitId) (cmd : Bytes) (o : Op), cmd.head? = some o.code → o.acceptedBy u = true →
    (∀ i : Instr, i.wf c = true → i.unit = u → encode i ≠ cmd) →
    decode c u cmd = .error (.badLength cmd.length) ∧
    ∀ s : State, s.cfg = c → present u cmd s = .next (s.refusedAs u cmd (.badLength cmd.length))

/-- R80: the code and the byte layout of each output action, a length field reading as the length wherever it can; and the
layouts tell the actions apart and give back their values. -/
def Obligations.ActionEncodingIsInjective : Prop :=
  (∀ p, (Action.pktOut p).encode = [0x81] ++ p) ∧
  Action.timerStart.encode = [0x82] ∧ Action.timerStop.encode = [0x83] ∧
  (∀ m, ∃ l : Byte, (Action.msgOut m).encode = [0x91, l] ++ m ∧ (m.length < 2 ^ 8 → l.toNat = m.length)) ∧
  (∀ r, ∃ n1 n0 : Byte, (Action.result r).encode = [0xA1, n1, n0] ++ r ∧
    (r.length < 2 ^ 16 → n1.toNat * 2 ^ 8 + n0.toNat = r.length)) ∧
  ∀ a b : Action, a.encode = b.encode → a = b

/-- Words written out from the layouts of R78 and R71 decode to the commands they stand for. -/
def Obligations.WrittenOutCommandsDecode : Prop :=
  decode Config.ex .snd [0x01, 0x00, 0x00, 0x00, 0x03, 0x41, 0x42, 0x43] = .ok (.sndMsg [0x41, 0x42, 0x43]) ∧
  decode Config.ex .snd ([0x02, 0x02, 0x00, 0xFD, 0xFF] ++ List.replicate 60 0x00) =
    .ok (.sndAck ([0x02, 0x00, 0xFD, 0xFF] ++ List.replicate 60 0x00)) ∧
  decode Config.ex .snd [0x03] = .ok .sndTimeout ∧
  decode Config.ex .rcv ([0x11, 0x01, 0x01, 0xED, 0xFE, 0x11] ++ List.replicate 59 0x00) =
    .ok (.rcvPkt ([0x01, 0x01, 0xED, 0xFE, 0x11] ++ List.replicate 59 0x00)) ∧
  decode Config.ex .rcv [0x21, 0x00, 0x01, 0x01] = .ok (.ckSum .rcv [0x01]) ∧
  decode Config.ex .snd ([0x22, 0x00, 0x00, 0xFF, 0xFF] ++ List.replicate 60 0x00) =
    .ok (.ckVerify .snd ([0x00, 0x00, 0xFF, 0xFF] ++ List.replicate 60 0x00)) ∧
  decode Config.ex .snd [0x23, 0x05, 0x03, 0x41, 0x42, 0x43] = .ok (.pktEncode .snd 0x05 [0x41, 0x42, 0x43])

/-! ## The step -/

/-- R3, R76: where the next event is the encoding of a well-formed command addressed to its unit, the step is that
command's meaning, on the state with that event taken away. -/
def Obligations.StepRunsTheDecodedCommand : Prop :=
  ∀ (s : State) (i : Instr) (rest : List Input), s.cfg.WF → i.wf s.cfg = true →
    s.inputs = .command i.unit (encode i) :: rest →
    step s = exec i { s with inputs := rest }

/-- R210, R211, R213: a reset sets the registers of its unit to their reset values and the environment disarms the timer
with `SND`'s; it emits nothing and records nothing. The model's own: traces, draws and the mark stay (log 8), a reset of
both units together moves the place from which the channel's packets count, which a lone reset leaves (log 19), and with
nothing presented a step keeps the state (log 4). -/
def Obligations.StepResetsAndIdles : Prop :=
  ∀ (s : State) (rest : List Input), s.cfg.WF →
    (s.inputs = [] → step s = .next s) ∧
    (s.inputs = .reset .snd :: rest → ∃ k, step s = .next { s with
      inputs := rest
      snd := { Sender.reset with trace := s.snd.trace, draws := s.snd.draws, bufDraw := k } }) ∧
    (s.inputs = .reset .rcv :: rest → step s = .next { s with
      inputs := rest
      rcv := { Receiver.reset with trace := s.rcv.trace, draws := s.rcv.draws } }) ∧
    (s.inputs = .resetBoth :: rest → ∃ k, step s = .next { s with
      inputs := rest
      snd := { Sender.reset with trace := s.snd.trace, draws := s.snd.draws, bufDraw := k }
      rcv := { Receiver.reset with trace := s.rcv.trace, draws := s.rcv.draws }
      epoch := { snd := s.snd.trace.length, rcv := s.rcv.trace.length } })

/-- A configuration outside the bounds of R7 to R9 is refused as `badConfig`, and a step is refused, for any reason, of no
other configuration: the spec says so of `P`, `WIN_SIZE` and `MAX_BUFFER` (93_implementation_defined.md section 3), and the
refusal for `MAX_MSG` is the model's choice (log 1). -/
def Obligations.OnlyBadConfigurationsAreRefused : Prop :=
  ∀ s : State,
    (step s = .refused .badConfig ↔
      s.cfg.P < 5 ∨ 259 < s.cfg.P ∨ s.cfg.winSize < 1 ∨ 256 ≤ s.cfg.winSize ∨ s.cfg.maxBuffer < 1 ∨
        2 ^ 32 - 1 < s.cfg.maxMsg) ∧
    ((∃ r, step s = .refused r) ↔
      s.cfg.P < 5 ∨ 259 < s.cfg.P ∨ s.cfg.winSize < 1 ∨ 256 ≤ s.cfg.winSize ∨ s.cfg.maxBuffer < 1 ∨
        2 ^ 32 - 1 < s.cfg.maxMsg)

/-- R85, R86: what each mnemonic presents to the unit its line names, byte for byte, the assembler supplying the length
fields; `ACK`, `DATA` and `TICK` present the very event of their expansions, whose packets have a tail of `0x00`; `RESET`
presents a reset; and what a line presents decodes, at the unit of its well-formed command, to that command. That a line may
name either unit is the model's reading of R76 and R82, and the bytes of a line whose byte string is longer than its length
field can say are the model's choice (log 18). -/
def Obligations.ScriptLinesPresentTheirCommands : Prop :=
  ∀ (c : Config) (u : UnitId), c.WF →
    (∀ m, ∃ m3 m2 m1 m0 : Byte, (Line.mk u (.sndMsg m)).assemble c = .command u ([0x01, m3, m2, m1, m0] ++ m.eval c) ∧
      ((m.eval c).length < 2 ^ 32 →
        m3.toNat * 2 ^ 24 + m2.toNat * 2 ^ 16 + m1.toNat * 2 ^ 8 + m0.toNat = (m.eval c).length)) ∧
    (∀ p, (Line.mk u (.sndAck p)).assemble c = .command u ([0x02] ++ p.eval c)) ∧
    (Line.mk u .sndTimeout).assemble c = .command u [0x03] ∧
    (∀ p, (Line.mk u (.rcvPkt p)).assemble c = .command u ([0x11] ++ p.eval c)) ∧
    (∀ d, ∃ n1 n0 : Byte, (Line.mk u (.ckSum d)).assemble c = .command u ([0x21, n1, n0] ++ d.eval c) ∧
      ((d.eval c).length < 2 ^ 16 → n1.toNat * 2 ^ 8 + n0.toNat = (d.eval c).length)) ∧
    (∀ p, (Line.mk u (.ckVerify p)).assemble c = .command u ([0x22] ++ p.eval c)) ∧
    (∀ n d, ∃ l : Byte, (Line.mk u (.pktEncode n d)).assemble c = .command u ([0x23, n, l] ++ d.eval c) ∧
      ((d.eval c).length < 2 ^ 8 → l.toNat = (d.eval c).length)) ∧
    (∀ n, (Line.mk u (.ack n)).assemble c = (Line.mk u (.sndAck (.pkt n (.hex [])))).assemble c ∧
      (Line.mk u (.ack n)).assemble c =
        .command u ([0x02, n, 0x00, 0xFF - n, 0xFF] ++ List.replicate (c.P - 4) 0x00)) ∧
    (∀ n d, (Line.mk u (.data n d)).assemble c = (Line.mk u (.rcvPkt (.pkt n d))).assemble c ∧
      ((d.eval c).length ≤ c.C →
        ∃ p, IsPacketOf c n (d.eval c) p ∧
          p.drop (4 + (d.eval c).length) = List.replicate (c.P - 4 - (d.eval c).length) 0x00 ∧
          (Line.mk u (.data n d)).assemble c = .command u ([0x11] ++ p))) ∧
    (Line.mk u .tick).assemble c = (Line.mk u .sndTimeout).assemble c ∧
    (Line.mk u .reset).assemble c = .reset u ∧
    (∀ w i, w.instr? c u = some i → i.wf c = true → i.unit = u →
      ∃ cmd, (Line.mk u w).assemble c = .command u cmd ∧ decode c u cmd = .ok i)

/-! ## The channel -/

/-- R213 (3) with rows C1 to C3 of R193, in the model's form (logs 16 and 19): right after reset, and right after a reset of
both units together, whatever was emitted before, the channel holds no packet, so an environment that keeps its duty
delivers none, and packets are numbered anew; a packet that a transaction emits afterwards may be delivered to the peer. Where the last joint reset stands
in the observation is the model's own field, and every step keeps it within it. -/
def Obligations.ChannelIsEmptyAfterJointReset : Prop :=
  (∀ (c : Config) (ev : Input), DutyC3 (State.resetOf c) ev → ev.delivery c = none) ∧
  (∀ (s : State) (rest : List Input), s.cfg.WF → s.inputs = .resetBoth :: rest →
    ∃ t, step s = .next t ∧ t.ChannelInv ∧ ∀ ev, DutyC3 t ev → ev.delivery t.cfg = none) ∧
  (∀ (i : Instr) (s t : State) (e : Entry) (p : Bytes) (ev : Input), s.EpochInv → exec i s = .next t →
    t.traceOf i.unit = s.traceOf i.unit ++ [e] → .pktOut p ∈ e.actions →
    ev.delivery t.cfg = some (peer i.unit, p) → DutyC3 t ev) ∧
  (∀ c : Config, (State.resetOf c).EpochInv) ∧
  (∀ s t : State, s.EpochInv → step s = .next t → t.EpochInv)
end

