-- ==== Sys2Proof/Laws/State.lean ====
section
/-! SUPPORT. What each named update does to each field of the state, true by unfolding, so that no later proof unfolds
a record update. -/

namespace Sys2Proof.Machine

/-! ## `emit` -/

@[simp] theorem SndTx.emit_out (t : SndTx) (a : Action) : (t.emit a).out = t.out ++ [a] := rfl
@[simp] theorem SndTx.emit_base (t : SndTx) (a : Action) : (t.emit a).u.base = t.u.base := rfl
@[simp] theorem SndTx.emit_nbp (t : SndTx) (a : Action) : (t.emit a).u.nbp = t.u.nbp := rfl
@[simp] theorem SndTx.emit_count (t : SndTx) (a : Action) : (t.emit a).u.count = t.u.count := rfl
@[simp] theorem SndTx.emit_nextSeq (t : SndTx) (a : Action) : (t.emit a).u.nextSeq = t.u.nextSeq := rfl
@[simp] theorem SndTx.emit_buf (t : SndTx) (a : Action) : (t.emit a).u.buf = t.u.buf := rfl
@[simp] theorem SndTx.emit_trace (t : SndTx) (a : Action) : (t.emit a).u.trace = t.u.trace := rfl
@[simp] theorem SndTx.emit_draws (t : SndTx) (a : Action) : (t.emit a).u.draws = t.u.draws := rfl
@[simp] theorem SndTx.emit_bufDraw (t : SndTx) (a : Action) : (t.emit a).u.bufDraw = t.u.bufDraw := rfl
@[simp] theorem SndTx.emit_tmrArmed (t : SndTx) (a : Action) : (t.emit a).u.tmrArmed = a.timer t.u.tmrArmed := rfl

@[simp] theorem Action.timer_pktOut (b : Bool) (p : Bytes) : (Action.pktOut p).timer b = b := rfl
@[simp] theorem Action.timer_timerStart (b : Bool) : Action.timerStart.timer b = true := rfl
@[simp] theorem Action.timer_timerStop (b : Bool) : Action.timerStop.timer b = false := rfl

/-! ## `advanceHead` and `freeBase` -/

@[simp] theorem advanceHead_out (c : Config) (t : SndTx) : (advanceHead c t).out = t.out := rfl
@[simp] theorem advanceHead_u (c : Config) (t : SndTx) :
    (advanceHead c t).u = { t.u with nbp := slotAdd c t.u.nbp 1, count := t.u.count + 1 } := rfl
@[simp] theorem freeBase_out (c : Config) (t : SndTx) : (freeBase c t).out = t.out := rfl
@[simp] theorem freeBase_u (c : Config) (t : SndTx) :
    (freeBase c t).u = { t.u with base := slotAdd c t.u.base 1, count := t.u.count - 1 } := rfl

/-! ## `record` -/

@[simp] theorem State.record_cfg (s : State) (u : UnitId) (e : Entry) : (s.record u e).cfg = s.cfg := by
  cases u <;> rfl
@[simp] theorem State.record_inputs (s : State) (u : UnitId) (e : Entry) : (s.record u e).inputs = s.inputs := by
  cases u <;> rfl
@[simp] theorem State.record_refusalMark (s : State) (u : UnitId) (e : Entry) :
    (s.record u e).refusalMark = s.refusalMark := by
  cases u <;> rfl
@[simp] theorem State.record_snd_rcv (s : State) (e : Entry) : (s.record .snd e).rcv = s.rcv := rfl
@[simp] theorem State.record_rcv_snd (s : State) (e : Entry) : (s.record .rcv e).snd = s.snd := rfl
@[simp] theorem State.record_snd_snd (s : State) (e : Entry) :
    (s.record .snd e).snd = { s.snd with trace := s.snd.trace ++ [e] } := rfl
@[simp] theorem State.record_rcv_rcv (s : State) (e : Entry) :
    (s.record .rcv e).rcv = { s.rcv with trace := s.rcv.trace ++ [e] } := rfl

/-! ## Reading bytes sees only the written bytes and the free contents of this reset -/

theorem Sender.byteAtAddr_congr {x y : Sender} (hb : x.buf = y.buf) (hd : x.bufDraw = y.bufDraw) (a : Nat) :
    x.byteAtAddr a = y.byteAtAddr a := by
  simp [Sender.byteAtAddr, Sender.unwritten, hb, hd]

theorem Sender.slotBytes_congr {x y : Sender} (hb : x.buf = y.buf) (hd : x.bufDraw = y.bufDraw) (c : Config)
    (s n : Nat) : x.slotBytes c s n = y.slotBytes c s n := by
  simp [Sender.slotBytes, Sender.byteAtAddr_congr hb hd]

@[simp] theorem SndTx.emit_slotBytes (t : SndTx) (a : Action) (c : Config) (s n : Nat) :
    (t.emit a).u.slotBytes c s n = t.u.slotBytes c s n := rfl

@[simp] theorem Sender.slotBytes_length (x : Sender) (c : Config) (s n : Nat) : (x.slotBytes c s n).length = n := by
  simp [Sender.slotBytes]

/-! ## Reset -/

@[simp] theorem State.resetUnit_cfg (s : State) (u : UnitId) : (s.resetUnit u).cfg = s.cfg := by
  cases u <;> rfl
@[simp] theorem State.resetUnit_inputs (s : State) (u : UnitId) : (s.resetUnit u).inputs = s.inputs := by
  cases u <;> rfl
@[simp] theorem State.resetUnit_refusalMark (s : State) (u : UnitId) :
    (s.resetUnit u).refusalMark = s.refusalMark := by
  cases u <;> rfl
@[simp] theorem State.resetUnit_snd_rcv (s : State) : (s.resetUnit .snd).rcv = s.rcv := rfl
@[simp] theorem State.resetUnit_rcv_snd (s : State) : (s.resetUnit .rcv).snd = s.snd := rfl
@[simp] theorem State.resetUnit_snd_snd (s : State) : (s.resetUnit .snd).snd = s.snd.resetUnit s.cfg := rfl
@[simp] theorem State.resetUnit_rcv_rcv (s : State) : (s.resetUnit .rcv).rcv = s.rcv.resetUnit := rfl
@[simp] theorem State.resetUnit_epoch (s : State) (u : UnitId) : (s.resetUnit u).epoch = s.epoch := by
  cases u <;> rfl
@[simp] theorem State.resetUnit_traceOf (s : State) (u v : UnitId) : (s.resetUnit u).traceOf v = s.traceOf v := by
  cases u <;> cases v <;> rfl

@[simp] theorem State.resetTogether_cfg (s : State) : s.resetTogether.cfg = s.cfg := rfl
@[simp] theorem State.resetTogether_inputs (s : State) : s.resetTogether.inputs = s.inputs := rfl
@[simp] theorem State.resetTogether_refusalMark (s : State) : s.resetTogether.refusalMark = s.refusalMark := rfl
@[simp] theorem State.resetTogether_snd (s : State) : s.resetTogether.snd = s.snd.resetUnit s.cfg := rfl
@[simp] theorem State.resetTogether_rcv (s : State) : s.resetTogether.rcv = s.rcv.resetUnit := rfl
@[simp] theorem State.resetTogether_epoch (s : State) :
    s.resetTogether.epoch = { snd := s.snd.trace.length, rcv := s.rcv.trace.length } := rfl

/-- Nothing has been observed since a joint reset (R213). -/
@[simp] theorem State.resetTogether_sinceReset (s : State) (u : UnitId) : s.resetTogether.sinceReset u = [] := by
  cases u <;> exact List.drop_length

/-! ## What has been observed since the last joint reset -/

@[simp] theorem State.record_epoch (s : State) (u : UnitId) (e : Entry) : (s.record u e).epoch = s.epoch := by
  cases u <;> rfl

/-- An observation that grows by one entry grows by it since the joint reset. -/
theorem State.sinceReset_append {s t : State} {u : UnitId} {e : Entry} (hs : s.EpochInv) (he : t.epoch = s.epoch)
    (ht : t.traceOf u = s.traceOf u ++ [e]) : t.sinceReset u = s.sinceReset u ++ [e] := by
  simp only [State.sinceReset, he, ht]
  exact List.drop_append_of_le_length (hs u)

end Sys2Proof.Machine
end

