-- ==== Sys2Proof/Laws/Memory.lean ====
section
/-! SUPPORT. The laws of the buffer: every write keeps the canonical form, a read after a write to the same byte gives
the byte written, and a write leaves every other byte alone; then the same for whole slots. -/

namespace Sys2Proof.Machine

/-! ## The canonical form -/

theorem Memory.wf_cons {x : Host.Cell} {m : Memory} :
    Memory.wf (x :: m) = true ↔ (∀ y ∈ m.head?, x.1 < y.1) ∧ Memory.wf m = true := by
  cases m with
  | nil => simp [Memory.wf]
  | cons y rest => simp [Memory.wf]

theorem Memory.head_set {m : Memory} {a : Nat} {b : Byte} {y : Host.Cell} (h : y ∈ (Memory.set m a b).head?) :
    y.1 = a ∨ ∃ z ∈ m.head?, y.1 = z.1 := by
  cases m with
  | nil => simp only [Memory.set, List.head?_cons, Option.mem_def, Option.some.injEq] at h; subst h; exact .inl rfl
  | cons x rest =>
    simp only [Memory.set] at h
    split at h
    · simp at h; subst h; exact .inl rfl
    · split at h <;> (simp at h; subst h)
      · exact .inl rfl
      · exact .inr ⟨x, by simp, rfl⟩

theorem Memory.wf_set {m : Memory} (h : m.wf = true) (a : Nat) (b : Byte) : (m.set a b).wf = true := by
  induction m with
  | nil => rfl
  | cons x rest ih =>
    obtain ⟨hx, hr⟩ := Memory.wf_cons.mp h
    simp only [Memory.set]
    split
    · exact Memory.wf_cons.mpr ⟨by simpa using ‹a < x.1›, h⟩
    · split
      · rename_i heq; subst heq; exact Memory.wf_cons.mpr ⟨hx, hr⟩
      · refine Memory.wf_cons.mpr ⟨fun y hy => ?_, ih hr⟩
        obtain hya | ⟨z, hz, hyz⟩ := Memory.head_set hy
        · omega
        · exact hyz ▸ hx z hz

theorem Memory.wf_setBytes {m : Memory} (h : m.wf = true) (a : Nat) (bs : Bytes) : (m.setBytes a bs).wf = true := by
  induction bs generalizing m a with
  | nil => exact h
  | cons b bs ih => exact ih (Memory.wf_set h a b) (a + 1)

/-! ## Which addresses are listed -/

theorem Memory.mem_set {m : Memory} {a : Nat} {b : Byte} {y : Host.Cell} (h : y ∈ m.set a b) : y.1 = a ∨ y ∈ m := by
  induction m with
  | nil => simp only [Memory.set, List.mem_singleton] at h; subst h; exact .inl rfl
  | cons x rest ih =>
    simp only [Memory.set] at h
    split at h
    · rcases List.mem_cons.mp h with rfl | h
      · exact .inl rfl
      · exact .inr h
    · split at h
      · rcases List.mem_cons.mp h with rfl | h
        · exact .inl rfl
        · exact .inr (List.mem_cons_of_mem _ h)
      · rcases List.mem_cons.mp h with rfl | h
        · exact .inr (by simp)
        · exact (ih h).imp id (List.mem_cons_of_mem _)

theorem Memory.mem_setBytes {m : Memory} {a : Nat} {bs : Bytes} {y : Host.Cell} (h : y ∈ m.setBytes a bs) :
    (a ≤ y.1 ∧ y.1 < a + bs.length) ∨ y ∈ m := by
  induction bs generalizing m a with
  | nil => exact .inr h
  | cons b bs ih =>
    obtain ⟨h1, h2⟩ | h := ih h
    · exact .inl ⟨by omega, by simp only [List.length_cons]; omega⟩
    · rcases Memory.mem_set h with h | h
      · exact .inl ⟨by omega, by simp only [List.length_cons]; omega⟩
      · exact .inr h

/-! ## Read after write -/

theorem Memory.get?_set_self (m : Memory) (a : Nat) (b : Byte) : (m.set a b).get? a = some b := by
  induction m with
  | nil => simp [Memory.set, Memory.get?]
  | cons x rest ih =>
    simp only [Memory.set]
    split
    · simp [Memory.get?]
    · split
      · simp [Memory.get?]
      · rename_i hne; simp [Memory.get?, hne, ih]

theorem Memory.get?_set_ne {m : Memory} {a a' : Nat} (b : Byte) (h : a' ≠ a) :
    (m.set a b).get? a' = m.get? a' := by
  induction m with
  | nil => simp [Memory.set, Memory.get?, Ne.symm h]
  | cons x rest ih =>
    simp only [Memory.set]
    split
    · simp [Memory.get?, Ne.symm h]
    · split
      · rename_i heq; subst heq; simp [Memory.get?, Ne.symm h]
      · simp only [Memory.get?, ih]

theorem Memory.get?_setBytes_outside {m : Memory} {a a' : Nat} {bs : Bytes} (h : a' < a ∨ a + bs.length ≤ a') :
    (m.setBytes a bs).get? a' = m.get? a' := by
  induction bs generalizing m a with
  | nil => rfl
  | cons b bs ih =>
    simp only [List.length_cons] at h
    rw [Memory.setBytes, ih (by omega), Memory.get?_set_ne b (by omega)]

theorem Memory.get?_setBytes_inside {m : Memory} {a i : Nat} {bs : Bytes} (h : i < bs.length) :
    (m.setBytes a bs).get? (a + i) = some bs[i] := by
  induction bs generalizing m a i with
  | nil => simp at h
  | cons b bs ih =>
    cases i with
    | zero =>
      show ((m.set a b).setBytes (a + 1) bs).get? a = some b
      rw [Memory.get?_setBytes_outside (by omega), Memory.get?_set_self]
    | succ i =>
      have := ih (m := m.set a b) (a := a + 1) (i := i) (by simpa using h)
      rw [Memory.setBytes, show a + (i + 1) = a + 1 + i by omega, this]
      rfl

/-! ## Slots -/

theorem slotAdd_lt {c : Config} (h : 1 ≤ c.maxBuffer) (i k : Nat) : slotAdd c i k < c.maxBuffer :=
  Nat.mod_lt _ (by omega)

/-- Bytes of different slots have different addresses. -/
theorem slotAddr_ne {c : Config} {s s' o o' : Nat} (ho : o < c.P) (ho' : o' < c.P) (h : s ≠ s') :
    slotAddr c s o ≠ slotAddr c s' o' := by
  intro e
  have h1 : (s * c.P + o) / c.P = s := by
    rw [Nat.mul_comm, Nat.mul_add_div (by omega), Nat.div_eq_of_lt ho, Nat.add_zero]
  have h2 : (s' * c.P + o') / c.P = s' := by
    rw [Nat.mul_comm, Nat.mul_add_div (by omega), Nat.div_eq_of_lt ho', Nat.add_zero]
  simp only [slotAddr] at e
  exact h (h1 ▸ h2 ▸ by rw [e])

/-- A buffer write as an address range. -/
theorem Sender.byteAtAddr_write_inside (x : Sender) (a : Nat) (v : Bytes) {i : Nat} (h : i < v.length) :
    ({ x with buf := x.buf.setBytes a v } : Sender).byteAtAddr (a + i) = v[i] := by
  simp [Sender.byteAtAddr, Memory.get?_setBytes_inside h]

theorem Sender.byteAtAddr_write_outside (x : Sender) {a a' : Nat} {v : Bytes} (h : a' < a ∨ a + v.length ≤ a') :
    ({ x with buf := x.buf.setBytes a v } : Sender).byteAtAddr a' = x.byteAtAddr a' := by
  simp only [Sender.byteAtAddr, Sender.unwritten, Memory.get?_setBytes_outside h]

/-- A slot reads as the packet written to it. -/
theorem Sender.slotBytes_write_self {c : Config} (x : Sender) (s : Nat) {v : Bytes} (h : v.length = c.P) :
    ({ x with buf := x.buf.setBytes (slotAddr c s 0) v } : Sender).slotBytes c s c.P = v := by
  apply List.ext_getElem
  · simp [h]
  · intro i h1 h2
    have := Sender.byteAtAddr_write_inside x (slotAddr c s 0) v h2
    simpa [Sender.slotBytes, slotAddr] using this

/-- A write to one slot leaves every other slot alone. -/
theorem Sender.slotBytes_write_ne {c : Config} (x : Sender) {s s' n : Nat} {v : Bytes} (h : v.length = c.P)
    (hn : n ≤ c.P) (hs : s' ≠ s) :
    ({ x with buf := x.buf.setBytes (slotAddr c s 0) v } : Sender).slotBytes c s' n = x.slotBytes c s' n := by
  apply List.ext_getElem
  · simp
  · intro i h1 h2
    have hi : i < n := by simpa using h2
    have : slotAddr c s' i < slotAddr c s 0 ∨ slotAddr c s 0 + v.length ≤ slotAddr c s' i := by
      simp only [slotAddr, Nat.add_zero, h]
      rcases Nat.lt_or_gt_of_ne hs with hl | hl
      · left
        have := Nat.mul_le_mul_right c.P (show s' + 1 ≤ s from hl)
        rw [Nat.add_mul] at this
        omega
      · right
        have := Nat.mul_le_mul_right c.P (show s + 1 ≤ s' from hl)
        rw [Nat.add_mul] at this
        omega
    simpa [Sender.slotBytes] using Sender.byteAtAddr_write_outside x this

/-- Everything `MemRead` does. -/
theorem memRead_ok {c : Config} (x : Sender) {s : Nat} (n : Nat) (h : s < c.maxBuffer) :
    memRead c x s n = .ok (x.slotBytes c s n) := by
  simp [memRead, h]

/-- Everything `MemWrite` does. -/
theorem memWrite_ok {c : Config} (x : Sender) {s : Nat} {v : Bytes} (h : s < c.maxBuffer) (hv : v.length = c.P) :
    memWrite c x s v = .ok { x with buf := x.buf.setBytes (slotAddr c s 0) v } := by
  simp [memWrite, h, hv]

theorem memWrite_inv {c : Config} {x y : Sender} {s : Nat} {v : Bytes} (h : memWrite c x s v = .ok y) :
    s < c.maxBuffer ∧ v.length = c.P ∧ y = { x with buf := x.buf.setBytes (slotAddr c s 0) v } := by
  unfold memWrite at h
  split at h
  · rename_i hc; cases h; exact ⟨hc.1, hc.2, rfl⟩
  · cases h

/-- Every buffer write keeps the canonical form and the address range. -/
theorem memWrite_keeps_bufInv {c : Config} {x y : Sender} {s : Nat} {v : Bytes} (h : memWrite c x s v = .ok y)
    (hi : x.BufInv c) : y.BufInv c := by
  obtain ⟨hs, hv, rfl⟩ := memWrite_inv h
  refine ⟨Memory.wf_setBytes hi.1 _ _, fun cell hc => ?_⟩
  rcases Memory.mem_setBytes hc with ⟨_, h2⟩ | hc
  · have := Nat.mul_le_mul_right c.P (show s + 1 ≤ c.maxBuffer from hs)
    rw [Nat.add_mul] at this
    simp only [slotAddr, Nat.add_zero] at h2
    omega
  · exact hi.2 cell hc

end Sys2Proof.Machine
end

