-- ==== Sys2Proof/Laws/Codec.lean ====
section
/-! SUPPORT. The laws of the codec: the length and the fields of a built packet, and one step of the one's-complement
sum in ordinary arithmetic. -/

namespace Sys2Proof.Machine

/-! ## Bytes of numbers -/

theorem byteOf_zero_toNat {n : Nat} (h : n < 2 ^ 8) : (byteOf n 0).toNat = n := by
  simp [byteOf]; omega

theorem be16_byteOf {n : Nat} (h : n < 2 ^ 16) : be16 (byteOf n 1) (byteOf n 0) = n := by
  simp [be16, byteOf]; omega

theorem be32_byteOf {n : Nat} (h : n < 2 ^ 32) : be32 (byteOf n 3) (byteOf n 2) (byteOf n 1) (byteOf n 0) = n := by
  simp [be32, byteOf]; omega

theorem beWord_toNat (hi lo : Byte) : (beWord hi lo).toNat = hi.toNat * 256 + lo.toNat := by
  have h := Nat.two_pow_add_eq_or_of_lt (i := 8) lo.isLt hi.toNat
  simp only [beWord, BitVec.toNat_append, Nat.shiftLeft_eq]
  rw [Nat.mul_comm, ← h]

theorem hiByte_toNat (w : Word16) : (hiByte w).toNat = w.toNat / 256 := by
  have := w.isLt
  simp only [hiByte, BitVec.extractLsb'_toNat, Nat.shiftRight_eq_div_pow]
  omega

theorem loByte_toNat (w : Word16) : (loByte w).toNat = w.toNat % 256 := by
  simp [loByte, BitVec.extractLsb'_toNat]

theorem beWord_hi_lo (w : Word16) : beWord (hiByte w) (loByte w) = w := by
  apply BitVec.eq_of_toNat_eq
  rw [beWord_toNat, hiByte_toNat, loByte_toNat]
  omega

/-! ## The built packet -/

theorem Config.capacity_bounds {c : Config} (h : c.WF) : 1 ≤ c.C ∧ c.C ≤ 255 ∧ c.C + 4 = c.P := by
  obtain ⟨h1, h2, -⟩ := h
  simp only [Config.C]
  omega

theorem buildPacket_length (seq : Byte) (d tail : Bytes) :
    (buildPacket seq d tail).length = 4 + d.length + tail.length := by
  simp [buildPacket]; omega

theorem buildPacket_length_P {c : Config} (hc : c.WF) (seq : Byte) {d tail : Bytes} (hd : d.length ≤ c.C)
    (ht : tail.length = tailLength c d) : (buildPacket seq d tail).length = c.P := by
  have := Config.capacity_bounds hc
  rw [buildPacket_length, ht, tailLength]
  omega

theorem IsPacketOf.length {c : Config} (hc : c.WF) {seq : Byte} {d p : Bytes} (h : IsPacketOf c seq d p) :
    p.length = c.P := by
  obtain ⟨hd, tail, ht, rfl⟩ := h
  exact buildPacket_length_P hc seq hd ht

@[simp] theorem byteAt_buildPacket_zero (seq : Byte) (d tail : Bytes) : byteAt (buildPacket seq d tail) 0 = seq := rfl

@[simp] theorem pktSeq_buildPacket (seq : Byte) (d tail : Bytes) : pktSeq (buildPacket seq d tail) = seq := rfl

theorem pktLen_buildPacket (seq : Byte) {d : Bytes} (tail : Bytes) (hd : d.length < 2 ^ 8) :
    pktLen (buildPacket seq d tail) = d.length := byteOf_zero_toNat hd

theorem pktPayload_buildPacket (seq : Byte) {d : Bytes} (tail : Bytes) (hd : d.length < 2 ^ 8) :
    pktPayload (buildPacket seq d tail) = d := by
  rw [pktPayload, pktLen_buildPacket seq tail hd]
  simp [slice, buildPacket]

theorem pktRegion_buildPacket (seq : Byte) {d : Bytes} (tail : Bytes) (hd : d.length < 2 ^ 8) :
    pktRegion (buildPacket seq d tail) =
      [seq, byteOf d.length 0, hiByte (checksum (zeroedRegion seq d)), loByte (checksum (zeroedRegion seq d))] ++ d := by
  rw [pktRegion, pktLen_buildPacket seq tail hd]
  have : 4 + d.length - 0 = d.length + 1 + 1 + 1 + 1 := by omega
  simp [slice, buildPacket, this]

@[simp] theorem drawBytes_length (f : Nat → Byte) (k n : Nat) : (drawBytes f k n).length = n := by
  simp [drawBytes]

/-! ## One step of the sum -/

/-- End-around carry in ordinary arithmetic (R100): the sum, less `0xFFFF` where it does not fit 16 bits. -/
theorem onesAdd_toNat (s w : Word16) :
    (onesAdd s w).toNat = if s.toNat + w.toNat < 2 ^ 16 then s.toNat + w.toNat else s.toNat + w.toNat - (2 ^ 16 - 1) := by
  have h1 := s.isLt
  have h2 := w.isLt
  simp only [onesAdd, BitVec.toNat_add, BitVec.extractLsb'_toNat, BitVec.toNat_setWidth, Nat.shiftRight_eq_div_pow]
  split <;> omega

theorem sumWords_append (ws : List Word16) (w : Word16) : sumWords (ws ++ [w]) = onesAdd (sumWords ws) w := by
  simp [sumWords]

/-! ## Segmentation -/

theorem chunks_length (c : Config) (msg : Bytes) : (chunks c msg).length = chunkCount c msg := by
  simp [chunks]

theorem chunk_length_le (c : Config) (msg : Bytes) (j : Nat) : (chunk c msg j).length ≤ c.C := by
  simp only [chunk, slice, List.length_take, List.length_drop, Nat.add_mul]
  omega

theorem mem_chunks_length {c : Config} {msg d : Bytes} (h : d ∈ chunks c msg) : d.length ≤ c.C := by
  simp only [chunks, List.mem_map] at h
  obtain ⟨j, -, rfl⟩ := h
  exact chunk_length_le c msg j

end Sys2Proof.Machine
end

