-- ==== Sys2Proof/Laws/Sending.lean ====
section
/-! SUPPORT. Once for each shared operation of the sender, everything it can do: store a chunk, store chunks until the
buffer is full, free slots and transmit what enters the window, retransmit the window. -/

namespace Sys2Proof.Machine

/-! ## Index arithmetic -/

theorem slotAdd_slotAdd (c : Config) (i j k : Nat) : slotAdd c (slotAdd c i j) k = slotAdd c i (j + k) := by
  simp [slotAdd, Nat.add_assoc]

theorem slotAdd_zero {c : Config} {i : Nat} (h : i < c.maxBuffer) : slotAdd c i 0 = i := Nat.mod_eq_of_lt h

/-- Different distances below `MAX_BUFFER` lead to different slots. -/
theorem slotAdd_inj {c : Config} {i j k : Nat} (hj : j < c.maxBuffer) (hk : k < c.maxBuffer)
    (h : slotAdd c i j = slotAdd c i k) : j = k := by
  have h' : (i + j) % c.maxBuffer = (i + k) % c.maxBuffer := h
  have : j % c.maxBuffer = k % c.maxBuffer := Nat.ModEq.add_left_cancel' i h'
  rwa [Nat.mod_eq_of_lt hj, Nat.mod_eq_of_lt hk] at this

/-! ## Storing one chunk -/

/-- The packet `storeChunk` builds. -/
def storedPacket (c : Config) (t : SndTx) (d : Bytes) : Bytes :=
  buildPacket t.u.nextSeq d (drawBytes Config.sndTail t.u.draws (tailLength c d))

/-- The actions of storing a packet when `count` packets are stored before it (R126, R127). -/
def storeActions (c : Config) (count : Nat) (p : Bytes) : List Action :=
  if count < c.winSize then (if count = 0 then [.pktOut p, .timerStart] else [.pktOut p]) else []

theorem transmitStored_eq (c : Config) (t : SndTx) (p : Bytes) (hw : 1 ≤ c.winSize) :
    transmitStored c t p =
      { u := { t.u with tmrArmed := if t.u.count = 0 then true else t.u.tmrArmed }
        out := t.out ++ storeActions c t.u.count p } := by
  unfold transmitStored storeActions inWindow
  by_cases h0 : t.u.count = 0
  · have : 0 < c.winSize := by omega
    simp [h0, this, SndTx.emit, Action.timer]
  · by_cases hw' : t.u.count < c.winSize <;> simp [h0, hw', SndTx.emit, Action.timer]

/-- Everything `storeChunk` does where the buffer has the slot. -/
theorem storeChunk_ok {c : Config} (hc : c.WF) {t : SndTx} {d : Bytes} (hn : t.u.nbp < c.maxBuffer)
    (hd : d.length ≤ c.C) :
    storeChunk c t d = .ok
      { u := { t.u with
          nextSeq := t.u.nextSeq + 1
          draws := t.u.draws + tailLength c d
          buf := t.u.buf.setBytes (slotAddr c t.u.nbp 0) (storedPacket c t d)
          tmrArmed := if t.u.count = 0 then true else t.u.tmrArmed
          nbp := slotAdd c t.u.nbp 1
          count := t.u.count + 1 }
        out := t.out ++ storeActions c t.u.count (storedPacket c t d) } := by
  have hlen : (storedPacket c t d).length = c.P := buildPacket_length_P hc _ hd (by simp)
  simp only [storedPacket] at hlen ⊢
  simp only [storeChunk, Sender.encodePkt]
  rw [memWrite_ok _ hn hlen]
  simp only [transmitStored_eq c _ _ hc.2.2.1, seqNext]
  rfl

theorem storedPacket_isPacketOf {c : Config} {t : SndTx} {d : Bytes} (hd : d.length ≤ c.C) :
    IsPacketOf c t.u.nextSeq d (storedPacket c t d) :=
  ⟨hd, drawBytes Config.sndTail t.u.draws (tailLength c d), by simp, rfl⟩

/-! ## Storing chunks -/

/-- What storing the first `n` chunks of `ds` does to the sender: `t` before, `t'` after. -/
structure Stored (c : Config) (ds : List Bytes) (n : Nat) (t t' : SndTx) : Prop where
  base : t'.u.base = t.u.base
  nbp : t'.u.nbp = slotAdd c t.u.nbp n
  count : t'.u.count = t.u.count + n
  nextSeq : t'.u.nextSeq = t.u.nextSeq + BitVec.ofNat 8 n
  tmrArmed : t'.u.tmrArmed = if t.u.count = 0 ∧ 0 < n then true else t.u.tmrArmed
  trace : t'.u.trace = t.u.trace
  bufDraw : t'.u.bufDraw = t.u.bufDraw
  bufInv : t.u.BufInv c → t'.u.BufInv c
  packets : ∀ j d, j < n → ds[j]? = some d →
    IsPacketOf c (t.u.nextSeq + BitVec.ofNat 8 j) d (t'.u.slotBytes c (slotAdd c t.u.nbp j) c.P)
  others : ∀ s k, k ≤ c.P → (∀ j, j < n → s ≠ slotAdd c t.u.nbp j) → t'.u.slotBytes c s k = t.u.slotBytes c s k
  out : t'.out = t.out ++
    (List.range n).flatMap fun j =>
      storeActions c (t.u.count + j) (t'.u.slotBytes c (slotAdd c t.u.nbp j) c.P)

theorem Stored.none {c : Config} {ds : List Bytes} {t : SndTx} (hn : t.u.nbp < c.maxBuffer) : Stored c ds 0 t t where
  base := rfl
  nbp := (slotAdd_zero hn).symm
  count := rfl
  nextSeq := by simp
  tmrArmed := by simp
  trace := rfl
  bufDraw := rfl
  bufInv := id
  packets := by intro j d h; omega
  others := by intros; rfl
  out := by simp

/-- One more chunk in front of what storing the rest does. -/
theorem Stored.cons {c : Config} (hc : c.WF) {d : Bytes} {ds : List Bytes} {n : Nat} {t t1 t' : SndTx}
    (hn : t.u.nbp < c.maxBuffer) (hd : d.length ≤ c.C) (hroom : n + 1 ≤ c.maxBuffer)
    (h1 : storeChunk c t d = .ok t1) (h : Stored c ds n t1 t') : Stored c (d :: ds) (n + 1) t t' := by
  have hlen : (storedPacket c t d).length = c.P := buildPacket_length_P hc _ hd (by simp)
  rw [storeChunk_ok hc hn hd] at h1
  injection h1 with h1
  have hself : t1.u.slotBytes c t.u.nbp c.P = storedPacket c t d := by
    subst h1
    exact Sender.slotBytes_write_self { t.u with nextSeq := _, draws := _, tmrArmed := _, nbp := _, count := _ } _ hlen
  have hother : ∀ s k, k ≤ c.P → s ≠ t.u.nbp → t1.u.slotBytes c s k = t.u.slotBytes c s k := by
    intro s k hk hs
    subst h1
    exact Sender.slotBytes_write_ne { t.u with nextSeq := _, draws := _, tmrArmed := _, nbp := _, count := _ } hlen hk hs
  have hnbp : t1.u.nbp = slotAdd c t.u.nbp 1 := by subst h1; rfl
  have hstep : ∀ j, slotAdd c t1.u.nbp j = slotAdd c t.u.nbp (j + 1) := by
    intro j; rw [hnbp, slotAdd_slotAdd, Nat.add_comm]
  have hfirst : t'.u.slotBytes c (slotAdd c t.u.nbp 0) c.P = storedPacket c t d := by
    rw [slotAdd_zero hn, h.others _ _ (Nat.le_refl _), hself]
    intro j hj
    rw [hstep]
    intro heq
    have := slotAdd_inj (c := c) (i := t.u.nbp) (j := 0) (k := j + 1) (by omega) (by omega) (by rw [slotAdd_zero hn]; exact heq)
    omega
  refine ⟨?_, ?_, ?_, ?_, ?_, ?_, ?_, ?_, ?_, ?_, ?_⟩
  · rw [h.base]; subst h1; rfl
  · rw [h.nbp, hstep]
  · rw [h.count]; subst h1; simp only; omega
  · rw [h.nextSeq]; subst h1
    have : BitVec.ofNat 8 (n + 1) = BitVec.ofNat 8 n + 1 := BitVec.ofNat_add n 1
    simp only [this]
    rw [BitVec.add_comm (BitVec.ofNat 8 n), ← BitVec.add_assoc]
  · rw [h.tmrArmed]; subst h1
    by_cases h0 : t.u.count = 0 <;> simp [h0]
  · rw [h.trace]; subst h1; rfl
  · rw [h.bufDraw]; subst h1; rfl
  · intro hb
    refine h.bufInv ?_
    have hw := memWrite_keeps_bufInv (memWrite_ok t.u hn hlen) hb
    subst h1
    exact hw
  · intro j e hj he
    cases j with
    | zero =>
      simp only [List.getElem?_cons_zero, Option.some.injEq] at he
      subst he
      rw [hfirst]
      simpa using storedPacket_isPacketOf (t := t) hd
    | succ j =>
      have := h.packets j e (by omega) (by simpa using he)
      rw [hstep] at this
      have hseq : t1.u.nextSeq + BitVec.ofNat 8 j = t.u.nextSeq + BitVec.ofNat 8 (j + 1) := by
        subst h1
        have : BitVec.ofNat 8 (j + 1) = BitVec.ofNat 8 j + 1 := BitVec.ofNat_add j 1
        simp only [this]
        rw [BitVec.add_comm (BitVec.ofNat 8 j), ← BitVec.add_assoc]
      rwa [hseq] at this
  · intro s k hk hs
    rw [h.others s k hk (fun j hj => hstep j ▸ hs (j + 1) (by omega)), hother s k hk]
    have := hs 0 (by omega)
    rwa [slotAdd_zero hn] at this
  · rw [h.out, List.range_succ_eq_map, List.flatMap_cons, List.flatMap_map]
    simp only [hstep, hfirst, Nat.add_zero]
    have hout : t1.out = t.out ++ storeActions c t.u.count (storedPacket c t d) := by subst h1; rfl
    have hcount : ∀ j, t1.u.count + j = t.u.count + (j + 1) := by intro j; subst h1; simp only; omega
    rw [hout, List.append_assoc]
    simp only [hcount, Nat.succ_eq_add_one]

/-- Everything `storeChunks` does: it stores as many chunks as there are and as fit (R123). -/
theorem storeChunks_ok {c : Config} (hc : c.WF) {ds : List Bytes} (hds : ∀ d ∈ ds, d.length ≤ c.C) {t : SndTx}
    (hn : t.u.nbp < c.maxBuffer) (hk : t.u.count ≤ c.maxBuffer) :
    ∃ t', storeChunks c ds t = .ok (t', min ds.length (c.maxBuffer - t.u.count)) ∧
      Stored c ds (min ds.length (c.maxBuffer - t.u.count)) t t' := by
  induction ds generalizing t with
  | nil => exact ⟨t, by simp [storeChunks], by simpa using Stored.none hn⟩
  | cons d ds ih =>
    by_cases hfull : t.u.count = c.maxBuffer
    · refine ⟨t, by simp [storeChunks, hfull], ?_⟩
      have : min (d :: ds).length (c.maxBuffer - t.u.count) = 0 := by omega
      rw [this]
      exact Stored.none hn
    · have hd := hds d (by simp)
      obtain ⟨t1, h1⟩ : ∃ t1, storeChunk c t d = .ok t1 := ⟨_, storeChunk_ok hc hn hd⟩
      have h1' := h1
      rw [storeChunk_ok hc hn hd] at h1'
      injection h1' with h1'
      have hc1 : t1.u.count = t.u.count + 1 := by subst h1'; rfl
      have hn1 : t1.u.nbp < c.maxBuffer := by subst h1'; exact slotAdd_lt (by omega) _ _
      obtain ⟨t', h', hst⟩ := ih (fun e he => hds e (by simp [he])) hn1 (by omega)
      have hmin : min (d :: ds).length (c.maxBuffer - t.u.count)
          = min ds.length (c.maxBuffer - t1.u.count) + 1 := by
        simp only [List.length_cons, hc1]; omega
      refine ⟨t', ?_, ?_⟩
      · simp only [storeChunks, hfull, if_false, h1, h', hmin]
      · rw [hmin]
        exact Stored.cons hc hn hd (by omega) h1 hst

/-! ## Transmitting stored packets -/

theorem transmitSlot_ok {c : Config} {t : SndTx} {s : Nat} (h : s < c.maxBuffer) :
    transmitSlot c t s = .ok (t.emit (.pktOut (t.u.slotBytes c s c.P))) := by
  simp [transmitSlot, memRead_ok _ _ h]

/-- Everything `transmitWindow` does. -/
theorem transmitWindow_ok {c : Config} (hb : 1 ≤ c.maxBuffer) (is : List Nat) (t : SndTx) :
    transmitWindow c is t =
      .ok { u := t.u, out := t.out ++ is.map fun i => .pktOut (t.u.packetAt c i) } := by
  induction is generalizing t with
  | nil => simp [transmitWindow]
  | cons i is ih =>
    simp only [transmitWindow, transmitSlot_ok (slotAdd_lt hb _ _), ih]
    simp [SndTx.emit, Sender.packetAt]

/-- What enters the window when `n` slots are freed: the old window positions `WIN_SIZE` to `WIN_SIZE + n - 1` that
hold a packet (R133). -/
def enteringPositions (c : Config) (count n : Nat) : List Nat :=
  (List.range' c.winSize n).filter fun i => decide (i < count)

theorem enteringPositions_succ {c : Config} {count n : Nat} (h : 1 ≤ count) :
    enteringPositions c count (n + 1) =
      (if c.winSize < count then [c.winSize] else []) ++ (enteringPositions c (count - 1) n).map (· + 1) := by
  have hr : List.range' (c.winSize + 1) n = (List.range' c.winSize n).map (· + 1) := by
    simpa [Nat.add_comm] using (List.map_add_range' (a := 1) c.winSize n 1).symm
  have hf : ∀ i, decide (i + 1 < count) = decide (i < count - 1) := by intro i; congr 1; apply propext; omega
  simp only [enteringPositions, List.range'_succ, List.filter_cons]
  rw [hr, List.filter_map]
  simp only [Function.comp_def, hf, decide_eq_true_eq]
  split <;> rfl

/-- Everything `slide` does (R132, R133). -/
theorem slide_ok {c : Config} (hc : c.WF) {n : Nat} {t : SndTx} (hn : n ≤ t.u.count) (hb : t.u.base < c.maxBuffer) :
    slide c n t = .ok
      { u := { t.u with base := slotAdd c t.u.base n, count := t.u.count - n }
        out := t.out ++ (enteringPositions c t.u.count n).map fun i => .pktOut (t.u.packetAt c i) } := by
  obtain ⟨-, -, hw, -, hm, -⟩ := hc
  induction n generalizing t with
  | zero => simp [slide, enteringPositions, slotAdd_zero hb]
  | succ n ih =>
    have hpos : ∀ i, slotAdd c (slotAdd c t.u.base 1) i = slotAdd c t.u.base (i + 1) := by
      intro i; rw [slotAdd_slotAdd, Nat.add_comm]
    have hpkt : ∀ (x : Sender) i, x.buf = t.u.buf → x.bufDraw = t.u.bufDraw → x.base = slotAdd c t.u.base 1 →
        x.packetAt c i = t.u.packetAt c (i + 1) := by
      intro x i h1 h2 h3
      rw [Sender.packetAt, h3, hpos, Sender.packetAt]
      exact Sender.slotBytes_congr h1 h2 _ _ _
    have hedge : trailingEdgeHeld c (t.u.count - 1) = decide (c.winSize < t.u.count) := by
      simp only [trailingEdgeHeld]; congr 1; apply propext; omega
    have hcnt : t.u.count - 1 - n = t.u.count - (n + 1) := by omega
    have hwin : c.winSize - 1 + 1 = c.winSize := by omega
    rw [enteringPositions_succ (by omega)]
    simp only [slide, slideOne, freeBase_u, hedge]
    by_cases hlt : c.winSize < t.u.count
    · simp only [hlt, decide_true, if_true, transmitSlot_ok (slotAdd_lt hm _ _)]
      rw [ih (t := SndTx.emit (freeBase c t) _) (by simp; omega) (by simpa using slotAdd_lt hm _ _)]
      simp only [SndTx.emit, freeBase, Action.timer, hpos, hcnt, hwin]
      simp only [List.map_append, List.map_map, List.map_cons, List.map_nil, List.append_assoc, Function.comp_def]
      congr 3
      apply congrArg
      apply List.map_congr_left
      intro i _
      exact congrArg _ (hpkt _ i rfl rfl rfl)
    · simp only [hlt, decide_false, if_false, List.nil_append, Bool.false_eq_true]
      rw [ih (t := freeBase c t) (by simp; omega) (by simpa using slotAdd_lt hm _ _)]
      simp only [freeBase, hpos, hcnt, List.map_map, Function.comp_def]
      congr 2
      · apply congrArg
        apply List.map_congr_left
        intro i _
        exact congrArg _ (hpkt _ i rfl rfl rfl)

end Sys2Proof.Machine
end

