-- ==== Sys2Proof/Laws/Exec.lean ====
section
/-! SUPPORT. What holds of every transaction, from every state at all: inversion lemmas for the loops of the sender and
for the meanings, each said once, from which frames and invariants follow without unfolding a meaning again. -/

namespace Sys2Proof.Machine

/-! ## The middle of a sender's transaction -/

/-- What `SND` in the middle of a transaction that began at `x` always satisfies. -/
structure TxFrom (x : Sender) (t : SndTx) : Prop where
  trace : t.u.trace = x.trace
  bufDraw : t.u.bufDraw = x.bufDraw
  timer : t.u.tmrArmed = t.out.foldl Action.timer x.tmrArmed
  actions : ∀ a ∈ t.out, (∃ p, a = .pktOut p) ∨ a = .timerStart

theorem TxFrom.start (x : Sender) : TxFrom x { u := x, out := [] } :=
  ⟨rfl, rfl, rfl, by simp⟩

theorem TxFrom.emit {x : Sender} {t : SndTx} (h : TxFrom x t) {a : Action}
    (ha : (∃ p, a = .pktOut p) ∨ a = .timerStart) : TxFrom x (t.emit a) where
  trace := h.trace
  bufDraw := h.bufDraw
  timer := by simp [h.timer, List.foldl_append]
  actions := by
    intro b hb
    simp only [SndTx.emit_out, List.mem_append, List.mem_singleton] at hb
    rcases hb with hb | rfl
    · exact h.actions b hb
    · exact ha

theorem TxFrom.advanceHead {x : Sender} {t : SndTx} (h : TxFrom x t) (c : Config) : TxFrom x (advanceHead c t) :=
  ⟨h.trace, h.bufDraw, h.timer, h.actions⟩

theorem TxFrom.storeChunk {x : Sender} {c : Config} {t t' : SndTx} {d : Bytes} (h : TxFrom x t)
    (hs : storeChunk c t d = .ok t') :
    TxFrom x t' ∧ t'.u.base = t.u.base ∧ (t.u.BufInv c → t'.u.BufInv c) := by
  simp only [Machine.storeChunk, Sender.encodePkt] at hs
  split at hs
  · rename_i y hy
    cases hs
    obtain ⟨-, -, rfl⟩ := memWrite_inv hy
    have hb : t.u.BufInv c → _ := fun hb => memWrite_keeps_bufInv hy hb
    have h1 : ∀ n k b, TxFrom x { u := { t.u with nextSeq := n, draws := k, buf := b }, out := t.out } :=
      fun _ _ _ => ⟨h.trace, h.bufDraw, h.timer, h.actions⟩
    simp only [transmitStored]
    split
    · split
      · exact ⟨(((h1 _ _ _).emit (.inl ⟨_, rfl⟩)).emit (.inr rfl)).advanceHead c, rfl, hb⟩
      · exact ⟨((h1 _ _ _).emit (.inl ⟨_, rfl⟩)).advanceHead c, rfl, hb⟩
    · exact ⟨(h1 _ _ _).advanceHead c, rfl, hb⟩
  · cases hs

theorem TxFrom.storeChunks {x : Sender} {c : Config} {ds : List Bytes} {n : Nat} {t t' : SndTx} (h : TxFrom x t)
    (hs : storeChunks c ds t = .ok (t', n)) :
    TxFrom x t' ∧ t'.u.base = t.u.base ∧ (t.u.BufInv c → t'.u.BufInv c) := by
  induction ds generalizing t n with
  | nil => simp only [Machine.storeChunks] at hs; cases hs; exact ⟨h, rfl, id⟩
  | cons d ds ih =>
    simp only [Machine.storeChunks] at hs
    split at hs
    · cases hs; exact ⟨h, rfl, id⟩
    · split at hs
      · rename_i t1 h1
        split at hs
        · rename_i h2
          cases hs
          obtain ⟨a1, b1, c1⟩ := h.storeChunk h1
          obtain ⟨a2, b2, c2⟩ := ih a1 h2
          exact ⟨a2, b2.trans b1, c2 ∘ c1⟩
        · cases hs
      · cases hs

theorem transmitSlot_inv {c : Config} {t t' : SndTx} {s : Nat} (h : transmitSlot c t s = .ok t') :
    t' = t.emit (.pktOut (t.u.slotBytes c s c.P)) := by
  unfold transmitSlot memRead at h
  split at h
  · rename_i hp
    split at hp
    · cases hp; cases h; rfl
    · cases hp
  · cases h

/-- What freeing slots leaves alone. -/
structure SameStore (t t' : SndTx) : Prop where
  nbp : t'.u.nbp = t.u.nbp
  nextSeq : t'.u.nextSeq = t.u.nextSeq
  buf : t'.u.buf = t.u.buf
  draws : t'.u.draws = t.u.draws

theorem TxFrom.slide {x : Sender} {c : Config} {n : Nat} {t t' : SndTx} (h : TxFrom x t)
    (hs : slide c n t = .ok t') : TxFrom x t' ∧ SameStore t t' := by
  induction n generalizing t with
  | zero => simp only [Machine.slide] at hs; cases hs; exact ⟨h, ⟨rfl, rfl, rfl, rfl⟩⟩
  | succ n ih =>
    simp only [Machine.slide] at hs
    split at hs
    · rename_i t1 h1
      have h0 : TxFrom x (freeBase c t) := ⟨h.trace, h.bufDraw, h.timer, h.actions⟩
      simp only [slideOne] at h1
      split at h1
      · have := transmitSlot_inv h1
        subst this
        obtain ⟨a, b⟩ := ih (h0.emit (.inl ⟨_, rfl⟩)) hs
        exact ⟨a, ⟨b.nbp, b.nextSeq, b.buf, b.draws⟩⟩
      · cases h1
        obtain ⟨a, b⟩ := ih h0 hs
        exact ⟨a, ⟨b.nbp, b.nextSeq, b.buf, b.draws⟩⟩
    · cases hs

theorem TxFrom.transmitWindow {x : Sender} {c : Config} {is : List Nat} {t t' : SndTx} (h : TxFrom x t)
    (hs : transmitWindow c is t = .ok t') : TxFrom x t' ∧ t'.u = t.u := by
  induction is generalizing t with
  | nil => simp only [Machine.transmitWindow] at hs; cases hs; exact ⟨h, rfl⟩
  | cons i is ih =>
    simp only [Machine.transmitWindow] at hs
    split at hs
    · rename_i t1 h1
      have := transmitSlot_inv h1
      subst this
      obtain ⟨a, b⟩ := ih (h.emit (.inl ⟨_, rfl⟩)) hs
      exact ⟨a, b⟩
    · cases hs

/-! ## Inversion of the meanings: how each can answer a next state -/

/-- A refusal of a well-spelled command: its reason, and that nothing but the mark and the record changes. -/
def RefusedBy (i : Instr) (s t : State) : Prop := ∃ r, t = s.refusedAs i.unit (encode i) r

/-- A transaction that writes nothing: only its record is added. -/
def RecordedBy (i : Instr) (s t : State) (k : TxOutcome) (out : List Action) : Prop :=
  t = s.record i.unit { cmd := encode i, outcome := k, actions := out }

theorem execSndMsg_inv {msg : Bytes} {s t : State} (h : execSndMsg msg s = .next t) :
    RefusedBy (.sndMsg msg) s t ∨ RecordedBy (.sndMsg msg) s t .msgEmpty [] ∨
    ∃ x n, storeChunks s.cfg (chunks s.cfg msg) { u := s.snd, out := [] } = .ok (x, n) ∧
      RecordedBy (.sndMsg msg) { s with snd := x.u } t (msgOutcome n (chunkCount s.cfg msg)) x.out := by
  simp only [execSndMsg] at h
  split at h
  · cases h; exact .inl ⟨_, rfl⟩
  · split at h
    · cases h; exact .inr (.inl rfl)
    · split at h
      · rename_i hs; cases h; exact .inr (.inr ⟨_, _, hs, rfl⟩)
      · cases h

theorem execSndAck_inv {pkt : Bytes} {s t : State} (h : execSndAck pkt s = .next t) :
    RefusedBy (.sndAck pkt) s t ∨
    (∃ k, (k = .ackCorrupt ∨ k = .ackIdle ∨ ∃ n, k = .ackStale n) ∧ RecordedBy (.sndAck pkt) s t k []) ∨
    ∃ x interval, interval < s.cfg.winSize ∧ interval < s.snd.count ∧
      slide s.cfg (interval + 1) { u := s.snd, out := [] } = .ok x ∧
      RecordedBy (.sndAck pkt) { s with snd := (x.emit .timerStart).u } t (.ackAdvanced interval)
        (x.emit .timerStart).out := by
  simp only [execSndAck] at h
  split at h
  · split at h
    · split at h
      · cases h; exact .inr (.inl ⟨_, .inr (.inl rfl), rfl⟩)
      · split at h
        · split at h
          · cases h; exact .inr (.inl ⟨_, .inr (.inr ⟨_, rfl⟩), rfl⟩)
          · rename_i hst
            simp only [ackStale, Bool.or_eq_true, decide_eq_true_eq, not_or, Nat.not_le] at hst
            split at h
            · rename_i hs; cases h; exact .inr (.inr ⟨_, _, hst.1, hst.2, hs, rfl⟩)
            · cases h
        · cases h
    · cases h; exact .inr (.inl ⟨_, .inl rfl, rfl⟩)
  · cases h; exact .inl ⟨_, rfl⟩

theorem execSndTimeout_inv {s t : State} (h : execSndTimeout s = .next t) :
    ∃ (x : SndTx) (a : Action) (k : TxOutcome), (a = .timerStart ∨ a = .timerStop) ∧ (k = .toEmpty ∨ ∃ n, k = .toRetransmit n) ∧
      TxFrom { s.snd with tmrArmed := false } x ∧ x.u = { s.snd with tmrArmed := false } ∧
      RecordedBy .sndTimeout { s with snd := (x.emit a).u } t k (x.emit a).out := by
  have hstart := TxFrom.start { s.snd with tmrArmed := false }
  simp only [execSndTimeout] at h
  split at h
  · cases h; exact ⟨_, _, _, .inr rfl, .inl rfl, hstart, rfl, rfl⟩
  · split at h
    · rename_i x hx
      cases h
      obtain ⟨a, b⟩ := hstart.transmitWindow hx
      exact ⟨x, _, _, .inl rfl, .inr ⟨_, rfl⟩, a, b, rfl⟩
    · cases h

theorem execRcvPkt_inv {pkt : Bytes} {s t : State} (h : execRcvPkt pkt s = .next t) :
    RefusedBy (.rcvPkt pkt) s t ∨
    RecordedBy (.rcvPkt pkt) s t .rxCorrupt [] ∨
    (∃ k, (k = .rxCorrupt ∨ k = .rxDuplicate (pktSeq pkt)) ∧
      RecordedBy (.rcvPkt pkt) { s with rcv := (s.rcv.ackPacket s.cfg).2 } t k
        [.pktOut (s.rcv.ackPacket s.cfg).1]) ∨
    (verify s.cfg pkt = true ∧ pktSeq pkt = s.rcv.expectedSeq ∧
      RecordedBy (.rcvPkt pkt) { s with rcv := ((s.rcv.accept (pktSeq pkt)).ackPacket s.cfg).2 } t
        (.rxAccepted (pktSeq pkt))
        [.msgOut (pktPayload pkt), .pktOut ((s.rcv.accept (pktSeq pkt)).ackPacket s.cfg).1]) := by
  simp only [execRcvPkt] at h
  split at h
  · split at h
    · rename_i hv
      split at h
      · rename_i hs; cases h; exact .inr (.inr (.inr ⟨hv, hs, rfl⟩))
      · cases h; exact .inr (.inr (.inl ⟨_, .inr rfl, rfl⟩))
    · split at h
      · cases h; exact .inr (.inr (.inl ⟨_, .inl rfl, rfl⟩))
      · cases h; exact .inr (.inl rfl)
  · cases h; exact .inl ⟨_, rfl⟩

theorem execCkSum_inv {u : UnitId} {data : Bytes} {s t : State} (h : execCkSum u data s = .next t) :
    RefusedBy (.ckSum u data) s t ∨ ∃ r, RecordedBy (.ckSum u data) s t .ok [.result r] := by
  simp only [execCkSum] at h
  split at h
  · cases h; exact .inr ⟨_, rfl⟩
  · cases h; exact .inl ⟨_, rfl⟩

theorem execCkVerify_inv {u : UnitId} {pkt : Bytes} {s t : State} (h : execCkVerify u pkt s = .next t) :
    RefusedBy (.ckVerify u pkt) s t ∨ ∃ r, RecordedBy (.ckVerify u pkt) s t .ok [.result r] := by
  simp only [execCkVerify] at h
  split at h
  · cases h; exact .inr ⟨_, rfl⟩
  · cases h; exact .inl ⟨_, rfl⟩

theorem execPktEncode_inv {u : UnitId} {seq : Byte} {data : Bytes} {s t : State}
    (h : execPktEncode u seq data s = .next t) :
    RefusedBy (.pktEncode u seq data) s t ∨
      ∃ r k, RecordedBy (.pktEncode u seq data) (s.setDraws u k) t .ok [.result r] := by
  simp only [execPktEncode] at h
  split at h
  · cases h; exact .inl ⟨_, rfl⟩
  · split at h
    · cases h; exact .inr ⟨_, s.snd.draws + tailLength s.cfg data, rfl⟩
    · cases h; exact .inr ⟨_, s.rcv.draws + tailLength s.cfg data, rfl⟩

/-! ## Every transaction -/

/-- Whatever a meaning does, its unit records one entry of its own command, and the other unit, the parameters and the
events still to be presented stay. -/
theorem exec_records {i : Instr} {s t : State} (h : exec i s = .next t) :
    t.cfg = s.cfg ∧ t.inputs = s.inputs ∧ (i.unit = .snd → t.rcv = s.rcv) ∧ (i.unit = .rcv → t.snd = s.snd) ∧
    ∃ k out, t.traceOf i.unit = s.traceOf i.unit ++ [{ cmd := encode i, outcome := k, actions := out }] := by
  cases i with
  | sndMsg msg =>
    rcases execSndMsg_inv h with ⟨r, rfl⟩ | rfl | ⟨x, n, hx, rfl⟩
    · exact ⟨rfl, rfl, fun _ => rfl, nofun, _, _, rfl⟩
    · exact ⟨rfl, rfl, fun _ => rfl, nofun, _, _, rfl⟩
    · refine ⟨rfl, rfl, fun _ => rfl, nofun, msgOutcome n (chunkCount s.cfg msg), x.out, ?_⟩
      simp [State.traceOf, Instr.unit, ((TxFrom.start s.snd).storeChunks hx).1.trace]
  | sndAck pkt =>
    rcases execSndAck_inv h with ⟨r, rfl⟩ | ⟨k, -, rfl⟩ | ⟨x, n, -, -, hx, rfl⟩
    · exact ⟨rfl, rfl, fun _ => rfl, nofun, _, _, rfl⟩
    · exact ⟨rfl, rfl, fun _ => rfl, nofun, _, _, rfl⟩
    · refine ⟨rfl, rfl, fun _ => rfl, nofun, .ackAdvanced n, (x.emit .timerStart).out, ?_⟩
      simp [State.traceOf, Instr.unit, ((TxFrom.start s.snd).slide hx).1.trace]
  | sndTimeout =>
    obtain ⟨x, a, k, -, -, hx, -, rfl⟩ := execSndTimeout_inv h
    refine ⟨rfl, rfl, fun _ => rfl, nofun, k, (x.emit a).out, ?_⟩
    simp [State.traceOf, Instr.unit, hx.trace]
  | rcvPkt pkt =>
    rcases execRcvPkt_inv h with ⟨r, rfl⟩ | rfl | ⟨k, -, rfl⟩ | ⟨-, -, rfl⟩ <;>
      exact ⟨rfl, rfl, nofun, fun _ => rfl, _, _, rfl⟩
  | ckSum u data =>
    rcases execCkSum_inv h with ⟨r, rfl⟩ | ⟨r, rfl⟩ <;> cases u <;>
      exact ⟨rfl, rfl, by first | exact fun _ => rfl | exact nofun, by first | exact fun _ => rfl | exact nofun, _, _, rfl⟩
  | ckVerify u pkt =>
    rcases execCkVerify_inv h with ⟨r, rfl⟩ | ⟨r, rfl⟩ <;> cases u <;>
      exact ⟨rfl, rfl, by first | exact fun _ => rfl | exact nofun, by first | exact fun _ => rfl | exact nofun, _, _, rfl⟩
  | pktEncode u seq data =>
    rcases execPktEncode_inv h with ⟨r, rfl⟩ | ⟨r, k, rfl⟩ <;> cases u <;>
      exact ⟨rfl, rfl, by first | exact fun _ => rfl | exact nofun, by first | exact fun _ => rfl | exact nofun, _, _, rfl⟩

/-- No transaction moves the place where the last joint reset stands. -/
theorem exec_epoch {i : Instr} {s t : State} (h : exec i s = .next t) : t.epoch = s.epoch := by
  cases i with
  | sndMsg msg => rcases execSndMsg_inv h with ⟨r, rfl⟩ | rfl | ⟨x, n, -, rfl⟩ <;> rfl
  | sndAck pkt => rcases execSndAck_inv h with ⟨r, rfl⟩ | ⟨k, -, rfl⟩ | ⟨x, n, -, -, -, rfl⟩ <;> rfl
  | sndTimeout => obtain ⟨x, a, k, -, -, -, -, rfl⟩ := execSndTimeout_inv h; rfl
  | rcvPkt pkt => rcases execRcvPkt_inv h with ⟨r, rfl⟩ | rfl | ⟨k, -, rfl⟩ | ⟨-, -, rfl⟩ <;> rfl
  | ckSum u data => rcases execCkSum_inv h with ⟨r, rfl⟩ | ⟨r, rfl⟩ <;> cases u <;> rfl
  | ckVerify u pkt => rcases execCkVerify_inv h with ⟨r, rfl⟩ | ⟨r, rfl⟩ <;> cases u <;> rfl
  | pktEncode u seq data => rcases execPktEncode_inv h with ⟨r, rfl⟩ | ⟨r, k, rfl⟩ <;> cases u <;> rfl

end Sys2Proof.Machine
end

