-- ==== Sys2Proof/Laws/Step.lean ====
section
/-! SUPPORT. The operation codes, what refusing a presented command leaves, and the cases of a step. -/

namespace Sys2Proof

/-! ## Operation codes -/

theorem Op.ofByte?_code (o : Op) : Op.ofByte? o.code = some o := by cases o <;> decide

theorem Op.code_of_ofByte? {b : Byte} {o : Op} (h : Op.ofByte? b = some o) : b = o.code := by
  have := List.find?_some h
  simp only [beq_iff_eq] at this
  exact this.symm

theorem Instr.op_acceptedBy_unit (i : Instr) : i.op.acceptedBy i.unit = true := by cases i <;> rfl

end Sys2Proof

namespace Sys2Proof.Machine

/-! ## Ending a transaction -/

theorem finish_eq (s : State) (u : UnitId) (cmd : Bytes) (k : TxOutcome) (out : List Action) :
    finish s u cmd k out = .next (s.record u { cmd := cmd, outcome := k, actions := out }) := rfl

theorem refuse_eq (s : State) (u : UnitId) (cmd : Bytes) (r : Rejection) :
    refuse s u cmd r = .next (s.refusedAs u cmd r) := rfl

theorem finishSnd_eq (s : State) (cmd : Bytes) (k : TxOutcome) (t : SndTx) :
    finishSnd s cmd k t =
      .next { s with snd := { t.u with trace := t.u.trace ++ [{ cmd := cmd, outcome := k, actions := t.out }] } } :=
  rfl

@[simp] theorem State.refusedAs_cfg (s : State) (u : UnitId) (cmd : Bytes) (r : Rejection) :
    (s.refusedAs u cmd r).cfg = s.cfg := by cases u <;> rfl

@[simp] theorem State.refusedAs_refusalMark (s : State) (u : UnitId) (cmd : Bytes) (r : Rejection) :
    (s.refusedAs u cmd r).refusalMark = true := by cases u <;> rfl

@[simp] theorem State.refusedAs_inputs (s : State) (u : UnitId) (cmd : Bytes) (r : Rejection) :
    (s.refusedAs u cmd r).inputs = s.inputs := by cases u <;> rfl

@[simp] theorem State.refusedAs_epoch (s : State) (u : UnitId) (cmd : Bytes) (r : Rejection) :
    (s.refusedAs u cmd r).epoch = s.epoch := by cases u <;> rfl

/-! ## Presenting a command, and a step -/

theorem present_of_decode {s : State} {u : UnitId} {cmd : Bytes} {i : Instr} (h : decode s.cfg u cmd = .ok i) :
    present u cmd s = exec i s := by
  simp only [present, h]

theorem present_of_error {s : State} {u : UnitId} {cmd : Bytes} {r : Rejection} (h : decode s.cfg u cmd = .error r) :
    present u cmd s = .next (s.refusedAs u cmd r) := by
  simp only [present, h, refuse_eq]

/-- Only a state whose parameters are admitted steps to a next state. -/
theorem wf_of_step_next {s t : State} (h : step s = .next t) : s.cfg.WF := by
  unfold step at h
  split at h
  · assumption
  · cases h

/-- The cases of a step, over the events to be presented. -/
theorem step_of_wf {s : State} (hc : s.cfg.WF) :
    step s =
      match s.inputs with
      | [] => .next s
      | .command u cmd :: rest => present u cmd { s with inputs := rest }
      | .reset u :: rest => .next (State.resetUnit { s with inputs := rest } u)
      | .resetBoth :: rest => .next (State.resetTogether { s with inputs := rest }) :=
  if_pos hc

/-- A property that input changes, refusals, transactions and resets keep is kept by every step. -/
theorem step_keeps {Q : State → Prop} (hin : ∀ s is, Q s → Q { s with inputs := is })
    (hrefuse : ∀ s u cmd r, Q s → Q (s.refusedAs u cmd r)) (hexec : ∀ i s t, Q s → exec i s = .next t → Q t)
    (hreset : ∀ s u, Q s → Q (s.resetUnit u)) (hboth : ∀ s, Q s → Q s.resetTogether) {s t : State}
    (hq : Q s) (h : step s = .next t) : Q t := by
  rw [step_of_wf (wf_of_step_next h)] at h
  split at h
  · cases h
    exact hq
  · unfold present at h
    split at h
    · exact hexec _ _ _ (hin _ _ hq) h
    · rw [refuse_eq] at h
      cases h
      exact hrefuse _ _ _ _ (hin _ _ hq)
  · cases h
    exact hreset _ _ (hin _ _ hq)
  · cases h
    exact hboth _ (hin _ _ hq)

end Sys2Proof.Machine
end

