-- ==== Sys2Proof/Laws/Channel.lean ====
section
/-! SUPPORT. Totals and packets of a trace that grows, the numbering of packets, and what the duties of the environment
say of one another (60_exceptions.md R193). -/

namespace Sys2Proof.Machine

/-! ## Lists of actions and traces that grow -/

theorem pktOuts_append (a b : List Action) : pktOuts (a ++ b) = pktOuts a ++ pktOuts b := by
  induction a with
  | nil => rfl
  | cons x l ih => cases x <;> simp [pktOuts, ih]

theorem actionsOf_append (a b : List Entry) : actionsOf (a ++ b) = actionsOf a ++ actionsOf b := by simp [actionsOf]

theorem ackedTotal_append (a b : List Entry) : ackedTotal (a ++ b) = ackedTotal a + ackedTotal b := by
  induction a with
  | nil => simp [ackedTotal]
  | cons x l ih => simp [ackedTotal, ih, Nat.add_assoc]

theorem acceptedSeqs_append (a b : List Entry) : acceptedSeqs (a ++ b) = acceptedSeqs a ++ acceptedSeqs b := by
  simp [acceptedSeqs]

theorem numberSnd_append (a b : List Entry) (k : Nat) :
    numberSnd k (a ++ b) = numberSnd k a ++ numberSnd (k + ackedTotal a) b := by
  induction a generalizing k with
  | nil => simp [numberSnd, ackedTotal]
  | cons x l ih =>
    have h : ackedTotal (x :: l) = ackedTotal [x] + ackedTotal l := by simp [ackedTotal]
    simp [numberSnd, ih, h, Nat.add_assoc]

theorem numberRcv_append (a b : List Entry) (k : Nat) :
    numberRcv k (a ++ b) = numberRcv k a ++ numberRcv (k + (acceptedSeqs a).length) b := by
  induction a generalizing k with
  | nil => simp [numberRcv, acceptedSeqs]
  | cons x l ih =>
    have h : (acceptedSeqs (x :: l)).length = (acceptedSeqs [x]).length + (acceptedSeqs l).length := by
      rw [← List.singleton_append, acceptedSeqs_append, List.length_append]
    simp [numberRcv, ih, h, Nat.add_assoc]

/-! ## The numbered packets are the packets of the channel -/

theorem numberSnd_packets (k : Nat) (tr : List Entry) : (numberSnd k tr).map (·.2) = pktOuts (actionsOf tr) := by
  induction tr generalizing k with
  | nil => rfl
  | cons e rest ih =>
    simp [numberSnd, ih, ← pktOuts_append, actionsOf, Function.comp_def]

theorem numberRcv_packets (k : Nat) (tr : List Entry) : (numberRcv k tr).map (·.2) = pktOuts (actionsOf tr) := by
  induction tr generalizing k with
  | nil => rfl
  | cons e rest ih =>
    simp [numberRcv, ih, ← pktOuts_append, actionsOf, Function.comp_def]

theorem State.numbered_packets (s : State) (u : UnitId) : (s.numbered u).map (·.2) = s.onChannel u := by
  cases u
  · exact numberSnd_packets 0 _
  · exact numberRcv_packets 0 _

/-- Row C4 is said with rows C1 to C3. -/
theorem DutyC4.dutyC3 {s : State} {e : Input} (h : DutyC4 s e) : DutyC3 s e := by
  intro u p hd
  obtain ⟨x, hx, hp, -⟩ := h u p hd
  exact ⟨x.2, s.numbered_packets (peer u) ▸ List.mem_map_of_mem hx, hp⟩

end Sys2Proof.Machine
end

