-- ==== Sys2Proof/Laws/PerInstr.lean ====
section
/-! SUPPORT. Laws over every instruction as syntax. `Framing`: the length that the op and the length field of a
well-formed command give is the length of its encoding (30_encoding.md R79). -/

namespace Sys2Proof.Laws.Framing

open Sys2Proof Sys2Proof.Machine

/-- R79 of one instruction: the length its encoding announces is the length it has. -/
def Statement (i : Instr) : Prop :=
  ∀ c : Config, i.wf c = true → frameLength c (encode i) = some (encode i).length

theorem sndMsg (msg : Bytes) : Statement (.sndMsg msg) := by
  intro c h
  simp only [Instr.wf, decide_eq_true_eq] at h
  simp only [encode, encodeOperands, Instr.op, frameLength, Op.ofByte?_code, List.cons_append, List.nil_append,
    be32_byteOf h, List.length_cons]
  congr 1
  omega

theorem sndAck (pkt : Bytes) : Statement (.sndAck pkt) := by
  intro c h
  simp only [Instr.wf, decide_eq_true_eq] at h
  simp [encode, encodeOperands, Instr.op, frameLength, Op.ofByte?_code, h, Nat.add_comm]

theorem sndTimeout : Statement .sndTimeout := by
  intro c _
  simp [encode, encodeOperands, Instr.op, frameLength, Op.ofByte?_code]

theorem rcvPkt (pkt : Bytes) : Statement (.rcvPkt pkt) := by
  intro c h
  simp only [Instr.wf, decide_eq_true_eq] at h
  simp [encode, encodeOperands, Instr.op, frameLength, Op.ofByte?_code, h, Nat.add_comm]

theorem ckSum (u : UnitId) (data : Bytes) : Statement (.ckSum u data) := by
  intro c h
  simp only [Instr.wf, decide_eq_true_eq] at h
  simp only [encode, encodeOperands, Instr.op, frameLength, Op.ofByte?_code, List.cons_append, List.nil_append,
    be16_byteOf h, List.length_cons]
  congr 1
  omega

theorem ckVerify (u : UnitId) (pkt : Bytes) : Statement (.ckVerify u pkt) := by
  intro c h
  simp only [Instr.wf, decide_eq_true_eq] at h
  simp [encode, encodeOperands, Instr.op, frameLength, Op.ofByte?_code, h, Nat.add_comm]

theorem pktEncode (u : UnitId) (seq : Byte) (data : Bytes) : Statement (.pktEncode u seq data) := by
  intro c h
  simp only [Instr.wf, decide_eq_true_eq] at h
  simp only [encode, encodeOperands, Instr.op, frameLength, Op.ofByte?_code, List.cons_append, List.nil_append,
    byteOf_zero_toNat h, List.length_cons]
  congr 1
  omega

end Sys2Proof.Laws.Framing
end

