-- ==== Sys2Proof/Tests/Slice0.lean ====
section
/-! SUPPORT. The model's own tests: ill-formed terms that WellFormed refuses, written-out command words, a few worked
examples of 95_test_vectors.md (each test names its row), and for every obligation that has hypotheses a concrete input
that meets them (`witness_<its name>`). -/

namespace Sys2Proof.Tests

open Sys2Proof Sys2Proof.Machine

/-! ## Helpers -/

/-- A small configuration: packets of 8 bytes, `C = 4`, a window of 2 and 3 slots. -/
def cfgS : Config := { P := 8, winSize := 2, maxBuffer := 3, timeout := 0, maxMsg := 9, ackOnCorrupt := false }

/-- Scenario D's window on packets of 5 bytes, `C = 1`. -/
def cfgD : Config := { P := 5, winSize := 10, maxBuffer := 12, timeout := 0, maxMsg := 20, ackOnCorrupt := false }

/-- A packet with a zero tail. -/
def pk (c : Config) (seq : Byte) (d : Bytes) : Bytes := buildPacket seq d (List.replicate (tailLength c d) 0x00)

/-- Store packets from a slot on, numbered upwards. -/
def storeFrom (c : Config) : List Bytes → Nat → Byte → Memory → Memory
  | [], _, _, m => m
  | d :: ds, slot, seq, m => storeFrom c ds ((slot + 1) % c.maxBuffer) (seq + 1) (m.setBytes (slot * c.P) (pk c seq d))

/-- The state after reset but for payloads `ds` outstanding from slot `base` on, the first numbered `seq`. -/
def holding (c : Config) (base : Nat) (seq : Byte) (ds : List Bytes) : State :=
  { State.resetOf c with snd := { Sender.reset with
      base := base, nbp := (base + ds.length) % c.maxBuffer, count := ds.length, nextSeq := seq + BitVec.ofNat 8 ds.length
      buf := storeFrom c ds base seq [], tmrArmed := true } }

/-- The state after reset but for the events to be presented. -/
def facing (c : Config) (inputs : List Input) : State := { State.resetOf c with inputs := inputs }

/-- The decoded command, if there is one. -/
def decoded (c : Config) (u : UnitId) (cmd : Bytes) : Option Instr :=
  match decode c u cmd with
  | .ok i => some i
  | .error _ => none

/-- The reason for a refusal, if there is one. -/
def refusal (c : Config) (u : UnitId) (cmd : Bytes) : Option Rejection :=
  match decode c u cmd with
  | .ok _ => none
  | .error r => some r

/-- `(base, nbp, count, next_seq, tmr_armed)` of a next state. -/
def sndRegs : Answer → Option (Nat × Nat × Nat × Byte × Bool)
  | .next t => some (t.snd.base, t.snd.nbp, t.snd.count, t.snd.nextSeq, t.snd.tmrArmed)
  | .fault _ => none
  | .refused _ => none

/-- `(expected_seq, ack_valid)` of a next state. -/
def rcvRegs : Answer → Option (Byte × Bool)
  | .next t => some (t.rcv.expectedSeq, t.rcv.ackValid)
  | .fault _ => none
  | .refused _ => none

/-- An action with a packet cut down to its checksummed region. -/
def shown : Action → Action
  | .pktOut p => .pktOut (pktRegion p)
  | .timerStart => .timerStart
  | .timerStop => .timerStop
  | .msgOut m => .msgOut m
  | .result r => .result r

/-- The last outcome and the actions of a unit of a next state, packets cut down to their regions. -/
def shownLast (u : UnitId) : Answer → Option (TxOutcome × List Action)
  | .next t => (t.traceOf u).getLast?.map fun e => (e.outcome, e.actions.map shown)
  | .fault _ => none
  | .refused _ => none

/-- Decidable form of R36: every outstanding slot is `encode` of its own payload under its own number. -/
def packetsOk (c : Config) (x : Sender) : Bool :=
  (List.range x.count).all fun i =>
    let p := x.packetAt c i
    let d := pktPayload p
    decide (d.length ≤ c.C) && decide ((p.drop (4 + d.length)).length = tailLength c d) &&
      decide (p = buildPacket (x.seqAt i) d (p.drop (4 + d.length)))

theorem packetInv_of_packetsOk {c : Config} {x : Sender} (h : packetsOk c x = true) : x.PacketInv c := by
  intro i hi
  have := List.all_eq_true.mp h i (List.mem_range.mpr hi)
  simp only [Bool.and_eq_true, decide_eq_true_eq] at this
  exact ⟨_, this.1.1, _, this.1.2, this.2⟩

/-- The invariants from their decidable parts. -/
theorem inv_of {s : State} (h1 : s.cfg.WF) (h2 : s.snd.IndexInv s.cfg) (h3 : s.snd.BufInv s.cfg)
    (h4 : packetsOk s.cfg s.snd = true) (h5 : s.snd.TimerInv) (h6 : s.rcv.Inv) : s.Inv :=
  ⟨h1, ⟨h2, h3, packetInv_of_packetsOk h4, h5⟩, h6⟩

/-- A packet of a payload that fits. -/
theorem isPacketOf_pk {c : Config} {seq : Byte} {d : Bytes} (h : d.length ≤ c.C) : IsPacketOf c seq d (pk c seq d) :=
  ⟨h, List.replicate (tailLength c d) 0x00, by simp, rfl⟩

/-! ## WellFormed refuses -/

theorem test_wf_message_past_32_bits : (Instr.sndMsg (List.replicate (2 ^ 32) 0x00)).wf cfgS = false := by
  simp only [Instr.wf, List.length_replicate]; decide
theorem test_wf_ack_not_P_bytes : (Instr.sndAck (List.replicate 7 0x00)).wf cfgS = false := by decide
theorem test_wf_packet_not_P_bytes : (Instr.rcvPkt (List.replicate 9 0x00)).wf cfgS = false := by decide
theorem test_wf_sum_past_16_bits : (Instr.ckSum .snd (List.replicate (2 ^ 16) 0x00)).wf cfgS = false := by
  simp only [Instr.wf, List.length_replicate]; decide
theorem test_wf_verify_not_P_bytes : (Instr.ckVerify .rcv []).wf cfgS = false := by decide
theorem test_wf_payload_past_8_bits : (Instr.pktEncode .snd 0x00 (List.replicate 256 0x00)).wf cfgS = false := by
  simp only [Instr.wf, List.length_replicate]; decide

/-! ## Decoding written-out words (R77, R78) -/

theorem test_decode_sndMsg : decoded Config.ex .snd [0x01, 0x00, 0x00, 0x00, 0x03, 0x41, 0x42, 0x43] =
    some (.sndMsg [0x41, 0x42, 0x43]) := by decide
theorem test_decode_sndAck : decoded cfgS .snd [0x02, 0x02, 0x00, 0xFD, 0xFF, 0x00, 0x00, 0x00, 0x00] =
    some (.sndAck [0x02, 0x00, 0xFD, 0xFF, 0x00, 0x00, 0x00, 0x00]) := by decide
theorem test_decode_sndTimeout : decoded Config.ex .snd [0x03] = some .sndTimeout := by decide
theorem test_decode_rcvPkt : decoded cfgS .rcv [0x11, 0x01, 0x01, 0xED, 0xFE, 0x11, 0x00, 0x00, 0x00] =
    some (.rcvPkt [0x01, 0x01, 0xED, 0xFE, 0x11, 0x00, 0x00, 0x00]) := by decide
theorem test_decode_ckSum : decoded Config.ex .rcv [0x21, 0x00, 0x01, 0x01] = some (.ckSum .rcv [0x01]) := by decide
theorem test_decode_ckVerify : decoded cfgS .rcv [0x22, 0x00, 0x00, 0xFF, 0xFF, 0x00, 0x00, 0x00, 0x00] =
    some (.ckVerify .rcv [0x00, 0x00, 0xFF, 0xFF, 0x00, 0x00, 0x00, 0x00]) := by decide
theorem test_decode_pktEncode : decoded Config.ex .snd [0x23, 0x05, 0x03, 0x41, 0x42, 0x43] =
    some (.pktEncode .snd 0x05 [0x41, 0x42, 0x43]) := by decide

/-- Rows F1 to F9, F11 and F13. -/
theorem test_decode_refusals :
    refusal Config.ex .snd [] = some (.illegalOp none) ∧
    refusal Config.ex .snd [0x00] = some (.illegalOp (some 0x00)) ∧
    refusal Config.ex .rcv [0x24, 0x00] = some (.illegalOp (some 0x24)) ∧
    refusal Config.ex .snd [0x11, 0x00] = some (.illegalOp (some 0x11)) ∧
    refusal Config.ex .rcv [0x01, 0x00, 0x00, 0x00, 0x00] = some (.illegalOp (some 0x01)) ∧
    refusal Config.ex .snd [0x03, 0x00] = some (.badLength 2) ∧
    refusal Config.ex .snd (0x02 :: List.replicate 63 0x00) = some (.badLength 64) ∧
    refusal Config.ex .snd [0x01, 0x00, 0x00, 0x00, 0x05, 0x41] = some (.badLength 6) ∧
    refusal Config.ex .rcv [0x21, 0x00, 0x02, 0xAA] = some (.badLength 4) ∧
    refusal Config.ex .snd [0x23, 0x00, 0x3D] = some (.badLength 3) ∧
    refusal Config.ex .snd [0x01, 0xFF, 0xFF, 0xFF, 0xFF] = some (.badLength 5) := by decide

/-- The op codes as the host numbers a word's bits. -/
theorem test_decodeTableWord :
    decodeTableWord 8 0x01 = some (.sndMsg []) ∧ decodeTableWord 8 0x03 = some .sndTimeout ∧
    decodeTableWord 8 0x21 = some (.ckSum .snd []) ∧ decodeTableWord 8 0x24 = none := by decide

theorem test_step_runs_withFetchWord : sndRegs (step (State.reset.withFetchWord 8 0x03)) = some (0, 0, 0, 0x00, false) := by
  decide

/-! ## Worked examples of 95_test_vectors.md -/

/-- K10, and K5's end-around carry. -/
theorem test_ckSum_K10 : shownLast .rcv (exec (.ckSum .rcv [0x00, 0x01, 0xF2, 0x03, 0xF4, 0xF5, 0xF6, 0xF7]) State.reset) =
    some (.ok, [.result [0xDD, 0xF2, 0x22, 0x0D]]) := by decide
theorem test_ckSum_K5 : shownLast .snd (exec (.ckSum .snd [0xFF, 0xFF, 0x00, 0x01]) State.reset) =
    some (.ok, [.result [0x00, 0x01, 0xFF, 0xFE]]) := by decide

/-- K3's `RESULT` as bytes. -/
theorem test_result_layout_K3 : (Action.result [0x01, 0x00, 0xFE, 0xFF]).encode = [0xA1, 0x00, 0x04, 0x01, 0x00, 0xFE, 0xFF] := by
  decide

/-- V13 (a flip of the length byte that goes undetected) and V15 (a length past `C`). -/
theorem test_ckVerify_V13 :
    shownLast .snd (exec (.ckVerify .snd ([0x09, 0x00, 0xF6, 0xFF, 0xFF, 0xFB] ++ List.replicate 58 0x00)) State.reset) =
      some (.ok, [.result [0x01]]) := by decide +kernel
theorem test_ckVerify_V15 :
    shownLast .rcv (exec (.ckVerify .rcv ([0x05, 0x3D, 0x76, 0xBA, 0x41, 0x42, 0x43] ++ List.replicate 57 0x00)) State.reset) =
      some (.ok, [.result [0x00]]) := by decide +kernel

/-- E1 and E13 (a computed checksum of 0 is kept). -/
theorem test_pktEncode_E1 : ((exec (.pktEncode .snd 0x05 [0x41, 0x42, 0x43]) State.reset) |> fun a =>
    match a with
    | .next t => t.snd.trace.map fun e => e.actions.map fun x =>
        match x with
        | .result r => r.take 7
        | .pktOut _ => []
        | .timerStart => []
        | .timerStop => []
        | .msgOut _ => []
    | .fault _ => []
    | .refused _ => []) = [[[0x05, 0x03, 0x76, 0xBA, 0x41, 0x42, 0x43]]] := by decide +kernel
theorem test_encode_E13 : (pk Config.ex 0x02 [0xFD, 0xFD]).take 6 = [0x02, 0x02, 0x00, 0x00, 0xFD, 0xFD] := by
  decide +kernel

/-- M5: `nbp` and `next_seq` both wrap. -/
theorem test_sndMsg_M5 :
    sndRegs (exec (.sndMsg (List.replicate 120 0x00)) (holding Config.ex 15 0xFF [])) = some (15, 1, 2, 0x01, true) ∧
    shownLast .snd (exec (.sndMsg (List.replicate 120 0x00)) (holding Config.ex 15 0xFF [])) = some (.msgAccepted 2,
      [.pktOut ([0xFF, 0x3C, 0x00, 0xC3] ++ List.replicate 60 0x00), .timerStart,
       .pktOut ([0x00, 0x3C, 0xFF, 0xC3] ++ List.replicate 60 0x00)]) := by decide +kernel

/-- Three chunks into two free slots behind one packet, as M7 on a small buffer: one sent, one stored unsent, one
dropped (R123, R126). -/
theorem test_sndMsg_truncated :
    shownLast .snd (exec (.sndMsg (List.replicate 9 0x00)) (holding cfgS 2 0x05 [[0x07]])) =
      some (.msgTruncated 2 1, [.pktOut [0x06, 0x04, 0xF9, 0xFB, 0x00, 0x00, 0x00, 0x00]]) := by decide +kernel

/-- A8: a cumulative acknowledgment across both wraps. -/
theorem test_sndAck_A8 :
    sndRegs (exec (.sndAck (pk Config.ex 0x00 [])) (holding Config.ex 15 0xFF [[0x00], [0x00]])) =
      some (1, 1, 0, 0x01, true) := by decide +kernel

/-- As A3 on a small buffer: the packet that enters the window is sent, then the timer restarts (R133, R134). -/
theorem test_sndAck_enters :
    shownLast .snd (exec (.sndAck (pk cfgS 0x05 [])) (holding cfgS 2 0x05 [[0x00], [0x01], [0x02]])) =
      some (.ackAdvanced 0, [.pktOut [0x07, 0x01, 0xF6, 0xFE, 0x02], .timerStart]) := by decide +kernel

/-- T1. -/
theorem test_sndTimeout_T1 : shownLast .snd (exec .sndTimeout (holding Config.ex 2 0x02 [])) =
    some (.toEmpty, [.timerStop]) := by decide

/-- T4 on a small buffer: only the window is resent. -/
theorem test_sndTimeout_window :
    shownLast .snd (exec .sndTimeout (holding cfgS 2 0x00 [[0x00], [0x01], [0x02]])) =
      some (.toRetransmit 2, [.pktOut [0x00, 0x01, 0xFF, 0xFE, 0x00], .pktOut [0x01, 0x01, 0xFD, 0xFE, 0x01], .timerStart]) := by
  decide +kernel

/-- R4: the expected number wraps. -/
theorem test_rcvPkt_R4 :
    let s := { State.reset with rcv := { Receiver.reset with expectedSeq := 0xFF, ackValid := true } }
    rcvRegs (exec (.rcvPkt (pk Config.ex 0xFF [0xAA])) s) = some (0x00, true) ∧
    shownLast .rcv (exec (.rcvPkt (pk Config.ex 0xFF [0xAA])) s) =
      some (.rxAccepted 0xFF, [.msgOut [0xAA], .pktOut [0xFF, 0x00, 0x00, 0xFF]]) := by decide +kernel

/-- R2: the sentinel acknowledgment. -/
theorem test_rcvPkt_R2 : shownLast .rcv (exec (.rcvPkt (pk Config.ex 0x03 [0x01])) State.reset) =
    some (.rxDuplicate 0x03, [.pktOut [0xFF, 0x00, 0x00, 0xFF]]) := by decide +kernel

/-! ## Witnesses: concrete inputs that meet every hypothesis of an obligation, and its clauses at their edges -/

/-- Two packets outstanding across the end of the buffer, the window full, and a full buffer. -/
theorem holding_two_inv : (holding cfgS 2 0xFF [[0x07], [0x08, 0x09]]).Inv :=
  inv_of (by decide) (by decide) (by decide +kernel) (by decide +kernel) (by decide) (by decide)
theorem holding_three_inv : (holding cfgS 1 0x00 [[0x00], [0x01], [0x02]]).Inv :=
  inv_of (by decide) (by decide) (by decide +kernel) (by decide +kernel) (by decide) (by decide)
theorem holding_none_inv : (holding cfgS 1 0x00 []).Inv :=
  inv_of (by decide) (by decide) (by decide) (by decide) (by decide) (by decide)

theorem witness_CsumSumIsOnesComplementSum :
    csumSum [] = 0 ∧ csumSum [0xFF, 0xFF, 0x00, 0x01] ≠ 0 ∧
    ([0x0001, 0xFFFF] : List Word16).Perm (wordsOf [0xFF, 0xFF, 0x00, 0x01]) ∧
    foldCarries 1 ((wordsOf [0xFF, 0xFF, 0x00, 0x01]).map BitVec.toNat).sum < 2 ^ 16 := by decide

theorem witness_ChecksumComplementsTheSum : csumSum [0xFF, 0xFF, 0xFF, 0xFF] = 0xFFFF := by decide

theorem witness_EncodedPacketVerifies : cfgS.WF ∧ IsPacketOf cfgS 0x02 [0xFD, 0xFD] (pk cfgS 0x02 [0xFD, 0xFD]) :=
  ⟨by decide, isPacketOf_pk (by decide)⟩

/-- Payload `41 42 43` in `EX`: the sequence byte, the first and the last checked byte, a length made too long, the first
and the last tail byte. -/
theorem witness_SingleBitFlipDetection :
    Config.ex.WF ∧ IsPacketOf Config.ex 0x05 [0x41, 0x42, 0x43] (pk Config.ex 0x05 [0x41, 0x42, 0x43]) ∧
    (0 < Config.ex.P ∧ 2 < 4 + [0x41, 0x42, 0x43].length ∧ 6 < 4 + [0x41, 0x42, 0x43].length) ∧
    Config.ex.C < pktLen (flipBit (pk Config.ex 0x05 [0x41, 0x42, 0x43]) 1 6) ∧
    (4 + [0x41, 0x42, 0x43].length ≤ 7 ∧ 63 < Config.ex.P) :=
  ⟨by decide, isPacketOf_pk (by decide), by decide, by decide, by decide⟩

theorem witness_CkSumResult :
    ([] : Bytes).length < 2 ^ 16 ∧
    (∀ n1 n0 data, ([0x00] : Bytes) = n1 :: n0 :: data → data.length ≠ n1.toNat * 256 + n0.toNat) ∧
    (∀ n1 n0 data, ([0x00, 0x02, 0xAA] : Bytes) = n1 :: n0 :: data → data.length ≠ n1.toNat * 256 + n0.toNat) := by
  refine ⟨by decide, by simp, ?_⟩
  intro n1 n0 data h
  simp only [List.cons.injEq] at h
  obtain ⟨rfl, rfl, rfl⟩ := h
  decide

theorem witness_CkVerifyResult :
    (pk cfgS 0x00 []).length = (State.resetOf cfgS).cfg.P ∧ verify cfgS (pk cfgS 0x00 []) = true ∧
    verify cfgS (List.replicate 8 0x00) = false ∧ (List.replicate 7 (0x00 : Byte)).length ≠ (State.resetOf cfgS).cfg.P := by
  decide

theorem witness_PktEncodeResult :
    (State.resetOf cfgS).cfg.WF ∧ (List.replicate 4 (0x00 : Byte)).length ≤ (State.resetOf cfgS).cfg.C ∧
    (State.resetOf cfgS).cfg.C < (List.replicate 5 (0x00 : Byte)).length ∧
    (∀ seq l data, ([0x00, 0x3D] : Bytes) = seq :: l :: data → data.length ≠ l.toNat) := by
  refine ⟨by decide, by decide, by decide, ?_⟩
  intro seq l data h
  simp only [List.cons.injEq] at h
  obtain ⟨rfl, rfl, rfl⟩ := h
  decide

/-- A last chunk of one byte and a whole one. -/
theorem witness_SegmentationCutsTheMessage :
    cfgS.WF ∧ (chunks cfgS (List.replicate 5 0x00))[0]? = some (List.replicate 4 0x00) ∧
    (chunks cfgS (List.replicate 5 0x00))[1]? = some [0x00] ∧ 0 + 1 < (chunks cfgS (List.replicate 5 0x00)).length ∧
    1 + 1 = (chunks cfgS (List.replicate 5 0x00)).length := by decide

/-- A message one byte too long, one that just is not, stored whole, in part and not at all. -/
theorem witness_SndMsgOutcome :
    cfgS.WF ∧ (holding cfgS 2 0xFF [[0x07], [0x08]]).snd.IndexInv cfgS ∧
    cfgS.maxMsg < (List.replicate 10 (0x00 : Byte)).length ∧ (List.replicate 9 (0x00 : Byte)).length ≤ cfgS.maxMsg ∧
    min ((4 + cfgS.C - 1) / cfgS.C) (cfgS.maxBuffer - (holding cfgS 2 0xFF [[0x07], [0x08]]).snd.count) = 1 ∧
    min ((9 + cfgS.C - 1) / cfgS.C) (cfgS.maxBuffer - (holding cfgS 2 0xFF [[0x07], [0x08]]).snd.count) = 1 ∧
    min ((9 + cfgS.C - 1) / cfgS.C) (cfgS.maxBuffer - (holding cfgS 1 0x00 [[0x00], [0x01], [0x02]]).snd.count) = 0 := by
  decide

/-- The same hypotheses for the three other statements of `SND_MSG`, from an empty and from a partly filled buffer. -/
theorem witness_SndMsgRegisters :
    cfgS.WF ∧ (holding cfgS 1 0x00 []).snd.IndexInv cfgS ∧ (holding cfgS 2 0xFF [[0x07]]).snd.IndexInv cfgS ∧
    List.replicate 9 (0x00 : Byte) ≠ [] ∧ (List.replicate 9 (0x00 : Byte)).length ≤ cfgS.maxMsg := by decide

/-- With two chunks stored from slot 0 on, address 15 is inside them and address 16 outside. -/
theorem witness_SndMsgStoresChunks :
    cfgS.WF ∧ (holding cfgS 2 0xFF [[0x07]]).snd.IndexInv cfgS ∧ List.replicate 9 (0x00 : Byte) ≠ [] ∧
    (List.replicate 9 (0x00 : Byte)).length ≤ cfgS.maxMsg ∧
    (∀ j, j < 2 → 16 < slotAddr cfgS (slotAdd cfgS 0 j) 0 ∨ slotAddr cfgS (slotAdd cfgS 0 j) cfgS.P ≤ 16) ∧
    ¬ (∀ j, j < 2 → 15 < slotAddr cfgS (slotAdd cfgS 0 j) 0 ∨ slotAddr cfgS (slotAdd cfgS 0 j) cfgS.P ≤ 15) := by decide

/-- Positions 1 and 2 of a window of 2: the last inside it and the first beyond. -/
theorem witness_SndMsgTransmits :
    cfgS.WF ∧ (holding cfgS 2 0xFF [[0x07]]).snd.IndexInv cfgS ∧ List.replicate 9 (0x00 : Byte) ≠ [] ∧
    (List.replicate 9 (0x00 : Byte)).length ≤ cfgS.maxMsg ∧
    (holding cfgS 2 0xFF [[0x07]]).snd.count + 0 < cfgS.winSize ∧
    ¬ (holding cfgS 2 0xFF [[0x07]]).snd.count + 1 < cfgS.winSize := by decide

/-- The last packet of the window acknowledged. -/
theorem witness_SndAckAdvances :
    let s := holding cfgS 1 0x00 [[0x00], [0x01], [0x02]]
    let p := pk cfgS 0x01 []
    cfgS.WF ∧ s.snd.IndexInv cfgS ∧ p.length = cfgS.P ∧ verify cfgS p = true ∧
    1 = ((byteAt p 0).toNat + 256 - (byteAt (s.snd.slotBytes s.cfg s.snd.base 1) 0).toNat) % 256 ∧
    1 < cfgS.winSize ∧ 1 < s.snd.count := by decide +kernel

/-- Corrupted; idle; stale at `interval = WIN_SIZE` with a packet there, and at `interval = count` inside the window; and the
last one accepted. -/
theorem witness_SndAckTests :
    let three := holding cfgS 1 0x00 [[0x00], [0x01], [0x02]]
    let one := holding cfgS 1 0x00 [[0x00]]
    let none := holding cfgS 1 0x00 []
    let interval := fun (s : State) (p : Bytes) =>
      ((byteAt p 0).toNat + 256 - (byteAt (s.snd.slotBytes s.cfg s.snd.base 1) 0).toNat) % 256
    cfgS.WF ∧ three.snd.IndexInv cfgS ∧ one.snd.IndexInv cfgS ∧ none.snd.IndexInv cfgS ∧
    (pk cfgS 0x02 []).length = cfgS.P ∧ (List.replicate 8 (0x00 : Byte)).length = cfgS.P ∧
    verify cfgS (List.replicate 8 0x00) = false ∧
    (verify cfgS (pk cfgS 0x02 []) = true ∧ none.snd.count = 0) ∧
    (interval three (pk cfgS 0x02 []) = cfgS.winSize ∧ cfgS.winSize < three.snd.count) ∧
    (interval one (pk cfgS 0x01 []) = one.snd.count ∧ one.snd.count < cfgS.winSize) ∧
    (interval three (pk cfgS 0x01 []) = 1 ∧ 1 < cfgS.winSize ∧ 1 < three.snd.count) := by decide +kernel

/-- `d = 254 = 256 - WIN_SIZE` is stale; `d = 255` with two packets stored is taken as new. -/
theorem witness_OldAcknowledgmentStaleOrAliased :
    let s := holding cfgS 1 0x00 [[0x00], [0x01], [0x02]]
    cfgS.WF ∧ s.snd.IndexInv cfgS ∧ (pk cfgS 0x02 []).length = cfgS.P ∧ (pk cfgS 0x01 []).length = cfgS.P ∧
    verify cfgS (pk cfgS 0x02 []) = true ∧ verify cfgS (pk cfgS 0x01 []) = true ∧ 0 < s.snd.count ∧
    (byteAt (pk cfgS 0x02 []) 0 = byteAt (s.snd.slotBytes s.cfg s.snd.base 1) 0 - BitVec.ofNat 8 254 ∧
      254 ≤ 256 - cfgS.winSize) ∧
    (byteAt (pk cfgS 0x01 []) 0 = byteAt (s.snd.slotBytes s.cfg s.snd.base 1) 0 - BitVec.ofNat 8 255 ∧
      256 - cfgS.winSize < 255 ∧ 256 - 255 < s.snd.count) := by decide +kernel

/-- One packet outstanding after `acked` were acknowledged, and a sentinel acknowledgment still on the channel. -/
def sentinelLate (acked : Nat) : State :=
  let s := holding cfgS 1 (BitVec.ofNat 8 acked) [[0x00]]
  { s with
    snd := { s.snd with trace := [⟨[], .ackAdvanced (acked - 1), []⟩] }
    rcv := { s.rcv with trace := [⟨[], .rxDuplicate 0x03, [.pktOut (pk cfgS 0xFF [])]⟩] } }

/-- Packet 0 outstanding and on the channel, and accepted already. -/
def acceptedAlready : State :=
  let s := holding cfgS 1 0x00 [[0x11]]
  { s with
    snd := { s.snd with trace := [⟨[], .msgAccepted 1, [.pktOut (pk cfgS 0x00 [0x11])]⟩] }
    rcv := { s.rcv with expectedSeq := 0x01, ackValid := true, trace := [⟨[], .rxAccepted 0x00, []⟩] } }

/-- At `SND`, the sentinel (number -1) at the last window start that still admits it, 253; one later, 254, the duty rules its
delivery out. At `RCV`, a packet accepted already. -/
theorem witness_DutyC4MakesPassedAcksStale :
    let s := sentinelLate 253
    let late := sentinelLate 254
    let r := acceptedAlready
    let ack := pk cfgS 0xFF []
    let pkt := pk cfgS 0x00 [0x11]
    (s.Inv ∧ s.ChannelInv ∧ ack.length = s.cfg.P ∧ verify s.cfg ack = true ∧ 0 < s.snd.count ∧
      DutyC4 s (.command .snd (encode (.sndAck ack))) ∧ s.numbered .rcv = [(-1, ack)] ∧ s.acked = 253) ∧
    ¬ DutyC4 late (.command .snd (encode (.sndAck ack))) ∧
    (r.Inv ∧ r.ChannelInv ∧ pkt.length = r.cfg.P ∧ verify r.cfg pkt = true ∧
      DutyC4 r (.command .rcv (encode (.rcvPkt pkt))) ∧ r.numbered .snd = [(0, pkt)] ∧ (0 : Int) < r.accepted) := by
  have hs : (sentinelLate 253).numbered .rcv = [(-1, pk cfgS 0xFF [])] := by decide +kernel
  have hl : (sentinelLate 254).numbered .rcv = [(-1, pk cfgS 0xFF [])] := by decide +kernel
  have hr : acceptedAlready.numbered .snd = [(0, pk cfgS 0x00 [0x11])] := by decide +kernel
  have ds : Input.delivery cfgS (.command .snd (encode (.sndAck (pk cfgS 0xFF [])))) = some (.snd, pk cfgS 0xFF []) := rfl
  have dr : Input.delivery cfgS (.command .rcv (encode (.rcvPkt (pk cfgS 0x00 [0x11])))) =
      some (.rcv, pk cfgS 0x00 [0x11]) := rfl
  refine ⟨⟨?_, ?_, by decide, by decide, by decide, ?_, hs, by decide⟩, ?_, ?_, ?_, by decide, by decide, ?_, hr, by decide⟩
  · exact inv_of (by decide) (by decide) (by decide +kernel) (by decide +kernel) (by decide) (by decide)
  · exact ⟨by intro u; cases u <;> decide, by decide, by decide, by decide +kernel, by rw [hs]; decide⟩
  · intro u p hd
    cases ds.symm.trans hd
    exact ⟨_, by rw [peer, hs]; exact List.mem_cons_self, .inl rfl, by decide⟩
  · intro hd
    obtain ⟨x, hx, -, hn⟩ := hd _ _ ds
    rw [peer, hl, List.mem_singleton] at hx
    subst hx
    revert hn
    decide
  · exact inv_of (by decide) (by decide) (by decide +kernel) (by decide +kernel) (by decide) (by decide)
  · exact ⟨by intro u; cases u <;> decide, by decide, by decide, by rw [hr]; decide, by decide +kernel⟩
  · intro u p hd
    cases dr.symm.trans hd
    exact ⟨_, by rw [peer, hr]; exact List.mem_cons_self, .inl rfl, by decide⟩

theorem witness_SentinelNeverAcknowledges :
    let s := holding cfgS 1 0x00 [[0x00], [0x01], [0x02]]
    s.Inv ∧ s.rcv.ackValid = false ∧ IsPacketOf s.cfg s.rcv.ackSeqByte [] (pk cfgS 0xFF []) ∧ 0 < s.snd.count ∧
    byteAt (s.snd.slotBytes s.cfg s.snd.base 1) 0 = 0x00 :=
  ⟨holding_three_inv, by decide, isPacketOf_pk (by decide), by decide, by decide +kernel⟩

/-- Eleven packets of one byte outstanding: one of positions 10, 11 and 12 holds a packet. -/
def elevenOut : State := holding cfgD 0 0x00 ((List.range 11).map fun i => [BitVec.ofNat 8 i])

theorem witness_ScenarioDSlidesByThree :
    elevenOut.Inv ∧ elevenOut.cfg.winSize = 10 ∧ 10 ≤ elevenOut.snd.count ∧
    IsPacketOf elevenOut.cfg (elevenOut.snd.seqAt 2) [] (pk cfgD 0x02 []) :=
  ⟨inv_of (by decide) (by decide) (by decide +kernel) (by decide +kernel) (by decide) (by decide), by decide, by decide,
    isPacketOf_pk (by decide)⟩

theorem witness_SndTimeoutRetransmits :
    (holding cfgS 1 0x00 []).snd.count = 0 ∧ (holding cfgS 2 0xFF [[0x07], [0x08]]).cfg.WF ∧
    0 < (holding cfgS 2 0xFF [[0x07], [0x08]]).snd.count ∧ ([0x00] : Bytes) ≠ [] := by decide

/-- A message of two chunks, the whole window. -/
theorem witness_ScenarioCResendsTheSamePackets :
    let s := holding cfgS 2 0xFF []
    let msg : Bytes := List.replicate 8 0x41
    s.cfg.WF ∧ s.snd.IndexInv s.cfg ∧ s.snd.count = 0 ∧ msg ≠ [] ∧ msg.length ≤ s.cfg.maxMsg ∧
    (msg.length + s.cfg.C - 1) / s.cfg.C ≤ s.cfg.winSize ∧ (msg.length + s.cfg.C - 1) / s.cfg.C ≤ s.cfg.maxBuffer := by
  decide

theorem witness_EmptyingAckThenExpiryIsQuiescent :
    let s := holding cfgS 2 0xFF [[0x07], [0x08, 0x09]]
    s.Inv ∧ 0 < s.snd.count ∧ s.snd.count ≤ s.cfg.winSize ∧ IsPacketOf s.cfg (s.snd.nextSeq - 1) [] (pk cfgS 0x00 []) :=
  ⟨holding_two_inv, by decide, by decide, isPacketOf_pk (by decide)⟩

/-- A message, then an acknowledgment, in two steps. -/
theorem witness_AcknowledgedNeverExceedsProduced :
    let s := { holding cfgS 1 0x00 [] with
      inputs := [.command .snd (encode (.sndMsg [0x41])), .command .snd (encode (.sndAck (pk cfgS 0x00 [])))] }
    s.Inv ∧ (∀ u, Input.reset u ∉ s.inputs) ∧ Input.resetBoth ∉ s.inputs ∧ ∃ t, runSteps 2 s = .next t :=
  ⟨inv_of (by decide) (by decide) (by decide) (by decide) (by decide) (by decide), by intro u; simp, by simp, _, rfl⟩

theorem witness_AcknowledgmentBytes :
    cfgS.WF ∧ (Receiver.reset.accept 0xFF).ackValid = true ∧ Receiver.reset.ackValid = false := by decide

theorem witness_RcvPktAccepts :
    let s := State.resetOf cfgS
    s.cfg.WF ∧ (pk cfgS 0x00 []).length = s.cfg.P ∧ verify s.cfg (pk cfgS 0x00 []) = true ∧
    byteAt (pk cfgS 0x00 []) 0 = s.rcv.expectedSeq := by decide

theorem witness_RcvPktReacknowledges :
    let s := State.resetOf cfgS
    let after := { s with rcv := s.rcv.accept 0x00 }
    s.cfg.WF ∧ (pk cfgS 0x03 [0x01]).length = s.cfg.P ∧ verify s.cfg (pk cfgS 0x03 [0x01]) = true ∧
    byteAt (pk cfgS 0x03 [0x01]) 0 ≠ s.rcv.expectedSeq ∧ byteAt (pk cfgS 0x03 [0x01]) 0 ≠ after.rcv.expectedSeq := by
  decide

theorem witness_RcvPktCorrupted :
    let s := State.resetOf cfgS
    let s' := State.resetOf { cfgS with ackOnCorrupt := true }
    s.cfg.WF ∧ s'.cfg.WF ∧ (List.replicate 8 (0x00 : Byte)).length = s.cfg.P ∧
    verify s.cfg (List.replicate 8 0x00) = false ∧ verify s'.cfg (List.replicate 8 0x00) = false ∧
    s.cfg.ackOnCorrupt = false ∧ s'.cfg.ackOnCorrupt = true ∧ ([] : Bytes).length ≠ s.cfg.P := by decide

theorem witness_AckByteIsExpectedMinusOne : (holding cfgS 2 0xFF [[0x07], [0x08, 0x09]]).Inv := holding_two_inv

/-- One expected packet, then an expiry, in two steps. -/
theorem witness_DeliveryInSequenceOrder :
    let s := facing cfgS [.command .rcv (encode (.rcvPkt (pk cfgS 0x00 [0x11]))), .command .snd [0x03]]
    (∀ u, Input.reset u ∉ s.inputs) ∧ Input.resetBoth ∉ s.inputs ∧ ∃ t, runSteps 2 s = .next t :=
  ⟨by intro u; simp [facing], by simp [facing], _, rfl⟩

theorem witness_LosslessMessageReachesTheApplication :
    let s := holding cfgS 1 0x00 []
    let msg : Bytes := List.replicate 8 0x41
    s.Inv ∧ s.snd.count = 0 ∧ s.rcv.expectedSeq = s.snd.nextSeq ∧ msg ≠ [] ∧ msg.length ≤ s.cfg.maxMsg ∧
    (msg.length + s.cfg.C - 1) / s.cfg.C ≤ s.cfg.winSize ∧ (msg.length + s.cfg.C - 1) / s.cfg.C ≤ s.cfg.maxBuffer :=
  ⟨holding_none_inv, by decide, by decide, by decide, by decide, by decide, by decide⟩

theorem witness_OneRoundOfRecoveryFreesTheWindow :
    let s := holding cfgS 1 0x00 [[0x00], [0x01], [0x02]]
    s.Inv ∧ 0 < s.snd.count ∧ s.rcv.expectedSeq = s.snd.seqAt 0 :=
  ⟨holding_three_inv, by decide, by decide⟩

/-- Each order completes. -/
theorem witness_UnitsDoNotInterfere :
    Instr.sndTimeout.unit = .snd ∧ (Instr.ckSum .rcv [0x01]).unit = .rcv ∧
    (∃ s1 s2, exec .sndTimeout State.reset = .next s1 ∧ exec (.ckSum .rcv [0x01]) s1 = .next s2) ∧
    (∃ s1 s2, exec (.ckSum .rcv [0x01]) State.reset = .next s1 ∧ exec .sndTimeout s1 = .next s2) :=
  ⟨rfl, rfl, ⟨_, _, rfl, rfl⟩, ⟨_, _, rfl, rfl⟩⟩

/-- One transaction of each operation, and one more unit for a codec command. -/
theorem witness_AccessMatrix :
    ∃ t1 t2 t3 t4 t5 t6 t7, exec (.sndMsg [0x41]) (State.resetOf cfgS) = .next t1 ∧
      exec (.sndAck (pk cfgS 0x00 [])) (State.resetOf cfgS) = .next t2 ∧ exec .sndTimeout (State.resetOf cfgS) = .next t3 ∧
      exec (.rcvPkt (pk cfgS 0x00 [])) (State.resetOf cfgS) = .next t4 ∧
      exec (.ckSum .snd []) (State.resetOf cfgS) = .next t5 ∧
      exec (.ckVerify .rcv (pk cfgS 0x00 [])) (State.resetOf cfgS) = .next t6 ∧
      exec (.pktEncode .rcv 0x00 []) (State.resetOf cfgS) = .next t7 :=
  ⟨_, _, _, _, _, _, _, rfl, rfl, rfl, rfl, rfl, rfl, rfl⟩

/-- Two packets outstanding in slots 2 and 0, and a byte of the stale slot 1 that differs. -/
theorem witness_StaleSlotsUnobservable :
    let s := holding cfgS 2 0xFF [[0x07], [0x08, 0x09]]
    let s' := { s with snd := { s.snd with buf := s.snd.buf.set 8 0xEE } }
    s.cfg.WF ∧ s.snd.IndexInv s.cfg ∧ s'.cfg = s.cfg ∧ s'.rcv = s.rcv ∧ s'.refusalMark = s.refusalMark ∧
    s'.inputs = s.inputs ∧ s'.epoch = s.epoch ∧ s.snd.AgreesOutstanding s.cfg s'.snd ∧
    ∃ t, exec .sndTimeout s = .next t :=
  ⟨by decide, by decide, rfl, rfl, rfl, rfl, rfl, ⟨rfl, rfl, rfl, rfl, rfl, rfl, rfl, by decide +kernel⟩, _, rfl⟩

/-- Two packets with one payload byte that differ in the last tail byte, and two with an illegal length (one past `C`) that
differ in the first byte after the header. -/
theorem witness_ReceivedTailNeverRead :
    let s := State.resetOf cfgS
    let p := pk cfgS 0x00 [0x11]
    let premise := fun p q : Bytes =>
      if pktLen p ≤ s.cfg.C then p.take (4 + pktLen p) = q.take (4 + pktLen p) else p.take 4 = q.take 4
    let bad : Bytes := [0x00, 0x05, 0x00, 0x00, 0x00, 0x00, 0x00, 0x00]
    s.cfg.WF ∧ s.snd.IndexInv s.cfg ∧ p.length = s.cfg.P ∧ (p.set 7 0xEE).length = s.cfg.P ∧ p ≠ p.set 7 0xEE ∧
    pktLen p ≤ s.cfg.C ∧ premise p (p.set 7 0xEE) ∧
    bad.length = s.cfg.P ∧ (bad.set 4 0xEE).length = s.cfg.P ∧ bad ≠ bad.set 4 0xEE ∧ s.cfg.C < pktLen bad ∧
    premise bad (bad.set 4 0xEE) := by decide

theorem witness_EveryEmittedPacketVerifies :
    let s := holding cfgS 1 0x00 [[0x00], [0x01], [0x02]]
    s.Inv ∧ ∃ t e p, exec .sndTimeout s = .next t ∧ t.traceOf Instr.sndTimeout.unit = s.traceOf Instr.sndTimeout.unit ++ [e] ∧
      .pktOut p ∈ e.actions :=
  ⟨holding_three_inv, _, _, _, rfl, rfl, List.mem_cons_self⟩

theorem witness_UnitsEmitTheirOwnActions :
    (∃ t e a, exec .sndTimeout State.reset = .next t ∧ t.traceOf .snd = State.reset.traceOf .snd ++ [e] ∧ a ∈ e.actions) ∧
    (∃ t e a, exec (.rcvPkt (pk cfgS 0x00 [])) (State.resetOf cfgS) = .next t ∧
      t.traceOf .rcv = (State.resetOf cfgS).traceOf .rcv ++ [e] ∧ a ∈ e.actions) :=
  ⟨⟨_, _, _, rfl, rfl, List.mem_cons_self⟩, ⟨_, _, _, rfl, rfl, List.mem_cons_self⟩⟩

/-- An expiry that stops the timer, an expiry that restarts it, and a transaction that leaves it. -/
theorem witness_TimerFollowsTheActions :
    let one := holding cfgS 1 0x00 [[0x00]]
    (∃ t e, Instr.sndTimeout.unit = .snd ∧ exec .sndTimeout State.reset = .next t ∧
      t.snd.trace = State.reset.snd.trace ++ [e] ∧ .timerStop ∈ e.actions) ∧
    (∃ t e, exec .sndTimeout one = .next t ∧ t.snd.trace = one.snd.trace ++ [e] ∧ .timerStart ∈ e.actions) ∧
    (∃ t e, (Instr.sndMsg []).unit = .snd ∧ exec (.sndMsg []) one = .next t ∧ t.snd.trace = one.snd.trace ++ [e] ∧
      e.actions = []) :=
  ⟨⟨_, _, rfl, rfl, rfl, List.mem_cons_self⟩, ⟨_, _, rfl, rfl, List.mem_cons_of_mem _ List.mem_cons_self⟩,
    ⟨_, _, rfl, rfl, rfl, rfl⟩⟩

theorem witness_FirstTransmissionsFillTheWindow :
    let empty := holding cfgS 1 0x00 []
    let three := holding cfgS 1 0x00 [[0x00], [0x01], [0x02]]
    empty.cfg.WF ∧ empty.snd.IndexInv empty.cfg ∧ three.snd.IndexInv three.cfg ∧
    (∃ t e, exec (.sndMsg [0x41]) empty = .next t ∧ t.snd.trace = empty.snd.trace ++ [e] ∧
      (Instr.sndMsg [0x41]).op = .sndMsg) ∧
    (∃ t e, exec (.sndAck (pk cfgS 0x01 [])) three = .next t ∧ t.snd.trace = three.snd.trace ++ [e] ∧
      (Instr.sndAck (pk cfgS 0x01 [])).op = .sndAck ∧ e.outcome = .ackAdvanced 1) :=
  ⟨by decide, by decide, by decide, ⟨_, _, rfl, rfl, rfl⟩, ⟨_, _, rfl, rfl, rfl, by decide +kernel⟩⟩

theorem witness_ResetMeetsTheInvariants : cfgS.WF ∧ cfgD.WF ∧ Config.ex.WF := by decide

/-- The invariants in the middle of a run, with a command, a reset of one unit, and nothing to come; and with the numbers of
packets kept, an expiry to come, and a reset of both. -/
theorem witness_StepKeepsTheInvariants :
    let s := holding cfgS 2 0xFF [[0x07], [0x08, 0x09]]
    let r := acceptedAlready
    (s.Inv ∧ (∃ t, step s = .next t) ∧ (∃ t, step { s with inputs := [.command .snd [0x03]] } = .next t) ∧
      (∃ t, step { s with inputs := [.reset .snd] } = .next t)) ∧
    r.Inv ∧ r.ChannelInv ∧ (∃ t, step { r with inputs := [.command .snd [0x03]] } = .next t) ∧
      (∃ t, step { r with inputs := [.resetBoth] } = .next t) ∧
      ∀ u rest, [Input.command .snd [0x03]] ≠ .reset u :: rest :=
  ⟨⟨holding_two_inv, ⟨_, rfl⟩, ⟨_, rfl⟩, ⟨_, rfl⟩⟩, witness_DutyC4MakesPassedAcksStale.2.2.1,
    witness_DutyC4MakesPassedAcksStale.2.2.2.1, ⟨_, rfl⟩, ⟨_, rfl⟩, by simp⟩

theorem witness_StepKeepsTheBufferCanonical :
    let s := { holding cfgS 2 0xFF [[0x07], [0x08, 0x09]] with inputs := [.command .snd [0x03]] }
    s.snd.BufInv s.cfg ∧ ∃ t, step s = .next t :=
  ⟨by decide +kernel, _, rfl⟩

theorem witness_NoStepStops : (holding cfgS 2 0xFF [[0x07], [0x08, 0x09]]).Inv := holding_two_inv

theorem witness_EveryCommandRecordsOneOutcome :
    let s := { holding cfgS 2 0xFF [[0x07], [0x08, 0x09]] with inputs := [.command .rcv [0x24]] }
    s.Inv ∧ s.inputs = .command .rcv [0x24] :: [] :=
  ⟨inv_of (by decide) (by decide) (by decide +kernel) (by decide +kernel) (by decide) (by decide), rfl⟩

/-- Rows F2 and F10 (refused by the decoder, and by the meaning), a command that runs after a refusal, and a reset. -/
theorem witness_RefusalsWriteOnlyTheMark :
    let f2 := facing cfgS [.command .snd [0x00]]
    let f10 := facing cfgS [.command .snd [0x23, 0x00, 0x05, 0x00, 0x00, 0x00, 0x00, 0x00]]
    let marked := { facing cfgS [.command .snd [0x03]] with refusalMark := true }
    (∃ t e, step f2 = .next t ∧ t.traceOf .snd = f2.traceOf .snd ++ [e] ∧
      e.outcome = .refused (.illegalOp (some 0x00))) ∧
    (∃ t e, step f10 = .next t ∧ t.traceOf .snd = f10.traceOf .snd ++ [e] ∧
      e.outcome = .refused (.badPayloadLen 5)) ∧
    (∃ t e, step marked = .next t ∧ t.traceOf .snd = marked.traceOf .snd ++ [e] ∧ ∀ r, e.outcome ≠ .refused r) ∧
    (∃ t, step (facing cfgS [.reset .rcv]) = .next t ∧
      ∀ u cmd rest, (facing cfgS [.reset .rcv]).inputs ≠ .command u cmd :: rest) :=
  ⟨⟨_, _, rfl, rfl, rfl⟩, ⟨_, _, rfl, rfl, rfl⟩, ⟨_, _, rfl, rfl, by intro r; simp⟩,
    ⟨_, rfl, by intro u cmd rest; simp [facing]⟩⟩

theorem witness_OutstandingPacketsAreNumbered :
    (holding cfgS 2 0xFF [[0x07], [0x08, 0x09]]).Inv ∧ 1 < (holding cfgS 2 0xFF [[0x07], [0x08, 0x09]]).snd.count :=
  ⟨holding_two_inv, by decide⟩

theorem witness_RegistersFitTheirWidths : (holding cfgS 1 0x00 [[0x00], [0x01], [0x02]]).Inv := holding_three_inv

/-- A well-formed command of each operation, at an edge of its length. -/
theorem witness_DecodeOfEncode :
    (Instr.sndMsg []).wf cfgS = true ∧ (Instr.sndAck (List.replicate 8 0xFF)).wf cfgS = true ∧
    Instr.sndTimeout.wf cfgS = true ∧ (Instr.rcvPkt (List.replicate 8 0xFF)).wf cfgS = true ∧
    (Instr.ckSum .rcv []).wf cfgS = true ∧ (Instr.ckVerify .rcv (List.replicate 8 0xFF)).wf cfgS = true ∧
    (Instr.pktEncode .rcv 0xFF (List.replicate 255 0xFF)).wf cfgS = true := by decide +kernel

theorem witness_EncodeOfDecode :
    decode cfgS .rcv [0x23, 0x05, 0x01, 0x41] = .ok (.pktEncode .rcv 0x05 [0x41]) := rfl

/-- The first and the last code of every gap (the last of all is `0xFF`), the codes of the other unit at their edges, and an
accepted code. -/
theorem witness_IllegalOperationCodes :
    (∀ op ∈ ([0x00, 0x04, 0x10, 0x12, 0x20, 0x24, 0xFF] : List Byte), ∀ u,
      decode cfgS u [op] = .error (.illegalOp (some op))) ∧
    decode cfgS .snd [0x11] = .error (.illegalOp (some 0x11)) ∧
    decode cfgS .rcv [0x01] = .error (.illegalOp (some 0x01)) ∧ decode cfgS .rcv [0x03] = .error (.illegalOp (some 0x03)) ∧
    decode cfgS .snd [0x21] = .error (.badLength 1) := by
  refine ⟨?_, rfl, rfl, rfl, rfl⟩
  simp only [List.forall_mem_cons]
  refine ⟨?_, ?_, ?_, ?_, ?_, ?_, ?_, by simp⟩ <;> intro u <;> cases u <;> rfl

/-- `03 00` (row F6), an acknowledgment of no packet, and an `SND_MSG` shorter than its length field says (row F8) are the
encodings of no command of `SND`. -/
theorem witness_OtherLengthsAreRefused :
    ∀ x ∈ ([(.sndTimeout, [0x03, 0x00]), (.sndAck, [0x02]), (.sndMsg, [0x01, 0x00, 0x00, 0x00, 0x05, 0x41])] :
        List (Op × Bytes)),
      x.2.head? = some x.1.code ∧ x.1.acceptedBy .snd = true ∧
      ∀ i : Instr, i.wf cfgS = true → i.unit = .snd → encode i ≠ x.2 := by
  simp only [List.forall_mem_cons]
  refine ⟨⟨rfl, rfl, ?_⟩, ⟨rfl, rfl, ?_⟩, ⟨rfl, rfl, ?_⟩, by simp⟩ <;> intro i hw _ h
  · cases i <;> simp [encode, encodeOperands, Instr.op, Op.code] at h
  · cases i <;> simp [encode, encodeOperands, Instr.op, Op.code] at h
    subst h
    exact absurd hw (by decide)
  · cases i <;> simp [encode, encodeOperands, Instr.op, Op.code] at h
    obtain ⟨-, -, -, h0, rfl⟩ := h
    exact absurd h0 (by decide)

/-- The longest message and result whose length field can say their length, and two equal layouts. -/
theorem witness_ActionEncodingIsInjective :
    (List.replicate 255 (0x00 : Byte)).length < 2 ^ 8 ∧ (List.replicate 65535 (0x00 : Byte)).length < 2 ^ 16 ∧
    (Action.msgOut [0x41]).encode = (Action.msgOut [0x41]).encode := by
  simp only [List.length_replicate]; decide

theorem witness_StepRunsTheDecodedCommand :
    let s := facing cfgS [.command .rcv [0x21, 0x00, 0x00]]
    s.cfg.WF ∧ (Instr.ckSum .rcv []).wf s.cfg = true ∧
    s.inputs = .command (Instr.ckSum .rcv []).unit (encode (.ckSum .rcv [])) :: [] := by decide

theorem witness_StepResetsAndIdles :
    cfgS.WF ∧ (facing cfgS []).inputs = [] ∧ (facing cfgS [.reset .snd]).inputs = .reset .snd :: [] ∧
    (facing cfgS [.reset .rcv]).inputs = .reset .rcv :: [] ∧ (facing cfgS [.resetBoth]).inputs = .resetBoth :: [] := by
  decide

/-- The least and the greatest admitted value of every parameter, and the values just outside. -/
theorem witness_OnlyBadConfigurationsAreRefused :
    (∀ p ∈ [5, 259], ({ cfgS with P := p } : Config).WF) ∧ (∀ p ∈ [4, 260], ¬ ({ cfgS with P := p } : Config).WF) ∧
    (∀ w ∈ [1, 255], ({ cfgS with winSize := w } : Config).WF) ∧ (∀ w ∈ [0, 256], ¬ ({ cfgS with winSize := w } : Config).WF) ∧
    ({ cfgS with maxBuffer := 1 } : Config).WF ∧ ¬ ({ cfgS with maxBuffer := 0 } : Config).WF ∧
    ({ cfgS with maxMsg := 2 ^ 32 - 1 } : Config).WF ∧ ¬ ({ cfgS with maxMsg := 2 ^ 32 } : Config).WF := by decide

/-- A message, a sum and a payload at the edge of what a line can spell or a packet hold, and a line that decodes. -/
theorem witness_ScriptLinesPresentTheirCommands :
    cfgS.WF ∧ ((ByteExpr.ramp 9 0xFE).eval cfgS).length < 2 ^ 32 ∧
    ((ByteExpr.fill 255 0x00).eval cfgS).length < 2 ^ 8 ∧ ((ByteExpr.hex []).eval cfgS).length < 2 ^ 16 ∧
    ((ByteExpr.fill 4 0x00).eval cfgS).length ≤ cfgS.C ∧
    (Directive.tick).instr? cfgS .snd = some .sndTimeout ∧ Instr.sndTimeout.wf cfgS = true ∧
    Instr.sndTimeout.unit = .snd := by decide +kernel

/-- An expiry over one packet emits a packet, which the channel then holds and delivers to `RCV`; after a joint reset the
same delivery breaks the duty. -/
theorem witness_ChannelIsEmptyAfterJointReset :
    let s := holding cfgS 1 0x00 [[0x00]]
    let p := s.snd.packetAt s.cfg 0
    let ev : Input := .command .rcv (encode (.rcvPkt p))
    let s' := { s with inputs := [.resetBoth] }
    s'.cfg.WF ∧ s'.inputs = .resetBoth :: [] ∧ s.EpochInv ∧
    ∃ t e, exec .sndTimeout s = .next t ∧ t.traceOf Instr.sndTimeout.unit = s.traceOf Instr.sndTimeout.unit ++ [e] ∧
      .pktOut p ∈ e.actions ∧ ev.delivery t.cfg = some (peer Instr.sndTimeout.unit, p) ∧
      ∃ t', step { t with inputs := [.resetBoth] } = .next t' ∧ t'.snd.trace = [e] ∧ t'.onChannel .snd = [] := by
  refine ⟨by decide, rfl, by intro u; cases u <;> exact Nat.zero_le _, _, _, rfl, rfl, List.mem_cons_self, ?_, _, rfl, rfl, rfl⟩
  decide +kernel

end Sys2Proof.Tests
end

section
/-! The step as the scope fixes it: the command that a step decodes is the command that was encoded (30_encoding.md R76,
R78), and parameters outside R6 to R9 are all that a step ever refuses. -/

namespace Sys2Proof

open Sys2Proof.Machine (be32_byteOf be16_byteOf byteOf_zero_toNat)

/-! ## Decoding an encoded command -/

/-- The op of an encoded command is assigned and accepted by the command's unit, so its operands are read. -/
theorem decode_encode_eq_decodeOperands (c : Config) (i : Instr) :
    decode c i.unit (encode i) = decodeOperands c i.unit i.op (encodeOperands i) := by
  simp only [decode, encode, Op.ofByte?_code, Instr.op_acceptedBy_unit, if_true]

/-- Each layout of R78 reads back as the operands it was written from, where they fit their length fields. -/
theorem decodeOperands_encodeOperands {c : Config} {i : Instr} (h : i.wf c = true) :
    decodeOperands c i.unit i.op (encodeOperands i) = .ok i := by
  cases i with
  | sndTimeout => rfl
  | sndMsg msg => exact if_pos (be32_byteOf (of_decide_eq_true h)).symm
  | ckSum u data => exact if_pos (be16_byteOf (of_decide_eq_true h)).symm
  | pktEncode u seq data => exact if_pos (byteOf_zero_toNat (of_decide_eq_true h)).symm
  | sndAck pkt | rcvPkt pkt | ckVerify u pkt => exact if_pos (of_decide_eq_true h)

/-- R78: at its own unit, a well-formed command decodes to itself. -/
theorem decode_encode {c : Config} {i : Instr} (h : i.wf c = true) : decode c i.unit (encode i) = .ok i :=
  (decode_encode_eq_decodeOperands c i).trans (decodeOperands_encodeOperands h)

/-! ## The bounds of R6 to R9 -/

theorem Config.not_wf_iff (c : Config) :
    ¬ c.WF ↔ c.P < 5 ∨ 259 < c.P ∨ c.winSize < 1 ∨ 256 ≤ c.winSize ∨ c.maxBuffer < 1 ∨ 2 ^ 32 - 1 < c.maxMsg := by
  unfold Config.WF
  omega

end Sys2Proof

namespace Sys2Proof.Machine

/-! ## A step on a command -/

theorem step_of_command {s : State} {u : UnitId} {cmd : Bytes} {rest : List Input} (hc : s.cfg.WF)
    (hin : s.inputs = .command u cmd :: rest) : step s = present u cmd { s with inputs := rest } := by
  rw [step_of_wf hc, hin]

theorem present_encode {s : State} {i : Instr} (h : i.wf s.cfg = true) : present i.unit (encode i) s = exec i s :=
  present_of_decode (decode_encode h)

/-! ## No meaning is missing: a transaction completes or faults, and never answers a refusal of the model -/

theorem execSndMsg_ne_refused (msg : Bytes) (s : State) (r : Refusal) : execSndMsg msg s ≠ .refused r := by
  unfold execSndMsg
  split
  · nofun
  · split
    · nofun
    · split <;> nofun

theorem execSndAck_ne_refused (pkt : Bytes) (s : State) (r : Refusal) : execSndAck pkt s ≠ .refused r := by
  unfold execSndAck
  split
  · split
    · split
      · nofun
      · split
        · dsimp only
          split
          · nofun
          · split <;> nofun
        · nofun
    · nofun
  · nofun

theorem execSndTimeout_ne_refused (s : State) (r : Refusal) : execSndTimeout s ≠ .refused r := by
  unfold execSndTimeout
  dsimp only
  split
  · nofun
  · split <;> nofun

theorem execRcvPkt_ne_refused (pkt : Bytes) (s : State) (r : Refusal) : execRcvPkt pkt s ≠ .refused r := by
  unfold execRcvPkt
  split
  · split
    · split <;> nofun
    · split <;> nofun
  · nofun

theorem execCkSum_ne_refused (u : UnitId) (data : Bytes) (s : State) (r : Refusal) :
    execCkSum u data s ≠ .refused r := by
  unfold execCkSum
  split <;> nofun

theorem execCkVerify_ne_refused (u : UnitId) (pkt : Bytes) (s : State) (r : Refusal) :
    execCkVerify u pkt s ≠ .refused r := by
  unfold execCkVerify
  split <;> nofun

theorem execPktEncode_ne_refused (u : UnitId) (seq : Byte) (data : Bytes) (s : State) (r : Refusal) :
    execPktEncode u seq data s ≠ .refused r := by
  unfold execPktEncode
  split
  · nofun
  · cases u <;> nofun

/-- Every row of the opcode table has its meaning. -/
theorem exec_ne_refused (i : Instr) (s : State) (r : Refusal) : exec i s ≠ .refused r := by
  cases i with
  | sndMsg msg => exact execSndMsg_ne_refused msg s r
  | sndAck pkt => exact execSndAck_ne_refused pkt s r
  | sndTimeout => exact execSndTimeout_ne_refused s r
  | rcvPkt pkt => exact execRcvPkt_ne_refused pkt s r
  | ckSum u data => exact execCkSum_ne_refused u data s r
  | ckVerify u pkt => exact execCkVerify_ne_refused u pkt s r
  | pktEncode u seq data => exact execPktEncode_ne_refused u seq data s r

theorem present_ne_refused (u : UnitId) (cmd : Bytes) (s : State) (r : Refusal) : present u cmd s ≠ .refused r := by
  unfold present
  split
  · exact exec_ne_refused _ _ _
  · nofun

theorem step_ne_refused_of_wf {s : State} (hc : s.cfg.WF) (r : Refusal) : step s ≠ .refused r := by
  rw [step_of_wf hc]
  split
  · nofun
  · exact present_ne_refused _ _ _ _
  · nofun
  · nofun

/-- R8: the parameters alone decide whether a step is refused, and `badConfig` is the only reason. -/
theorem step_refused_iff {s : State} {r : Refusal} : step s = .refused r ↔ ¬ s.cfg.WF ∧ r = .badConfig := by
  constructor
  · intro h
    have hc : ¬ s.cfg.WF := fun hc => step_ne_refused_of_wf hc r h
    rw [step, if_neg hc] at h
    cases h
    exact ⟨hc, rfl⟩
  · rintro ⟨hc, rfl⟩
    exact if_neg hc

/-! ## The obligations -/

/-- Settles O56: at its own unit the decoder gives back the command that was encoded. -/
theorem stepRunsTheDecodedCommand : Obligations.StepRunsTheDecodedCommand := by
  intro s i rest hc hw hin
  rw [step_of_command hc hin]
  exact present_encode hw

/-- Settles O58: no meaning answers a refusal of the model, so only the bounds on the parameters do. -/
theorem onlyBadConfigurationsAreRefused : Obligations.OnlyBadConfigurationsAreRefused := by
  intro s
  constructor
  · rw [step_refused_iff, and_iff_left rfl, Config.not_wf_iff]
  · simp only [step_refused_iff, exists_and_left, exists_eq, and_true, Config.not_wf_iff]

end Sys2Proof.Machine
end

section
/-! Packets that `encode` builds verify (R109), and what the first byte of a slot is. -/

namespace Sys2Proof.Machine

/-! ## The one's-complement sum does not depend on the order of its words (R102) -/

theorem onesAdd_comm (a b : Word16) : onesAdd a b = onesAdd b a := by
  apply BitVec.eq_of_toNat_eq
  rw [onesAdd_toNat, onesAdd_toNat, Nat.add_comm]

theorem onesAdd_assoc (a b d : Word16) : onesAdd (onesAdd a b) d = onesAdd a (onesAdd b d) := by
  have ha := a.isLt
  have hb := b.isLt
  have hd := d.isLt
  apply BitVec.eq_of_toNat_eq
  simp only [onesAdd_toNat]
  repeat' split
  all_goals omega

theorem onesAdd_zero (w : Word16) : onesAdd w 0 = w := by
  apply BitVec.eq_of_toNat_eq
  rw [onesAdd_toNat]
  exact if_pos w.isLt

theorem onesAdd_complement (w : Word16) : onesAdd (~~~ w) w = 0xFFFF := by
  have hw := w.isLt
  have hsum : 2 ^ 16 - 1 - w.toNat + w.toNat = 0xFFFF := by omega
  apply BitVec.eq_of_toNat_eq
  rw [onesAdd_toNat, BitVec.toNat_not, hsum]
  rfl

theorem foldl_onesAdd (ws : List Word16) (a b : Word16) :
    ws.foldl onesAdd (onesAdd a b) = onesAdd a (ws.foldl onesAdd b) :=
  have : Std.Associative onesAdd := ⟨onesAdd_assoc⟩
  List.foldl_assoc

/-- A checksum word counts in its field as it would if it were added to the sum with the field zeroed (R105). -/
theorem csumSum_checksumField (seq len : Byte) (w : Word16) (d : Bytes) :
    csumSum ([seq, len, hiByte w, loByte w] ++ d) = onesAdd w (csumSum ([seq, len, 0x00, 0x00] ++ d)) := by
  have hz : beWord 0x00 0x00 = 0 := rfl
  show (wordsOf d).foldl onesAdd (onesAdd (onesAdd 0 (beWord seq len)) (beWord (hiByte w) (loByte w))) =
    onesAdd w ((wordsOf d).foldl onesAdd (onesAdd (onesAdd 0 (beWord seq len)) (beWord 0x00 0x00)))
  rw [beWord_hi_lo, hz, onesAdd_zero, onesAdd_comm _ w, foldl_onesAdd]

/-- R109: the checksum complements the sum of the rest of the region, so that the whole sum is `0xFFFF`. -/
theorem IsPacketOf.verify {c : Config} (hc : c.WF) {seq : Byte} {d p : Bytes} (h : IsPacketOf c seq d p) :
    verify c p = true := by
  obtain ⟨hd, tail, -, rfl⟩ := h
  have hcap := Config.capacity_bounds hc
  have hlen : d.length < 2 ^ 8 := by omega
  have hsum : csumSum (pktRegion (buildPacket seq d tail)) = 0xFFFF := by
    rw [pktRegion_buildPacket seq tail hlen, csumSum_checksumField]
    exact onesAdd_complement _
  rw [Machine.verify, pktLen_buildPacket seq tail hlen, if_neg (by omega), hsum]
  rfl

/-! ## The packets of the window -/

theorem byteAt_slotBytes (x : Sender) (c : Config) (s : Nat) {n o : Nat} (h : o < n) :
    byteAt (x.slotBytes c s n) o = x.byteAtAddr (slotAddr c s o) := by
  simp [byteAt, Sender.slotBytes, h]

/-- The byte `SND_ACK` reads from slot `base` is the first of the oldest packet (R135). -/
theorem byteAt_base_slot {c : Config} {x : Sender} (hP : 0 < c.P) (hb : x.base < c.maxBuffer) :
    byteAt (x.slotBytes c x.base 1) 0 = byteAt (x.packetAt c 0) 0 := by
  rw [Sender.packetAt, slotAdd_zero hb, byteAt_slotBytes _ _ _ Nat.one_pos, byteAt_slotBytes _ _ _ hP]

theorem Sender.PacketInv.byteAt_packetAt {c : Config} {x : Sender} (h : x.PacketInv c) {i : Nat} (hi : i < x.count) :
    byteAt (x.packetAt c i) 0 = x.seqAt i := by
  obtain ⟨d, -, tail, -, hp⟩ := h i hi
  rw [hp, byteAt_buildPacket_zero]

end Sys2Proof.Machine
end

section
/-! The sender's transactions in closed form, where its indices are in their ranges: every access to the buffer is to a
slot that exists, so none faults. -/

namespace Sys2Proof.Machine

/-! ## Ranges -/

theorem Config.P_pos {c : Config} (hc : c.WF) : 0 < c.P := by
  obtain ⟨hP, -⟩ := hc
  omega

theorem Config.maxBuffer_pos {c : Config} (hc : c.WF) : 0 < c.maxBuffer := by
  obtain ⟨-, -, -, -, hm, -⟩ := hc
  exact hm

theorem Sender.nbp_lt {c : Config} {x : Sender} (hi : x.IndexInv c) : x.nbp < c.maxBuffer := by
  obtain ⟨hb, -, hn⟩ := hi
  exact hn ▸ Nat.mod_lt _ (Nat.zero_lt_of_lt hb)

/-! ## SND_ACK and SND_TIMEOUT -/

/-- `SND` with its `n` oldest slots freed and the packets emitted that enter the window (R132, R133). -/
def Sender.slid (c : Config) (n : Nat) (x : Sender) : SndTx :=
  { u := { x with base := slotAdd c x.base n, count := x.count - n }
    out := (enteringPositions c x.count n).map fun i => .pktOut (x.packetAt c i) }

theorem slide_eq_slid {c : Config} (hc : c.WF) {n : Nat} {x : Sender} (hn : n ≤ x.count) (hb : x.base < c.maxBuffer) :
    slide c n { u := x, out := [] } = .ok (x.slid c n) := by
  rw [slide_ok hc hn hb, List.nil_append]
  rfl

/-- Freeing slots renumbers the window's positions. -/
theorem Sender.packetAt_slid (c : Config) (n : Nat) (x : Sender) (i : Nat) :
    (x.slid c n).u.packetAt c i = x.packetAt c (n + i) := by
  rw [Sender.packetAt, Sender.packetAt, ← slotAdd_slotAdd]
  rfl

/-- The distance of an acknowledgment from the oldest outstanding packet (R131). -/
def Sender.ackInterval (c : Config) (x : Sender) (pkt : Bytes) : Nat :=
  seqDist (byteAt (x.slotBytes c x.base 1) 0) (pktSeq pkt)

/-- `SND_ACK`, its accesses to the buffer all in range (R130). -/
theorem execSndAck_eq {s : State} (hc : s.cfg.WF) (hb : s.snd.base < s.cfg.maxBuffer) (pkt : Bytes) :
    execSndAck pkt s =
      if pkt.length = s.cfg.P then
        if verify s.cfg pkt then
          if s.snd.count = 0 then finish s .snd (encode (.sndAck pkt)) .ackIdle []
          else if ackStale s.cfg s.snd.count (s.snd.ackInterval s.cfg pkt) then
            finish s .snd (encode (.sndAck pkt)) (.ackStale (s.snd.ackInterval s.cfg pkt)) []
          else
            finishSnd s (encode (.sndAck pkt)) (.ackAdvanced (s.snd.ackInterval s.cfg pkt))
              ((s.snd.slid s.cfg (s.snd.ackInterval s.cfg pkt + 1)).emit .timerStart)
        else finish s .snd (encode (.sndAck pkt)) .ackCorrupt []
      else refuse s .snd (encode (.sndAck pkt)) (.badLength (encode (.sndAck pkt)).length) := by
  simp only [execSndAck, memRead_ok _ _ hb]
  refine if_congr Iff.rfl (if_congr Iff.rfl (if_congr Iff.rfl rfl (ite_congr rfl (fun _ => rfl) fun hst => ?_)) rfl) rfl
  have hn : s.snd.ackInterval s.cfg pkt + 1 ≤ s.snd.count := by
    simp only [ackStale, Bool.or_eq_true, decide_eq_true_eq, not_or] at hst
    omega
  have hslide := slide_eq_slid hc hn hb
  simp only [Sender.ackInterval] at hslide ⊢
  rw [hslide]

/-- `SND` with its timer expired, and the first `n` outstanding packets emitted (R31, R140). -/
def Sender.resent (c : Config) (n : Nat) (x : Sender) : SndTx :=
  { u := { x with tmrArmed := false }, out := (List.range n).map fun i => .pktOut (x.packetAt c i) }

/-- `SND_TIMEOUT`, its accesses to the buffer all in range (R140). -/
theorem execSndTimeout_eq {s : State} (hm : 1 ≤ s.cfg.maxBuffer) :
    execSndTimeout s =
      if s.snd.count = 0 then finishSnd s (encode .sndTimeout) .toEmpty ((s.snd.resent s.cfg 0).emit .timerStop)
      else finishSnd s (encode .sndTimeout) (.toRetransmit (s.snd.sentCount s.cfg))
        ((s.snd.resent s.cfg (s.snd.sentCount s.cfg)).emit .timerStart) := by
  simp only [execSndTimeout, transmitWindow_ok hm]
  rfl

/-! ## A packet stored at the write head -/

/-- A packet written at the write head is the one at window position `count`; the outstanding ones stay (R125). -/
theorem Sender.packetAt_write {c : Config} {x : Sender} {v : Bytes} {i : Nat} (hi : x.IndexInv c)
    (hroom : x.count < c.maxBuffer) (hv : v.length = c.P) (hle : i ≤ x.count) :
    ({ x with buf := x.buf.setBytes (slotAddr c x.nbp 0) v } : Sender).packetAt c i =
      if i = x.count then v else x.packetAt c i := by
  obtain ⟨-, -, hn⟩ := hi
  change x.nbp = slotAdd c x.base x.count at hn
  split
  · next h =>
    subst h
    rw [Sender.packetAt, ← hn]
    exact Sender.slotBytes_write_self x x.nbp hv
  · next h =>
    refine Sender.slotBytes_write_ne x hv (Nat.le_refl _) fun heq => h ?_
    exact slotAdd_inj (by omega) hroom (heq.trans hn)

/-- R34, R35: a chunk stored where the buffer has room keeps the indices in their ranges. -/
theorem storeChunk_keeps_indexInv {c : Config} (hc : c.WF) {t t' : SndTx} {d : Bytes} (hi : t.u.IndexInv c)
    (hroom : t.u.count < c.maxBuffer) (hd : d.length ≤ c.C) (h : storeChunk c t d = .ok t') : t'.u.IndexInv c := by
  rw [storeChunk_ok hc (Sender.nbp_lt hi) hd] at h
  cases h
  obtain ⟨hb, -, hn⟩ := hi
  refine ⟨hb, hroom, ?_⟩
  rw [hn]
  exact slotAdd_slotAdd c t.u.base t.u.count 1

end Sys2Proof.Machine
end

section
/-! What a transaction writes (R33), and what its actions make of the timer (R31) and of the window (R38, R41). -/

namespace Sys2Proof.Machine

/-! ## The writes of each transaction -/

/-- No register of the sender, no byte of its buffer and no flag of its timer differs. -/
structure Sender.SameRegisters (x y : Sender) : Prop where
  base : y.base = x.base
  nbp : y.nbp = x.nbp
  count : y.count = x.count
  nextSeq : y.nextSeq = x.nextSeq
  tmrArmed : y.tmrArmed = x.tmrArmed
  bytes : ∀ a, y.byteAtAddr a = x.byteAtAddr a

/-- No register of the receiver differs. -/
def Receiver.SameRegisters (x y : Receiver) : Prop := y.expectedSeq = x.expectedSeq ∧ y.ackValid = x.ackValid

/-- How the three codec commands, at either unit, answer a next state: a draw of the unit at most, and one result. -/
theorem exec_codec_inv {i : Instr} {s t : State} (hi : i.op = .ckSum ∨ i.op = .ckVerify ∨ i.op = .pktEncode)
    (h : exec i s = .next t) :
    RefusedBy i s t ∨ ∃ r k, RecordedBy i (s.setDraws i.unit k) t .ok [.result r] := by
  have hself : ∀ u, ∃ k, s.setDraws u k = s := fun u => by cases u <;> exact ⟨_, rfl⟩
  cases i with
  | sndMsg _ | sndAck _ | sndTimeout | rcvPkt _ => simp [Instr.op] at hi
  | ckSum u data =>
    obtain ⟨k, hk⟩ := hself u
    exact (execCkSum_inv h).imp_right fun ⟨r, hr⟩ => ⟨r, k, by rwa [Instr.unit, hk]⟩
  | ckVerify u pkt =>
    obtain ⟨k, hk⟩ := hself u
    exact (execCkVerify_inv h).imp_right fun ⟨r, hr⟩ => ⟨r, k, by rwa [Instr.unit, hk]⟩
  | pktEncode u seq data => exact execPktEncode_inv h

theorem exec_codec_sameRegisters {i : Instr} {s t : State}
    (hi : i.op = .ckSum ∨ i.op = .ckVerify ∨ i.op = .pktEncode) (h : exec i s = .next t) :
    s.snd.SameRegisters t.snd ∧ s.rcv.SameRegisters t.rcv := by
  obtain ⟨r, rfl⟩ | ⟨r, k, rfl⟩ := exec_codec_inv hi h
  · cases i.unit <;> exact ⟨⟨rfl, rfl, rfl, rfl, rfl, fun _ => rfl⟩, rfl, rfl⟩
  · cases i.unit <;> exact ⟨⟨rfl, rfl, rfl, rfl, rfl, fun _ => rfl⟩, rfl, rfl⟩

theorem execSndMsg_base {msg : Bytes} {s t : State} (h : execSndMsg msg s = .next t) : t.snd.base = s.snd.base := by
  obtain ⟨r, rfl⟩ | rfl | ⟨x, n, hx, rfl⟩ := execSndMsg_inv h
  · rfl
  · rfl
  · obtain ⟨-, hbase, -⟩ := (TxFrom.start s.snd).storeChunks hx
    exact hbase

theorem execSndAck_store {pkt : Bytes} {s t : State} (h : execSndAck pkt s = .next t) :
    t.snd.nbp = s.snd.nbp ∧ t.snd.nextSeq = s.snd.nextSeq ∧ ∀ a, t.snd.byteAtAddr a = s.snd.byteAtAddr a := by
  obtain ⟨r, rfl⟩ | ⟨k, -, rfl⟩ | ⟨x, n, -, -, hx, rfl⟩ := execSndAck_inv h
  · exact ⟨rfl, rfl, fun _ => rfl⟩
  · exact ⟨rfl, rfl, fun _ => rfl⟩
  · obtain ⟨hfrom, hsame⟩ := (TxFrom.start s.snd).slide hx
    exact ⟨hsame.nbp, hsame.nextSeq, Sender.byteAtAddr_congr hsame.buf hfrom.bufDraw⟩

theorem execSndTimeout_snd {s t : State} (h : execSndTimeout s = .next t) :
    ∃ b tr, t.snd = { s.snd with tmrArmed := b, trace := tr } := by
  obtain ⟨x, a, k, -, -, -, hu, rfl⟩ := execSndTimeout_inv h
  exact ⟨a.timer false, _, by rw [SndTx.emit, hu]; rfl⟩

/-! ## The timer -/

/-- A list of actions with no stop arms the timer where it holds a start, and else leaves it (R185). -/
theorem foldl_timer {l : List Action} (h : ∀ a ∈ l, (∃ p, a = .pktOut p) ∨ a = .timerStart) {b : Bool} :
    l.foldl Action.timer b = if .timerStart ∈ l then true else b := by
  induction l generalizing b with
  | nil => simp
  | cons a l ih =>
    obtain ⟨ha, hl⟩ := List.forall_mem_cons.mp h
    rw [List.foldl_cons, ih hl]
    obtain ⟨p, rfl⟩ | rfl := ha <;> simp

/-- `tmr_armed` as a handler finds it: an expiry disarms it first (R31). -/
def timerBefore (armed : Bool) (i : Instr) : Bool := if i = .sndTimeout then false else armed

/-- `tmr_armed` after a handler that emits `out` and found it `armed`; none emits a start before a stop (R31). -/
def timerAfter (armed : Bool) (out : List Action) : Bool :=
  if .timerStart ∈ out then true else if .timerStop ∈ out then false else armed

theorem timerAfter_nil (b : Bool) : timerAfter b [] = b := by simp [timerAfter]

theorem timerAfter_result (b : Bool) (r : Bytes) : timerAfter b [.result r] = b := by simp [timerAfter]

theorem TxFrom.tmrArmed_eq {x : Sender} {t : SndTx} (h : TxFrom x t) : t.u.tmrArmed = timerAfter x.tmrArmed t.out := by
  have hstop : .timerStop ∉ t.out := fun hm => by obtain ⟨p, hp⟩ | hp := h.actions _ hm <;> cases hp
  rw [h.timer, foldl_timer h.actions, timerAfter, if_neg hstop]

theorem TxFrom.tmrArmed_emit_stop {x : Sender} {t : SndTx} (h : TxFrom x t) (ht : t.u.tmrArmed = false) (b : Bool) :
    (t.emit .timerStop).u.tmrArmed = timerAfter b (t.emit .timerStop).out := by
  have hstart : .timerStart ∉ t.out := fun hm => by
    rw [h.tmrArmed_eq, timerAfter, if_pos hm] at ht
    cases ht
  simp [timerAfter, hstart]

/-- R31: a command of `SND` records one entry, whose actions say what becomes of the timer. -/
theorem exec_tmrArmed {i : Instr} {s t : State} (hu : i.unit = .snd) (h : exec i s = .next t) :
    ∃ e, t.snd.trace = s.snd.trace ++ [e] ∧ t.snd.tmrArmed = timerAfter (timerBefore s.snd.tmrArmed i) e.actions := by
  cases i with
  | sndMsg msg =>
    obtain ⟨r, rfl⟩ | rfl | ⟨x, n, hx, rfl⟩ := execSndMsg_inv h
    · exact ⟨_, rfl, (timerAfter_nil _).symm⟩
    · exact ⟨_, rfl, (timerAfter_nil _).symm⟩
    · obtain ⟨hfrom, -⟩ := (TxFrom.start s.snd).storeChunks hx
      exact ⟨_, congrArg (· ++ _) hfrom.trace, hfrom.tmrArmed_eq⟩
  | sndAck pkt =>
    obtain ⟨r, rfl⟩ | ⟨k, -, rfl⟩ | ⟨x, n, -, -, hx, rfl⟩ := execSndAck_inv h
    · exact ⟨_, rfl, (timerAfter_nil _).symm⟩
    · exact ⟨_, rfl, (timerAfter_nil _).symm⟩
    · obtain ⟨hfrom, -⟩ := (TxFrom.start s.snd).slide hx
      exact ⟨_, congrArg (· ++ _) hfrom.trace, (hfrom.emit (.inr rfl)).tmrArmed_eq⟩
  | sndTimeout =>
    obtain ⟨x, a, k, ha, -, hfrom, hxu, rfl⟩ := execSndTimeout_inv h
    refine ⟨_, congrArg (· ++ _) hfrom.trace, ?_⟩
    obtain rfl | rfl := ha
    · exact (hfrom.emit (.inr rfl)).tmrArmed_eq
    · exact hfrom.tmrArmed_emit_stop (by rw [hxu]) _
  | rcvPkt pkt => cases hu
  | ckSum u | ckVerify u | pktEncode u =>
    obtain rfl : u = .snd := hu
    obtain ⟨r, rfl⟩ | ⟨r, k, rfl⟩ := exec_codec_inv (by simp [Instr.op]) h
    · exact ⟨_, rfl, (timerAfter_nil _).symm⟩
    · exact ⟨_, rfl, (timerAfter_result _ r).symm⟩

/-! ## First transmissions -/

theorem pktOuts_flatMap {α : Type} (f : α → List Action) (l : List α) :
    pktOuts (l.flatMap f) = l.flatMap (pktOuts ∘ f) := by
  induction l with
  | nil => rfl
  | cons a l ih => rw [List.flatMap_cons, List.flatMap_cons, pktOuts_append, ih]; rfl

theorem pktOuts_map_pktOut {α : Type} (f : α → Bytes) (l : List α) :
    pktOuts (l.map fun a => .pktOut (f a)) = l.map f := by
  induction l with
  | nil => rfl
  | cons a l ih => rw [List.map_cons, List.map_cons, pktOuts, ih]

theorem pktOuts_storeActions (c : Config) (count : Nat) (p : Bytes) :
    pktOuts (storeActions c count p) = if count < c.winSize then [p] else [] := by
  unfold storeActions
  split
  · split <;> rfl
  · rfl

/-- Of `n` positions from `k` on, those inside a window of `w` are a range that ends where either ends. -/
theorem flatMap_window (k w n : Nat) (f : Nat → Bytes) :
    ((List.range n).flatMap fun j => if k + j < w then [f (k + j)] else []) =
      (List.range' (min k w) (min (k + n) w - min k w)).map f := by
  induction n with
  | zero => simp
  | succ n ih =>
    rw [List.range_succ, List.flatMap_append, ih, List.flatMap_singleton]
    split
    · next h =>
      have hlen : min (k + (n + 1)) w - min k w = (min (k + n) w - min k w) + 1 := by omega
      have hlast : min k w + (min (k + n) w - min k w) = k + n := by omega
      rw [hlen, List.range'_concat, List.map_append, Nat.one_mul, hlast]
      rfl
    · next h =>
      have hlen : min (k + (n + 1)) w - min k w = min (k + n) w - min k w := by omega
      rw [hlen, List.append_nil]

/-- The positions that enter the window are a range from its end on. -/
theorem enteringPositions_eq (c : Config) (count n : Nat) :
    enteringPositions c count n = List.range' c.winSize (min n (count - c.winSize)) := by
  induction n with
  | zero => simp [enteringPositions]
  | succ n ih =>
    have hstep : enteringPositions c count (n + 1) =
        enteringPositions c count n ++ if c.winSize + n < count then [c.winSize + n] else [] := by
      rw [enteringPositions, enteringPositions, List.range'_concat, List.filter_append, Nat.one_mul]
      simp [List.filter_singleton, Bool.cond_eq_ite]
    rw [hstep, ih]
    split
    · next h =>
      have hlen : min (n + 1) (count - c.winSize) = n + 1 := by omega
      have hlen' : min n (count - c.winSize) = n := by omega
      rw [hlen, hlen', List.range'_concat, Nat.one_mul]
    · have hlen : min (n + 1) (count - c.winSize) = min n (count - c.winSize) := by omega
      rw [hlen, List.append_nil]

/-- Chunk `j` stored is the packet of window position `count + j`, and is emitted where that lies inside the window. -/
theorem sndMsg_firstTransmissions {c : Config} {ds : List Bytes} {n : Nat} {x : Sender} {t : SndTx}
    (hi : x.IndexInv c) (h : Stored c ds n { u := x, out := [] } t) :
    pktOuts t.out = (List.range' (x.sentCount c) (t.u.sentCount c - x.sentCount c)).map (t.u.packetAt c) := by
  obtain ⟨-, -, hn⟩ := hi
  have hslot : ∀ j, t.u.slotBytes c (slotAdd c x.nbp j) c.P = t.u.packetAt c (x.count + j) := by
    intro j
    rw [Sender.packetAt, h.base, ← slotAdd_slotAdd, hn]
    rfl
  have hout := h.out
  simp only [List.nil_append, hslot] at hout
  rw [hout, pktOuts_flatMap, Sender.sentCount, Sender.sentCount, h.count, ← flatMap_window]
  simp only [Function.comp_def, pktOuts_storeActions]

/-- Old window positions `WIN_SIZE + i` are the new ones `WIN_SIZE - n + i`, `n` slots having been freed. -/
theorem sndAck_firstTransmissions {c : Config} {n : Nat} {x : Sender} (hn : n ≤ x.count) (hw : n ≤ c.winSize) :
    pktOuts (x.slid c n).out = (List.range' (x.sentCount c - n) ((x.slid c n).u.sentCount c - (x.sentCount c - n))).map
      ((x.slid c n).u.packetAt c) := by
  have hsent : (x.slid c n).u.sentCount c = min (x.count - n) c.winSize := rfl
  have hpkt : (x.slid c n).u.packetAt c = x.packetAt c ∘ (n + ·) := funext (Sender.packetAt_slid c n x)
  rw [hpkt, ← List.map_map, List.map_add_range', hsent, Sender.sentCount, Sender.slid, pktOuts_map_pktOut,
    enteringPositions_eq]
  by_cases h : x.count ≤ c.winSize
  · have hnone : min n (x.count - c.winSize) = 0 := by omega
    have hnone' : min (x.count - n) c.winSize - (min x.count c.winSize - n) = 0 := by omega
    rw [hnone, hnone', List.range'_zero, List.range'_zero]
  · have hfrom : n + (min x.count c.winSize - n) = c.winSize := by omega
    have hlen : min (x.count - n) c.winSize - (min x.count c.winSize - n) = min n (x.count - c.winSize) := by omega
    rw [hfrom, hlen]

end Sys2Proof.Machine
end

section
/-! The bytes of stale slots are unobservable (R32): a simulation between states that differ in them only. -/

namespace Sys2Proof.Machine

/-- Two states that differ in the sender's stale slots only (R32). -/
def StaleTwins (s s' : State) : Prop := ∃ y : Sender, s.snd.AgreesOutstanding s.cfg y ∧ s' = { s with snd := y }

/-- Two transactions of the sender under way that differ in stale slots only. -/
structure TxTwins (c : Config) (t t' : SndTx) : Prop where
  u : t.u.AgreesOutstanding c t'.u
  out : t.out = t'.out

/-- Two answers that are next states which differ in the sender's stale slots only. -/
def AnswerTwins (a a' : Answer) : Prop := ∃ t t', a = .next t ∧ a' = .next t' ∧ StaleTwins t t'

theorem AnswerTwins.ite {p : Prop} [Decidable p] {a b a' b' : Answer} (ht : p → AnswerTwins a a')
    (hf : ¬ p → AnswerTwins b b') : AnswerTwins (if p then a else b) (if p then a' else b') := by
  split
  · next h => exact ht h
  · next h => exact hf h

theorem Sender.AgreesOutstanding.record {c : Config} {x y : Sender} (h : x.AgreesOutstanding c y) (e : Entry) :
    Sender.AgreesOutstanding c { x with trace := x.trace ++ [e] } { y with trace := y.trace ++ [e] } :=
  { h with trace := by rw [h.trace] }

theorem Sender.AgreesOutstanding.setTimer {c : Config} {x y : Sender} (h : x.AgreesOutstanding c y) (b : Bool) :
    Sender.AgreesOutstanding c { x with tmrArmed := b } { y with tmrArmed := b } :=
  { h with tmrArmed := rfl }

theorem Sender.AgreesOutstanding.setDraws {c : Config} {x y : Sender} (h : x.AgreesOutstanding c y) (k : Nat) :
    Sender.AgreesOutstanding c { x with draws := k } { y with draws := k } :=
  { h with draws := rfl }

theorem StaleTwins.setRcv {s s' : State} (h : StaleTwins s s') (x : Receiver) :
    StaleTwins { s with rcv := x } { s' with rcv := x } := by
  obtain ⟨y, hy, rfl⟩ := h
  exact ⟨y, hy, rfl⟩

theorem StaleTwins.record {s s' : State} (h : StaleTwins s s') (u : UnitId) (e : Entry) :
    StaleTwins (s.record u e) (s'.record u e) := by
  obtain ⟨y, hy, rfl⟩ := h
  cases u with
  | snd => exact ⟨_, hy.record e, rfl⟩
  | rcv => exact ⟨_, hy, rfl⟩

theorem StaleTwins.finish {s s' : State} (h : StaleTwins s s') (u : UnitId) (cmd : Bytes) (k : TxOutcome)
    (out : List Action) : AnswerTwins (finish s u cmd k out) (finish s' u cmd k out) :=
  ⟨_, _, rfl, rfl, h.record u _⟩

theorem StaleTwins.refuse {s s' : State} (h : StaleTwins s s') (u : UnitId) (cmd : Bytes) (r : Rejection) :
    AnswerTwins (refuse s u cmd r) (refuse s' u cmd r) := by
  obtain ⟨y, hy, rfl⟩ := h
  exact StaleTwins.finish (s := { s with refusalMark := true }) ⟨y, hy, rfl⟩ u cmd _ _

theorem StaleTwins.finishSnd {s s' : State} (h : StaleTwins s s') (cmd : Bytes) (k : TxOutcome) {t t' : SndTx}
    (ht : TxTwins s.cfg t t') : AnswerTwins (finishSnd s cmd k t) (finishSnd s' cmd k t') := by
  obtain ⟨y, -, rfl⟩ := h
  rw [Machine.finishSnd, Machine.finishSnd, ← ht.out]
  exact StaleTwins.finish ⟨t'.u, ht.u, rfl⟩ .snd cmd k t.out

theorem TxTwins.emit {c : Config} {t t' : SndTx} (h : TxTwins c t t') (a : Action) :
    TxTwins c (t.emit a) (t'.emit a) where
  u := by
    rw [SndTx.emit, SndTx.emit, ← h.u.tmrArmed]
    exact h.u.setTimer _
  out := by rw [SndTx.emit_out, SndTx.emit_out, h.out]

/-! ## The codec and the receiver -/

theorem execCkSum_twins {s s' : State} (h : StaleTwins s s') (u : UnitId) (data : Bytes) :
    AnswerTwins (execCkSum u data s) (execCkSum u data s') :=
  .ite (fun _ => h.finish ..) (fun _ => h.refuse ..)

theorem execCkVerify_twins {s s' : State} (h : StaleTwins s s') (u : UnitId) (pkt : Bytes) :
    AnswerTwins (execCkVerify u pkt s) (execCkVerify u pkt s') := by
  obtain ⟨y, -, rfl⟩ := id h
  exact .ite (fun _ => h.finish ..) (fun _ => h.refuse ..)

theorem execPktEncode_twins {s s' : State} (h : StaleTwins s s') (u : UnitId) (seq : Byte) (data : Bytes) :
    AnswerTwins (execPktEncode u seq data s) (execPktEncode u seq data s') := by
  obtain ⟨y, hy, rfl⟩ := id h
  refine .ite (fun _ => h.refuse ..) (fun _ => ?_)
  cases u with
  | snd =>
    have htw : StaleTwins { s with snd := (s.snd.encodePkt s.cfg seq data).2 }
        { s with snd := (y.encodePkt s.cfg seq data).2 } := by
      simp only [Sender.encodePkt, ← hy.draws]
      exact ⟨_, hy.setDraws _, rfl⟩
    have hp : (y.encodePkt s.cfg seq data).1 = (s.snd.encodePkt s.cfg seq data).1 := by
      rw [Sender.encodePkt, Sender.encodePkt, hy.draws]
    dsimp only
    rw [hp]
    exact htw.finish ..
  | rcv => exact (h.setRcv _).finish ..

theorem StaleTwins.finishAck {s s' : State} (h : StaleTwins s s') (cmd : Bytes) (k : TxOutcome) (x : Receiver)
    (out : List Action) : AnswerTwins (finishAck s cmd k x out) (finishAck s' cmd k x out) := by
  obtain ⟨y, -, rfl⟩ := id h
  exact (h.setRcv _).finish ..

theorem execRcvPkt_twins {s s' : State} (h : StaleTwins s s') (pkt : Bytes) :
    AnswerTwins (execRcvPkt pkt s) (execRcvPkt pkt s') := by
  obtain ⟨y, -, rfl⟩ := id h
  exact .ite
    (fun _ => .ite (fun _ => .ite (fun _ => h.finishAck ..) (fun _ => h.finishAck ..))
      (fun _ => .ite (fun _ => h.finishAck ..) (fun _ => h.finish ..)))
    (fun _ => h.refuse ..)

/-! ## The sender -/

theorem Sender.AgreesOutstanding.ackInterval {c : Config} (hc : c.WF) {x y : Sender} (h : x.AgreesOutstanding c y)
    (hb : x.base < c.maxBuffer) (h0 : 0 < x.count) (pkt : Bytes) : y.ackInterval c pkt = x.ackInterval c pkt := by
  have hP := Config.P_pos hc
  rw [Sender.ackInterval, Sender.ackInterval, byteAt_base_slot hP hb, byteAt_base_slot hP (h.base ▸ hb), h.packets 0 h0]

theorem Sender.AgreesOutstanding.slid {c : Config} {x y : Sender} (h : x.AgreesOutstanding c y) {n : Nat} :
    TxTwins c (x.slid c n) (y.slid c n) where
  u :=
    { h with
      base := congrArg (slotAdd c · n) h.base
      count := congrArg (· - n) h.count
      packets := fun i hi => by
        have hi' : i < x.count - n := hi
        rw [Sender.packetAt_slid, Sender.packetAt_slid, h.packets (n + i) (by omega)] }
  out := by
    simp only [Sender.slid, ← h.count]
    refine List.map_congr_left fun i hi => ?_
    have hlt : i < x.count := of_decide_eq_true (List.mem_filter.mp hi).2
    rw [h.packets i hlt]

theorem Sender.AgreesOutstanding.resent {c : Config} {x y : Sender} (h : x.AgreesOutstanding c y) {n : Nat}
    (hn : n ≤ x.count) : TxTwins c (x.resent c n) (y.resent c n) where
  u := h.setTimer false
  out := List.map_congr_left fun i hi => by
    have hlt := List.mem_range.mp hi
    rw [h.packets i (by omega)]

/-- The packet stored is the same one, and takes the same window position (R125). -/
theorem TxTwins.storeChunk {c : Config} (hc : c.WF) {t t' : SndTx} (h : TxTwins c t t') (hi : t.u.IndexInv c)
    (hroom : t.u.count < c.maxBuffer) {d : Bytes} (hd : d.length ≤ c.C) :
    ∃ r r', storeChunk c t d = .ok r ∧ storeChunk c t' d = .ok r' ∧ TxTwins c r r' := by
  have hp : storedPacket c t' d = storedPacket c t d := by rw [storedPacket, storedPacket, h.u.nextSeq, h.u.draws]
  have hlen : (storedPacket c t d).length = c.P := (storedPacket_isPacketOf hd).length hc
  have hi' : t'.u.IndexInv c := by
    rw [Sender.IndexInv, ← h.u.base, ← h.u.count, ← h.u.nbp]
    exact hi
  refine ⟨_, _, storeChunk_ok hc (Sender.nbp_lt hi) hd, storeChunk_ok hc (Sender.nbp_lt hi') hd, ?_, ?_⟩
  · refine ⟨h.u.base, ?_, ?_, ?_, ?_, h.u.trace, ?_, fun i hlt => ?_⟩
    · simp only [h.u.nbp]
    · simp only [h.u.count]
    · simp only [h.u.nextSeq]
    · simp only [h.u.count, h.u.tmrArmed]
    · simp only [h.u.draws]
    · have hle : i ≤ t.u.count := Nat.lt_succ_iff.mp hlt
      rw [hp]
      refine (Sender.packetAt_write hi hroom hlen hle).trans
        (Eq.trans ?_ (Sender.packetAt_write hi' (h.u.count ▸ hroom) hlen (h.u.count ▸ hle)).symm)
      rw [← h.u.count]
      refine ite_congr rfl (fun _ => rfl) fun hne => h.u.packets i (by omega)
  · simp only [h.out, h.u.count, hp]

theorem TxTwins.storeChunks {c : Config} (hc : c.WF) {ds : List Bytes} (hds : ∀ d ∈ ds, d.length ≤ c.C)
    {t t' : SndTx} (h : TxTwins c t t') (hi : t.u.IndexInv c) :
    ∃ r r' n, storeChunks c ds t = .ok (r, n) ∧ storeChunks c ds t' = .ok (r', n) ∧ TxTwins c r r' := by
  induction ds generalizing t t' with
  | nil => exact ⟨t, t', 0, rfl, rfl, h⟩
  | cons d ds ih =>
    by_cases hfull : t.u.count = c.maxBuffer
    · exact ⟨t, t', 0, if_pos hfull, if_pos (h.u.count ▸ hfull), h⟩
    · have hroom : t.u.count < c.maxBuffer := lt_of_le_of_ne hi.2.1 hfull
      have hd := hds d List.mem_cons_self
      obtain ⟨t1, t1', h1, h1', htw⟩ := h.storeChunk hc hi hroom hd
      obtain ⟨r, r', n, h2, h2', hr⟩ :=
        ih (fun e he => hds e (List.mem_cons_of_mem _ he)) htw (storeChunk_keeps_indexInv hc hi hroom hd h1)
      refine ⟨r, r', n + 1, ?_, ?_, hr⟩
      · simp only [Machine.storeChunks, if_neg hfull, h1, h2]
      · simp only [Machine.storeChunks, if_neg (h.u.count ▸ hfull), h1', h2']

theorem execSndMsg_twins {s s' : State} (hc : s.cfg.WF) (hi : s.snd.IndexInv s.cfg) (h : StaleTwins s s')
    (msg : Bytes) : AnswerTwins (execSndMsg msg s) (execSndMsg msg s') := by
  obtain ⟨y, hy, rfl⟩ := id h
  refine .ite (fun _ => h.refuse ..) fun _ => .ite (fun _ => h.finish ..) fun _ => ?_
  obtain ⟨r, r', n, hr, hr', htw⟩ :=
    TxTwins.storeChunks hc (fun _ => mem_chunks_length (msg := msg)) (t := { u := s.snd, out := [] })
      (t' := { u := y, out := [] }) ⟨hy, rfl⟩ hi
  simp only [hr, hr']
  exact h.finishSnd _ _ htw

theorem execSndAck_twins {s s' : State} (hc : s.cfg.WF) (hi : s.snd.IndexInv s.cfg) (h : StaleTwins s s')
    (pkt : Bytes) : AnswerTwins (execSndAck pkt s) (execSndAck pkt s') := by
  obtain ⟨y, hy, rfl⟩ := id h
  rw [execSndAck_eq hc hi.1, execSndAck_eq (s := { s with snd := y }) hc (hy.base ▸ hi.1)]
  simp only [← hy.count]
  refine .ite (fun _ => .ite (fun _ => .ite (fun _ => h.finish ..) fun h0 => ?_) fun _ => h.finish ..)
    fun _ => h.refuse ..
  rw [hy.ackInterval hc hi.1 (by omega)]
  exact .ite (fun _ => h.finish ..) fun _ => h.finishSnd _ _ (hy.slid.emit _)

theorem execSndTimeout_twins {s s' : State} (hc : s.cfg.WF) (h : StaleTwins s s') :
    AnswerTwins (execSndTimeout s) (execSndTimeout s') := by
  have hm := Config.maxBuffer_pos hc
  obtain ⟨y, hy, rfl⟩ := id h
  rw [execSndTimeout_eq hm, execSndTimeout_eq (s := { s with snd := y }) hm]
  simp only [Sender.sentCount, ← hy.count]
  exact .ite (fun _ => h.finishSnd _ _ ((hy.resent (Nat.zero_le _)).emit _))
    fun _ => h.finishSnd _ _ ((hy.resent (Nat.min_le_left _ _)).emit _)

/-- Every command runs alike in two states that differ in stale slots only. -/
theorem exec_twins {s s' : State} (hc : s.cfg.WF) (hi : s.snd.IndexInv s.cfg) (h : StaleTwins s s') (i : Instr) :
    AnswerTwins (exec i s) (exec i s') := by
  cases i with
  | sndMsg msg => exact execSndMsg_twins hc hi h msg
  | sndAck pkt => exact execSndAck_twins hc hi h pkt
  | sndTimeout => exact execSndTimeout_twins hc h
  | rcvPkt pkt => exact execRcvPkt_twins h pkt
  | ckSum u data => exact execCkSum_twins h u data
  | ckVerify u pkt => exact execCkVerify_twins h u pkt
  | pktEncode u seq data => exact execPktEncode_twins h u seq data

end Sys2Proof.Machine
end

section
/-! The obligations of 10_state.md. -/

namespace Sys2Proof.Machine

/-! ## Transactions -/

/-- Settles O34: states that differ in stale slots only answer states that differ in stale slots only. -/
theorem staleSlotsUnobservable : Obligations.StaleSlotsUnobservable := by
  intro i s s' t hc hi hcfg hrcv hmark hin hep ha hex
  have htw : StaleTwins s s' := ⟨s'.snd, ha, by rw [← hcfg, ← hrcv, ← hmark, ← hin, ← hep]⟩
  obtain ⟨t₁, t', h1, h2, y, hy, rfl⟩ := exec_twins hc hi htw i
  rw [hex] at h1
  cases h1
  exact ⟨_, h2, rfl, rfl, rfl, rfl, rfl, hy⟩

/-- Settles O33, by the row of each operation in the table of R33. -/
theorem accessMatrix : Obligations.AccessMatrix := by
  intro i s t h
  obtain ⟨hcfg, hin, hsnd, hrcv, -⟩ := exec_records h
  refine ⟨hcfg, hin, exec_epoch h, ?_⟩
  cases i with
  | sndMsg msg =>
    exact ⟨fun _ => execSndMsg_base h, (absurd rfl ·), (absurd rfl ·), (absurd rfl ·), fun _ => by simp [hsnd rfl], hsnd,
      hrcv⟩
  | sndAck pkt =>
    exact ⟨(absurd rfl ·), fun _ => execSndAck_store h, fun _ => (absurd rfl ·), fun _ => (absurd rfl ·),
      fun _ => by simp [hsnd rfl], hsnd, hrcv⟩
  | sndTimeout =>
    obtain ⟨b, tr, hu⟩ := execSndTimeout_snd h
    rw [hu, hsnd rfl]
    exact ⟨fun _ => rfl, fun _ => ⟨rfl, rfl, fun _ => rfl⟩, fun _ _ => rfl, fun _ _ => (absurd rfl ·),
      fun _ => ⟨rfl, rfl⟩, fun _ => rfl, nofun⟩
  | rcvPkt pkt =>
    rw [hrcv rfl]
    exact ⟨fun _ => rfl, fun _ => ⟨rfl, rfl, fun _ => rfl⟩, fun _ _ => rfl, fun _ _ _ => rfl, (absurd rfl ·), nofun,
      fun _ => rfl⟩
  | ckSum | ckVerify | pktEncode =>
    obtain ⟨hs, hr⟩ := exec_codec_sameRegisters (by simp [Instr.op]) h
    exact ⟨fun _ => hs.base, fun _ => ⟨hs.nbp, hs.nextSeq, hs.bytes⟩, fun _ _ => hs.count, fun _ _ _ => hs.tmrArmed,
      fun _ => hr, hsnd, hrcv⟩

/-- Settles O38: the entry recorded is the one the timer is described by. -/
theorem timerFollowsTheActions : Obligations.TimerFollowsTheActions := by
  intro i s t e hu h he
  obtain ⟨e', he', ht⟩ := exec_tmrArmed hu h
  cases List.append_cancel_left (he'.symm.trans he)
  rw [ht, timerAfter, timerBefore, ite_or]

/-- Settles O39: where no packet is stored or freed none is emitted, and the two loops emit what enters the window. -/
theorem firstTransmissionsFillTheWindow : Obligations.FirstTransmissionsFillTheWindow := by
  intro i s t e freed hc hi h he hop
  cases i with
  | sndMsg msg =>
    have hnone : ∀ (f : Nat → Bytes) a b, (List.range' b (a - a)).map f = [] := fun _ _ _ => by simp
    obtain rfl : freed = 0 := by simpa [Instr.op] using hop
    obtain ⟨r, rfl⟩ | rfl | ⟨x, n, hx, rfl⟩ := execSndMsg_inv h
    · cases List.append_cancel_left he
      exact (hnone _ _ _).symm
    · cases List.append_cancel_left he
      exact (hnone _ _ _).symm
    · obtain ⟨x', hx', hst⟩ := storeChunks_ok hc (fun _ => mem_chunks_length (msg := msg))
        (t := { u := s.snd, out := [] }) (Sender.nbp_lt hi) hi.2.1
      rw [hx] at hx'
      cases hx'
      have he' : x.u.trace ++ _ = s.snd.trace ++ [e] := he
      rw [hst.trace] at he'
      cases List.append_cancel_left he'
      exact sndMsg_firstTransmissions hi hst
  | sndAck pkt =>
    obtain ⟨k, hk, rfl⟩ : ∃ k, e.outcome = .ackAdvanced k ∧ freed = k + 1 := by simpa [Instr.op] using hop
    obtain ⟨r, rfl⟩ | ⟨k', hk', rfl⟩ | ⟨x, n, hw, hn, hx, rfl⟩ := execSndAck_inv h
    · cases List.append_cancel_left he
      cases hk
    · cases List.append_cancel_left he
      obtain rfl | rfl | ⟨_, rfl⟩ := hk' <;> cases hk
    · rw [slide_eq_slid hc hn hi.1] at hx
      cases hx
      cases List.append_cancel_left he
      cases hk
      exact (pktOuts_append _ _).trans ((List.append_nil _).trans (sndAck_firstTransmissions hn hw))
  | sndTimeout | rcvPkt | ckSum | ckVerify | pktEncode => simp [Instr.op] at hop

/-! ## Invariants -/

/-- Settles O48, from R36 as the invariant says it. -/
theorem outstandingPacketsAreNumbered : Obligations.OutstandingPacketsAreNumbered := by
  intro s i hs hi
  have hpackets := hs.sender.packets
  obtain ⟨d, hp⟩ := hpackets i hi
  refine ⟨hpackets.byteAt_packetAt hi, hp.verify hs.config, ?_⟩
  rw [byteAt_base_slot (Config.P_pos hs.config) hs.sender.index.1, hpackets.byteAt_packetAt (by omega)]
  simp [Sender.seqAt]

theorem le_two_pow_ceilLog2 (n : Nat) : n ≤ 2 ^ ceilLog2 n := by
  unfold ceilLog2
  split
  · simpa
  · have := Nat.lt_log2_self (n := n - 1)
    omega

/-- Settles O49: both widths cover the range of their register. -/
theorem registersFitTheirWidths : Obligations.RegistersFitTheirWidths := by
  intro s hs
  obtain ⟨hbase, hcount, -⟩ := hs.sender.index
  have hIW : s.cfg.maxBuffer ≤ 2 ^ s.cfg.IW :=
    (le_two_pow_ceilLog2 _).trans (Nat.pow_le_pow_right Nat.two_pos (Nat.le_max_right _ _))
  have hCW : s.cfg.maxBuffer + 1 ≤ 2 ^ s.cfg.CW := le_two_pow_ceilLog2 _
  have hnbp := Sender.nbp_lt hs.sender.index
  exact ⟨by omega, by omega, by omega⟩

/-- Settles O28: before any acceptance `expected_seq` is 0 and the sentinel byte is `0 - 1`. -/
theorem ackByteIsExpectedMinusOne : Obligations.AckByteIsExpectedMinusOne := by
  intro s hs
  cases hv : s.rcv.ackValid with
  | true => simp [Receiver.ackSeqByte, hv]
  | false =>
    rw [Receiver.ackSeqByte, hv, hs.receiver hv]
    rfl

/-! ## Reset -/

/-- Settles O40. -/
theorem resetValues : Obligations.ResetValues := fun _ => ⟨rfl, rfl, rfl, rfl, rfl, rfl, rfl⟩

theorem resetOf_inv {c : Config} (hc : c.WF) : (State.resetOf c).Inv where
  config := hc
  sender :=
    { index := ⟨Config.maxBuffer_pos hc, Nat.zero_le _, (Nat.zero_mod _).symm⟩
      buffer := ⟨rfl, nofun⟩
      packets := nofun
      timer := nofun }
  receiver := fun _ => rfl

theorem resetOf_channelInv (c : Config) : (State.resetOf c).ChannelInv where
  epoch := fun u => by cases u <;> exact Nat.le_refl 0
  window := BitVec.sub_zero 0
  expected := rfl
  sent := nofun
  answered := nofun

/-- Settles O41: nothing is outstanding and nothing has been emitted. -/
theorem resetMeetsTheInvariants : Obligations.ResetMeetsTheInvariants :=
  ⟨fun _ hc => ⟨resetOf_inv hc, resetOf_channelInv _⟩, resetOf_inv (by decide), resetOf_channelInv _⟩

end Sys2Proof.Machine
end

section
/-! The obligation of 20_memory.md: the buffer's canonical form (log 3) is kept. `SND_MSG` alone writes the buffer (R54),
a reset of `SND` empties it, and nothing else touches it. -/

namespace Sys2Proof.Machine

/-! ## Who writes the buffer -/

/-- R33, column `buf`: a command other than `SND_MSG` leaves the list of written bytes as it is. -/
theorem exec_buf_of_ne_sndMsg {i : Instr} {s t : State} (hi : i.op ≠ .sndMsg) (h : exec i s = .next t) :
    t.snd.buf = s.snd.buf := by
  cases i with
  | sndMsg msg => exact absurd rfl hi
  | sndAck pkt =>
    obtain ⟨r, rfl⟩ | ⟨k, -, rfl⟩ | ⟨x, n, -, -, hx, rfl⟩ := execSndAck_inv h
    · rfl
    · rfl
    · obtain ⟨-, hsame⟩ := (TxFrom.start s.snd).slide hx
      exact hsame.buf
  | sndTimeout =>
    obtain ⟨b, tr, hu⟩ := execSndTimeout_snd h
    rw [hu]
  | rcvPkt pkt =>
    obtain ⟨-, -, -, hsnd, -⟩ := exec_records h
    rw [hsnd rfl]
  | ckSum u | ckVerify u | pktEncode u =>
    obtain ⟨r, rfl⟩ | ⟨r, k, rfl⟩ := exec_codec_inv (by simp [Instr.op]) h
    · cases u <;> rfl
    · cases u <;> rfl

/-- Every chunk that `SND_MSG` stores is a whole slot written at an index that exists (R54). -/
theorem execSndMsg_keeps_bufInv {msg : Bytes} {s t : State} (hb : s.snd.BufInv s.cfg)
    (h : execSndMsg msg s = .next t) : t.snd.BufInv t.cfg := by
  obtain ⟨r, rfl⟩ | rfl | ⟨x, n, hx, rfl⟩ := execSndMsg_inv h
  · exact hb
  · exact hb
  · obtain ⟨-, -, hkeeps⟩ := (TxFrom.start s.snd).storeChunks hx
    exact hkeeps hb

/-! ## What keeps the canonical form -/

theorem exec_keeps_bufInv {i : Instr} {s t : State} (hb : s.snd.BufInv s.cfg) (h : exec i s = .next t) :
    t.snd.BufInv t.cfg := by
  cases i with
  | sndMsg msg => exact execSndMsg_keeps_bufInv hb h
  | sndAck | sndTimeout | rcvPkt | ckSum | ckVerify | pktEncode =>
    obtain ⟨hcfg, -⟩ := exec_records h
    rw [Sender.BufInv, hcfg, exec_buf_of_ne_sndMsg (by simp [Instr.op]) h]
    exact hb

theorem Sender.resetUnit_bufInv (c : Config) (x : Sender) : (x.resetUnit c).BufInv c := ⟨rfl, nofun⟩

theorem State.resetUnit_keeps_bufInv {s : State} (u : UnitId) (hb : s.snd.BufInv s.cfg) :
    (s.resetUnit u).snd.BufInv (s.resetUnit u).cfg := by
  cases u with
  | snd => exact s.snd.resetUnit_bufInv s.cfg
  | rcv => exact hb

theorem State.refusedAs_keeps_bufInv {s : State} (u : UnitId) (cmd : Bytes) (r : Rejection)
    (hb : s.snd.BufInv s.cfg) : (s.refusedAs u cmd r).snd.BufInv (s.refusedAs u cmd r).cfg := by
  cases u <;> exact hb

/-- Settles O43, by the cases of a step. -/
theorem stepKeepsTheBufferCanonical : Obligations.StepKeepsTheBufferCanonical := by
  intro s t hb h
  exact step_keeps (Q := fun s => s.snd.BufInv s.cfg)
    (hin := fun _ _ hb => hb)
    (hrefuse := fun _ u cmd r hb => State.refusedAs_keeps_bufInv u cmd r hb)
    (hexec := fun _ _ _ hb hx => exec_keeps_bufInv hb hx)
    (hreset := fun _ u hb => State.resetUnit_keeps_bufInv u hb)
    (hboth := fun s _ => s.snd.resetUnit_bufInv s.cfg)
    hb h

end Sys2Proof.Machine
end

section
/-! The command encoding (30_encoding.md R77 to R84): what the decoder can answer, and what it reads of a byte string. -/

namespace Sys2Proof

open Sys2Proof.Machine (present_of_error)

/-! ## Length fields read and written again (R78) -/

theorem be16_lt (b1 b0 : Byte) : be16 b1 b0 < 2 ^ 16 := by
  have h1 := b1.isLt
  have h0 := b0.isLt
  simp only [be16]
  omega

theorem be32_lt (b3 b2 b1 b0 : Byte) : be32 b3 b2 b1 b0 < 2 ^ 32 := by
  have h3 := b3.isLt
  have h2 := b2.isLt
  have h1 := b1.isLt
  have h0 := b0.isLt
  simp only [be32]
  omega

theorem byteOf_eq_of_mod {n k : Nat} {b : Byte} (h : n / 2 ^ (8 * k) % 2 ^ 8 = b.toNat) : byteOf n k = b :=
  BitVec.eq_of_toNat_eq ((BitVec.toNat_ofNat _ _).trans h)

theorem bytesOf_be16 (b1 b0 : Byte) : [byteOf (be16 b1 b0) 1, byteOf (be16 b1 b0) 0] = [b1, b0] := by
  have h1 := b1.isLt
  have h0 := b0.isLt
  congr 2 <;> refine byteOf_eq_of_mod ?_ <;> simp only [be16] <;> omega

theorem bytesOf_be32 (b3 b2 b1 b0 : Byte) :
    [byteOf (be32 b3 b2 b1 b0) 3, byteOf (be32 b3 b2 b1 b0) 2, byteOf (be32 b3 b2 b1 b0) 1,
      byteOf (be32 b3 b2 b1 b0) 0] = [b3, b2, b1, b0] := by
  have h3 := b3.isLt
  have h2 := b2.isLt
  have h1 := b1.isLt
  have h0 := b0.isLt
  congr 4 <;> refine byteOf_eq_of_mod ?_ <;> simp only [be32] <;> omega

theorem byteOf_toNat_zero (b : Byte) : byteOf b.toNat 0 = b :=
  byteOf_eq_of_mod (by have := b.isLt; omega)

/-! ## The two answers of the decoder to an accepted op -/

/-- Reading operands fails in one way only (R79). -/
theorem decodeOperands_error {c : Config} {u : UnitId} {o : Op} {rest : Bytes} {r : Rejection}
    (h : decodeOperands c u o rest = .error r) : r = .badLength (1 + rest.length) := by
  revert h
  fun_cases decodeOperands c u o rest <;> rintro ⟨⟩ <;> rfl

/-- What is read of an op's operands is a well-formed command with that op, whose layout is what was read (R78). -/
theorem decodeOperands_ok {c : Config} {u : UnitId} {o : Op} {rest : Bytes} {i : Instr}
    (h : decodeOperands c u o rest = .ok i) : i.wf c = true ∧ i.op = o ∧ encodeOperands i = rest := by
  revert h
  fun_cases decodeOperands c u o rest
  case case1 m3 m2 m1 m0 msg hlen =>
    rintro ⟨⟩
    refine ⟨decide_eq_true (hlen ▸ be32_lt m3 m2 m1 m0), rfl, ?_⟩
    rw [encodeOperands, hlen, bytesOf_be32]
    rfl
  case case4 hlen | case8 hlen | case13 hlen =>
    rintro ⟨⟩
    exact ⟨decide_eq_true hlen, rfl, rfl⟩
  case case6 =>
    rintro ⟨⟩
    exact ⟨rfl, rfl, rfl⟩
  case case10 n1 n0 data hlen =>
    rintro ⟨⟩
    refine ⟨decide_eq_true (hlen ▸ be16_lt n1 n0), rfl, ?_⟩
    rw [encodeOperands, hlen, bytesOf_be16]
    rfl
  case case15 seq l data hlen =>
    rintro ⟨⟩
    refine ⟨decide_eq_true (hlen ▸ l.isLt), rfl, ?_⟩
    rw [encodeOperands, hlen, byteOf_toNat_zero]
    rfl
  all_goals nofun

/-- The command read is addressed to the unit that reads it, which accepts its op (R77). -/
theorem decodeOperands_unit {c : Config} {u : UnitId} {o : Op} {rest : Bytes} {i : Instr}
    (ha : o.acceptedBy u = true) (h : decodeOperands c u o rest = .ok i) : i.unit = u := by
  revert h
  fun_cases decodeOperands c u o rest
  case case1 | case4 | case6 | case8 =>
    rintro ⟨⟩
    exact (eq_of_beq ha).symm
  case case10 | case13 | case15 =>
    rintro ⟨⟩
    rfl
  all_goals nofun

/-! ## The op is tested first (R82, R184) -/

theorem decode_of_accepted (c : Config) {u : UnitId} {o : Op} (ha : o.acceptedBy u = true) (rest : Bytes) :
    decode c u (o.code :: rest) = decodeOperands c u o rest := by
  simp only [decode, Op.ofByte?_code, ha, if_true]

theorem decode_of_not_accepted (c : Config) {u : UnitId} {op : Byte} (h : ∀ o : Op, o.acceptedBy u = true → op ≠ o.code)
    (rest : Bytes) : decode c u (op :: rest) = .error (.illegalOp (some op)) := by
  cases ho : Op.ofByte? op with
  | none => simp only [decode, ho]
  | some o =>
    simp only [decode, ho]
    exact if_neg fun ha => h o ha (Op.code_of_ofByte? ho)

/-- A command with an op is illegal exactly where its unit accepts no operation of that code. -/
theorem decode_eq_illegalOp_iff {c : Config} {u : UnitId} {op : Byte} {rest : Bytes} :
    decode c u (op :: rest) = .error (.illegalOp (some op)) ↔ ∀ o : Op, o.acceptedBy u = true → op ≠ o.code := by
  refine ⟨fun h o ha hop => ?_, fun h => decode_of_not_accepted c h rest⟩
  rw [hop, decode_of_accepted c ha] at h
  cases decodeOperands_error h

/-- What is decoded begins with the code of an operation that the unit accepts, and the rest is its operands. -/
theorem decode_ok {c : Config} {u : UnitId} {cmd : Bytes} {i : Instr} (h : decode c u cmd = .ok i) :
    ∃ (o : Op) (rest : Bytes), cmd = o.code :: rest ∧ o.acceptedBy u = true ∧ decodeOperands c u o rest = .ok i := by
  cases cmd with
  | nil => cases h
  | cons op rest =>
    by_cases hacc : ∃ o : Op, o.acceptedBy u = true ∧ op = o.code
    · obtain ⟨o, ha, rfl⟩ := hacc
      exact ⟨o, rest, rfl, ha, decode_of_accepted c ha rest ▸ h⟩
    · rw [decode_of_not_accepted c (fun o ha hop => hacc ⟨o, ha, hop⟩)] at h
      cases h

/-! ## The codes as numbers (R77, R82) -/

theorem Op.forall_iff {p : Op → Prop} :
    (∀ o, p o) ↔ p .sndMsg ∧ p .sndAck ∧ p .sndTimeout ∧ p .rcvPkt ∧ p .ckSum ∧ p .ckVerify ∧ p .pktEncode :=
  ⟨fun h => ⟨h _, h _, h _, h _, h _, h _, h _⟩,
   fun ⟨h1, h2, h3, h4, h5, h6, h7⟩ o => by cases o <;> assumption⟩

/-- The codes of R82, as ranges: all those that are not the code of an operation the unit accepts. -/
theorem not_accepted_iff_range (u : UnitId) (op : Byte) :
    (∀ o : Op, o.acceptedBy u = true → op ≠ o.code) ↔
      (op = 0x00 ∨ (0x04 ≤ op.toNat ∧ op.toNat ≤ 0x10) ∨ (0x12 ≤ op.toNat ∧ op.toNat ≤ 0x20) ∨ 0x24 ≤ op.toNat) ∨
      (u = .rcv ∧ 0x01 ≤ op.toNat ∧ op.toNat ≤ 0x03) ∨ (u = .snd ∧ op = 0x11) := by
  have hlt := op.isLt
  rw [Op.forall_iff]
  cases u <;> simp [Op.acceptedBy, Op.code, ← BitVec.toNat_inj] <;> omega

/-! ## The obligations -/

/-- Settles O50. -/
theorem decodeOfEncode : Obligations.DecodeOfEncode := fun _ _ hw => decode_encode hw

/-- Settles O51: an op and the operands read after it are the encoding of the command read. -/
theorem encodeOfDecode : Obligations.EncodeOfDecode := by
  intro c u cmd i h
  obtain ⟨o, rest, rfl, ha, hops⟩ := decode_ok h
  obtain ⟨hw, rfl, rfl⟩ := decodeOperands_ok hops
  exact ⟨hw, decodeOperands_unit ha hops, rfl⟩

/-- Settles O52. -/
theorem illegalOperationCodes : Obligations.IllegalOperationCodes := fun _ u =>
  ⟨rfl, fun op _ => decode_eq_illegalOp_iff.trans (not_accepted_iff_range u op), fun _ _ _ h => present_of_error h⟩

/-- Settles O53: reading the operands of an accepted op gives a command that it encodes, or fails on the length. -/
theorem otherLengthsAreRefused : Obligations.OtherLengthsAreRefused := by
  intro c u cmd o hhead ha hnone
  obtain ⟨rest, rfl⟩ := List.head?_eq_some_iff.mp hhead
  have hdec : decode c u (o.code :: rest) = .error (.badLength (o.code :: rest).length) := by
    cases hops : decode c u (o.code :: rest) with
    | ok i =>
      obtain ⟨hw, hu, henc⟩ := encodeOfDecode c u _ i hops
      exact absurd henc (hnone i hw hu)
    | error r =>
      rw [decode_of_accepted c ha] at hops
      rw [decodeOperands_error hops, List.length_cons, Nat.add_comm]
  exact ⟨hdec, fun s hs => present_of_error (hs ▸ hdec)⟩

/-- Settles O55: each byte string is the encoding of its command, written out. -/
theorem writtenOutCommandsDecode : Obligations.WrittenOutCommandsDecode := by
  have hpkt : ∀ (h : Bytes) (n : Nat), h.length + n = Config.ex.P →
      decide ((h ++ List.replicate n 0x00).length = Config.ex.P) = true := fun h n hn => by
    rw [List.length_append, List.length_replicate, hn, decide_eq_true rfl]
  exact ⟨decode_encode (i := .sndMsg [0x41, 0x42, 0x43]) rfl,
    decode_encode (i := .sndAck _) (hpkt [0x02, 0x00, 0xFD, 0xFF] 60 rfl),
    decode_encode (i := .sndTimeout) rfl,
    decode_encode (i := .rcvPkt _) (hpkt [0x01, 0x01, 0xED, 0xFE, 0x11] 59 rfl),
    decode_encode (i := .ckSum .rcv [0x01]) rfl,
    decode_encode (i := .ckVerify .snd _) (hpkt [0x00, 0x00, 0xFF, 0xFF] 60 rfl),
    decode_encode (i := .pktEncode .snd 0x05 [0x41, 0x42, 0x43]) rfl⟩

end Sys2Proof
end

section
/-! The tail of a received packet is never read (R74, R136): a transaction sees of a packet what `verify`, `seq` and
`payload` read, and these read the occupied region only. -/

namespace Sys2Proof.Machine

/-! ## What is read of a packet -/

/-- Two packets that a transaction cannot tell apart. -/
structure SameRead (c : Config) (p q : Bytes) : Prop where
  verify_eq : verify c p = verify c q
  seq_eq : pktSeq p = pktSeq q
  payload_eq : verify c p = true → pktPayload p = pktPayload q

/-- What may be read of a packet is the same in both: the occupied region, or the header where the length is illegal. -/
def AgreeOnRegion (c : Config) (p q : Bytes) : Prop :=
  if pktLen p ≤ c.C then p.take (4 + pktLen p) = q.take (4 + pktLen p) else p.take 4 = q.take 4

theorem byteAt_of_take {p q : Bytes} {n i : Nat} (h : p.take n = q.take n) (hi : i < n) : byteAt p i = byteAt q i := by
  have hget := congrArg (·[i]?) h
  simp only [List.getElem?_take, hi, if_true] at hget
  rw [byteAt, byteAt, List.getD_eq_getElem?_getD, List.getD_eq_getElem?_getD, hget]

theorem pktRegion_eq_take (p : Bytes) : pktRegion p = p.take (4 + pktLen p) := rfl

theorem pktPayload_eq_drop (p : Bytes) : pktPayload p = (pktRegion p).drop 4 := by
  rw [pktRegion_eq_take, List.drop_take]
  rfl

theorem pktLen_le_of_verify {c : Config} {p : Bytes} (h : verify c p = true) : pktLen p ≤ c.C := by
  by_contra hlt
  rw [verify, if_pos (Nat.lt_of_not_le hlt)] at h
  cases h

theorem AgreeOnRegion.header {c : Config} {p q : Bytes} (h : AgreeOnRegion c p q) {i : Nat} (hi : i < 4) :
    byteAt p i = byteAt q i := by
  unfold AgreeOnRegion at h
  split at h
  · exact byteAt_of_take h (by omega)
  · exact byteAt_of_take h hi

theorem AgreeOnRegion.region {c : Config} {p q : Bytes} (h : AgreeOnRegion c p q) (hlen : pktLen p ≤ c.C) :
    pktRegion p = pktRegion q := by
  have hq : pktLen p = pktLen q := congrArg BitVec.toNat (h.header (by decide))
  rw [AgreeOnRegion, if_pos hlen] at h
  rw [pktRegion_eq_take, pktRegion_eq_take, h, hq]

theorem AgreeOnRegion.sameRead {c : Config} {p q : Bytes} (h : AgreeOnRegion c p q) : SameRead c p q where
  verify_eq := by
    have hq : pktLen p = pktLen q := congrArg BitVec.toNat (h.header (by decide))
    rw [verify, verify, ← hq]
    exact ite_congr rfl (fun _ => rfl) fun hle => by rw [h.region (Nat.le_of_not_lt hle)]
  seq_eq := h.header (by decide)
  payload_eq := fun hv => by rw [pktPayload_eq_drop, pktPayload_eq_drop, h.region (pktLen_le_of_verify hv)]

/-! ## Transactions of two commands that answer alike -/

/-- Two transactions that leave the same state and record the same outcome and actions, each of its own command. -/
def SameEffect (u : UnitId) (cmd cmd' : Bytes) (a a' : Answer) : Prop :=
  ∃ (t : State) (k : TxOutcome) (out : List Action),
    a = .next (t.record u ⟨cmd, k, out⟩) ∧ a' = .next (t.record u ⟨cmd', k, out⟩)

theorem SameEffect.finish (s : State) (u : UnitId) (cmd cmd' : Bytes) (k : TxOutcome) (out : List Action) :
    SameEffect u cmd cmd' (finish s u cmd k out) (finish s u cmd' k out) := ⟨s, k, out, rfl, rfl⟩

theorem SameEffect.ite {u : UnitId} {cmd cmd' : Bytes} {p : Prop} [Decidable p] {a b a' b' : Answer}
    (ht : p → SameEffect u cmd cmd' a a') (hf : ¬ p → SameEffect u cmd cmd' b b') :
    SameEffect u cmd cmd' (if p then a else b) (if p then a' else b') := by
  split
  · next h => exact ht h
  · next h => exact hf h

theorem execCkVerify_sameEffect {s : State} {p q : Bytes} (u : UnitId) (hp : p.length = s.cfg.P)
    (hq : q.length = s.cfg.P) (h : SameRead s.cfg p q) :
    SameEffect u (encode (.ckVerify u p)) (encode (.ckVerify u q)) (execCkVerify u p s) (execCkVerify u q s) := by
  simp only [execCkVerify, if_pos hp, if_pos hq, ← h.verify_eq]
  exact .finish ..

theorem execRcvPkt_sameEffect {s : State} {p q : Bytes} (hp : p.length = s.cfg.P) (hq : q.length = s.cfg.P)
    (h : SameRead s.cfg p q) :
    SameEffect .rcv (encode (.rcvPkt p)) (encode (.rcvPkt q)) (execRcvPkt p s) (execRcvPkt q s) := by
  simp only [execRcvPkt, if_pos hp, if_pos hq, ← h.verify_eq, ← h.seq_eq]
  refine .ite (fun hv => ?_) fun _ => .ite (fun _ => .finish ..) fun _ => .finish ..
  rw [h.payload_eq hv]
  exact .ite (fun _ => .finish ..) fun _ => .finish ..

theorem execSndAck_sameEffect {s : State} {p q : Bytes} (hc : s.cfg.WF) (hb : s.snd.base < s.cfg.maxBuffer)
    (hp : p.length = s.cfg.P) (hq : q.length = s.cfg.P) (h : SameRead s.cfg p q) :
    SameEffect .snd (encode (.sndAck p)) (encode (.sndAck q)) (execSndAck p s) (execSndAck q s) := by
  have hint : s.snd.ackInterval s.cfg q = s.snd.ackInterval s.cfg p := by
    rw [Sender.ackInterval, Sender.ackInterval, h.seq_eq]
  simp only [execSndAck_eq hc hb, if_pos hp, if_pos hq, ← h.verify_eq, hint]
  exact .ite (fun _ => .ite (fun _ => .finish ..) fun _ => .ite (fun _ => .finish ..) fun _ => .finish ..)
    fun _ => .finish ..

/-- Settles O35: packets that agree on what may be read are read alike by the three commands. -/
theorem receivedTailNeverRead : Obligations.ReceivedTailNeverRead := by
  intro u p q s hc hi hp hq hagree
  have hread : SameRead s.cfg p q := AgreeOnRegion.sameRead hagree
  exact ⟨execRcvPkt_sameEffect hp hq hread, execSndAck_sameEffect hc hi.1 hp hq hread,
    execCkVerify_sameEffect u hp hq hread⟩

end Sys2Proof.Machine
end

section
/-! Output actions: their byte layouts, and which unit emits which (30_encoding.md R80). -/

namespace Sys2Proof.Machine

/-! ## Which actions a unit emits -/

/-- An action that a unit may emit, a delivered message having at most `C` bytes (R80, the last paragraph). -/
def Action.AllowedAt (c : Config) (a : Action) : UnitId → Prop
  | .snd => (∃ p, a = .pktOut p) ∨ a = .timerStart ∨ a = .timerStop ∨ ∃ r, a = .result r
  | .rcv => (∃ p, a = .pktOut p) ∨ (∃ m, a = .msgOut m ∧ m.length ≤ c.C) ∨ ∃ r, a = .result r

theorem Action.allowedAt_pktOut (c : Config) (p : Bytes) (u : UnitId) : (Action.pktOut p).AllowedAt c u := by
  cases u <;> exact .inl ⟨p, rfl⟩

theorem Action.allowedAt_result (c : Config) (r : Bytes) (u : UnitId) : (Action.result r).AllowedAt c u := by
  cases u with
  | snd => exact .inr (.inr (.inr ⟨r, rfl⟩))
  | rcv => exact .inr (.inr ⟨r, rfl⟩)

theorem Action.allowedAt_timer (c : Config) {a : Action} (h : a = .timerStart ∨ a = .timerStop) : a.AllowedAt c .snd :=
  .inr (h.imp_right .inl)

theorem Action.allowedAt_msgOut {c : Config} {m : Bytes} (h : m.length ≤ c.C) : (Action.msgOut m).AllowedAt c .rcv :=
  .inr (.inl ⟨m, rfl, h⟩)

theorem pktPayload_length_le {c : Config} {p : Bytes} (h : verify c p = true) : (pktPayload p).length ≤ c.C := by
  have hlen := pktLen_le_of_verify h
  simp only [pktPayload, slice, List.length_take]
  omega

theorem TxFrom.allowed {x : Sender} {t : SndTx} (h : TxFrom x t) (c : Config) : ∀ a ∈ t.out, a.AllowedAt c .snd := by
  intro a ha
  obtain ⟨p, rfl⟩ | rfl := h.actions a ha
  · exact Action.allowedAt_pktOut c p .snd
  · exact Action.allowedAt_timer c (.inl rfl)

theorem forall_mem_emit {t : SndTx} {a : Action} {Q : Action → Prop} :
    (∀ b ∈ (t.emit a).out, Q b) ↔ (∀ b ∈ t.out, Q b) ∧ Q a := by
  simp only [SndTx.emit_out, List.forall_mem_append, List.forall_mem_singleton]

theorem State.refusedAs_traceOf (s : State) (u : UnitId) (cmd : Bytes) (r : Rejection) :
    (s.refusedAs u cmd r).traceOf u = s.traceOf u ++ [⟨cmd, .refused r, []⟩] := by cases u <;> rfl

theorem State.setDraws_record_traceOf (s : State) (u : UnitId) (k : Nat) (e : Entry) :
    ((s.setDraws u k).record u e).traceOf u = s.traceOf u ++ [e] := by cases u <;> rfl

/-- The entry a transaction records holds actions of its own unit only. -/
theorem exec_allowed {i : Instr} {s t : State} (h : exec i s = .next t) :
    ∃ e, t.traceOf i.unit = s.traceOf i.unit ++ [e] ∧ ∀ a ∈ e.actions, a.AllowedAt s.cfg i.unit := by
  cases i with
  | sndMsg msg =>
    obtain ⟨r, rfl⟩ | rfl | ⟨x, n, hx, rfl⟩ := execSndMsg_inv h
    · exact ⟨_, rfl, nofun⟩
    · exact ⟨_, rfl, nofun⟩
    · obtain ⟨hfrom, -⟩ := (TxFrom.start s.snd).storeChunks hx
      exact ⟨_, congrArg (· ++ _) hfrom.trace, hfrom.allowed s.cfg⟩
  | sndAck pkt =>
    obtain ⟨r, rfl⟩ | ⟨k, -, rfl⟩ | ⟨x, n, -, -, hx, rfl⟩ := execSndAck_inv h
    · exact ⟨_, rfl, nofun⟩
    · exact ⟨_, rfl, nofun⟩
    · obtain ⟨hfrom, -⟩ := (TxFrom.start s.snd).slide hx
      exact ⟨_, congrArg (· ++ _) hfrom.trace, (hfrom.emit (.inr rfl)).allowed s.cfg⟩
  | sndTimeout =>
    obtain ⟨x, a, k, ha, -, hfrom, -, rfl⟩ := execSndTimeout_inv h
    exact ⟨_, congrArg (· ++ _) hfrom.trace, forall_mem_emit.mpr ⟨hfrom.allowed s.cfg, Action.allowedAt_timer s.cfg ha⟩⟩
  | rcvPkt pkt =>
    obtain ⟨r, rfl⟩ | rfl | ⟨k, -, rfl⟩ | ⟨hv, -, rfl⟩ := execRcvPkt_inv h
    · exact ⟨_, rfl, nofun⟩
    · exact ⟨_, rfl, nofun⟩
    · exact ⟨_, rfl, List.forall_mem_singleton.mpr (Action.allowedAt_pktOut ..)⟩
    · exact ⟨_, rfl, List.forall_mem_cons.mpr ⟨Action.allowedAt_msgOut (pktPayload_length_le hv),
        List.forall_mem_singleton.mpr (Action.allowedAt_pktOut ..)⟩⟩
  | ckSum u | ckVerify u | pktEncode u =>
    obtain ⟨r, rfl⟩ | ⟨r, k, rfl⟩ := exec_codec_inv (by simp [Instr.op]) h
    · exact ⟨_, State.refusedAs_traceOf .., nofun⟩
    · exact ⟨_, State.setDraws_record_traceOf .., List.forall_mem_singleton.mpr (Action.allowedAt_result ..)⟩

/-- Settles O37: the entry recorded is the one whose actions are allowed. -/
theorem unitsEmitTheirOwnActions : Obligations.UnitsEmitTheirOwnActions := by
  intro i s t e a h he ha
  obtain ⟨e', he', hall⟩ := exec_allowed h
  cases List.append_cancel_left (he'.symm.trans he)
  have hallowed := hall a ha
  exact ⟨fun hu => by rwa [hu] at hallowed, fun hu => by rwa [hu] at hallowed⟩

/-! ## Byte layouts -/

/-- The action a byte layout stands for: the code names it, and the operand follows the length field (R80). -/
def Action.read? : Bytes → Option Action
  | [] => none
  | code :: rest =>
    if code = 0x81 then some (.pktOut rest)
    else if code = 0x82 then some .timerStart
    else if code = 0x83 then some .timerStop
    else if code = 0x91 then some (.msgOut (rest.drop 1))
    else if code = 0xA1 then some (.result (rest.drop 2))
    else none

theorem Action.read?_encode (a : Action) : Action.read? a.encode = some a := by cases a <;> rfl

theorem Action.encode_injective {a b : Action} (h : a.encode = b.encode) : a = b :=
  Option.some.inj (by rw [← a.read?_encode, h, b.read?_encode])

/-- Settles O54: a layout reads back as the action it was written from. -/
theorem actionEncodingIsInjective : Obligations.ActionEncodingIsInjective :=
  ⟨fun _ => rfl, rfl, rfl, fun _ => ⟨_, rfl, byteOf_zero_toNat⟩, fun _ => ⟨_, _, rfl, be16_byteOf⟩,
    fun _ _ => Action.encode_injective⟩

end Sys2Proof.Machine
end

section
/-! What the lines of an event script present (30_encoding.md R85, R86). -/

namespace Sys2Proof.Machine

/-- A line of a command presents the encoding of that command, to the unit that the line names. -/
theorem Line.assemble_of_instr {c : Config} {u : UnitId} {w : Directive} {i : Instr} (h : w.instr? c u = some i) :
    (Line.mk u w).assemble c = .command u (encode i) := by
  simp only [Line.assemble, h]

/-! ## The packets of the pseudo-instructions -/

/-- The checksum word of an acknowledgment: the complement of the one word `n << 8` (R101, R161). -/
theorem checksum_zeroedRegion_nil (n : Byte) :
    hiByte (checksum (zeroedRegion n [])) = 0xFF - n ∧ loByte (checksum (zeroedRegion n [])) = 0xFF := by
  have hn := n.isLt
  have hsum : csumSum (zeroedRegion n []) = onesAdd (onesAdd 0 (beWord n 0)) 0 := rfl
  have hval : (checksum (zeroedRegion n [])).toNat = 0xFFFF - n.toNat * 256 := by
    rw [checksum, hsum, onesAdd_zero, onesAdd_comm, onesAdd_zero, BitVec.toNat_not, beWord_toNat]
    simp
  constructor <;> apply BitVec.eq_of_toNat_eq
  · rw [hiByte_toNat, hval, BitVec.toNat_sub]
    simp
    omega
  · rw [loByte_toNat, hval]
    simp
    omega

/-- A packet with no payload is its header and its tail (R161). -/
theorem buildPacket_nil (n : Byte) (tail : Bytes) : buildPacket n [] tail = [n, 0x00, 0xFF - n, 0xFF] ++ tail := by
  obtain ⟨hhi, hlo⟩ := checksum_zeroedRegion_nil n
  rw [buildPacket, hhi, hlo]
  rfl

theorem drop_buildPacket (seq : Byte) (d tail : Bytes) : (buildPacket seq d tail).drop (4 + d.length) = tail := by
  have hlen : (buildPacket seq d []).length = 4 + d.length := buildPacket_length seq d []
  have happ : buildPacket seq d tail = buildPacket seq d [] ++ tail := by simp [buildPacket]
  rw [happ, List.drop_left' hlen]

/-- The packet of `DATA` is one built for its operands, with a tail of `0x00` (R85, R86). -/
theorem ByteExpr.eval_pkt_isPacketOf {c : Config} {n : Byte} {d : ByteExpr} (hd : (d.eval c).length ≤ c.C) :
    IsPacketOf c n (d.eval c) ((ByteExpr.pkt n d).eval c) :=
  ⟨hd, _, List.length_replicate, rfl⟩

/-- Settles O59. -/
theorem scriptLinesPresentTheirCommands : Obligations.ScriptLinesPresentTheirCommands := by
  intro c u _
  refine ⟨fun _ => ⟨_, _, _, _, rfl, be32_byteOf⟩, fun _ => rfl, rfl, fun _ => rfl,
    fun _ => ⟨_, _, rfl, be16_byteOf⟩, fun _ => rfl, fun _ _ => ⟨_, rfl, byteOf_zero_toNat⟩, fun n => ⟨rfl, ?_⟩,
    fun n d => ⟨rfl, fun hd => ⟨_, ByteExpr.eval_pkt_isPacketOf hd, drop_buildPacket n _ _, rfl⟩⟩, rfl, rfl, ?_⟩
  · exact congrArg (fun p => Input.command u (0x02 :: p)) (buildPacket_nil n _)
  · rintro w i hi hw rfl
    exact ⟨_, Line.assemble_of_instr hi, decode_encode hw⟩

end Sys2Proof.Machine
end

section
/-! The checksum engine in ordinary arithmetic (40_codec_checksum.md R100 to R102), and what `verify` detects (R107, R109,
R110). -/

namespace Sys2Proof.Machine

/-! ## The residue that a one's-complement sum keeps (R102) -/

/-- Two numbers that every folding of carries takes to one 16-bit sum: congruent modulo `0xFFFF`, and 0 together. -/
def SameOnesSum (m n : Nat) : Prop := (m = 0 ↔ n = 0) ∧ m % 0xFFFF = n % 0xFFFF

theorem SameOnesSum.symm {m n : Nat} (h : SameOnesSum m n) : SameOnesSum n m := ⟨h.1.symm, h.2.symm⟩

theorem SameOnesSum.trans {m n k : Nat} (h : SameOnesSum m n) (h' : SameOnesSum n k) : SameOnesSum m k :=
  ⟨h.1.trans h'.1, h.2.trans h'.2⟩

/-- Of the numbers with one sum at most one has 16 bits: 0 or a value in `1..0xFFFF`. -/
theorem SameOnesSum.eq_of_lt {m n : Nat} (h : SameOnesSum m n) (hm : m < 2 ^ 16) (hn : n < 2 ^ 16) : m = n := by
  obtain ⟨hzero, hmod⟩ := h
  omega

theorem SameOnesSum.onesAdd {s : Word16} {n : Nat} (h : SameOnesSum s.toNat n) (w : Word16) :
    SameOnesSum (onesAdd s w).toNat (n + w.toNat) := by
  obtain ⟨hzero, hmod⟩ := h
  unfold SameOnesSum
  rw [onesAdd_toNat]
  split <;> omega

/-- A sum of words from `s` on keeps the residue of the integer sum. -/
theorem SameOnesSum.foldl_onesAdd {s : Word16} {n : Nat} (h : SameOnesSum s.toNat n) (ws : List Word16) :
    SameOnesSum (ws.foldl Machine.onesAdd s).toNat (n + (ws.map BitVec.toNat).sum) := by
  induction ws generalizing s n with
  | nil => exact h
  | cons w ws ih =>
    rw [List.map_cons, List.sum_cons, ← Nat.add_assoc]
    exact ih (h.onesAdd w)

theorem sumWords_sameOnesSum (ws : List Word16) :
    SameOnesSum (sumWords ws).toNat (ws.map BitVec.toNat).sum := by
  simpa only [sumWords, Nat.zero_add] using SameOnesSum.foldl_onesAdd (s := 0) (n := 0) ⟨Iff.rfl, rfl⟩ ws

theorem csumSum_sameOnesSum (b : Bytes) :
    SameOnesSum (csumSum b).toNat ((wordsOf b).map BitVec.toNat).sum := sumWords_sameOnesSum _

theorem sumWords_perm {ws ws' : List Word16} (h : ws.Perm ws') : sumWords ws = sumWords ws' := by
  have hsum : (ws.map BitVec.toNat).sum = (ws'.map BitVec.toNat).sum := (h.map _).sum_eq
  have hsame : SameOnesSum (sumWords ws).toNat (sumWords ws').toNat :=
    (sumWords_sameOnesSum ws).trans (hsum ▸ (sumWords_sameOnesSum ws').symm)
  exact BitVec.eq_of_toNat_eq (hsame.eq_of_lt (BitVec.isLt _) (BitVec.isLt _))

/-! ## A wide accumulator (R102) -/

theorem foldCarries_sameOnesSum (k n : Nat) : SameOnesSum (foldCarries k n) n := by
  induction k generalizing n with
  | zero => exact ⟨Iff.rfl, rfl⟩
  | succ k ih =>
    have hfold : SameOnesSum (n % 2 ^ 16 + n / 2 ^ 16) n := by
      unfold SameOnesSum
      omega
    exact (ih _).trans hfold

/-- A fold makes a number of more than 16 bits smaller, so that some number of folds leaves 16 bits. -/
theorem exists_foldCarries_lt (n : Nat) : ∃ k, foldCarries k n < 2 ^ 16 := by
  induction n using Nat.strong_induction_on with
  | _ n ih =>
    by_cases hn : n < 2 ^ 16
    · exact ⟨0, hn⟩
    · obtain ⟨k, hk⟩ := ih (n % 2 ^ 16 + n / 2 ^ 16) (by omega)
      exact ⟨k + 1, hk⟩

/-- Settles O1: the sum of the words and every folding of their integer sum keep one residue, which one 16-bit value has. -/
theorem csumSumIsOnesComplementSum : Obligations.CsumSumIsOnesComplementSum := by
  intro b
  have hsum := csumSum_sameOnesSum b
  have ⟨hzero, hmod⟩ := hsum
  have hlt := (csumSum b).isLt
  refine ⟨?_, fun hne => ⟨hmod, fun v hv1 hv2 hv => ?_⟩, fun ws hws => sumWords_perm hws, exists_foldCarries_lt _,
    fun k hk => ((foldCarries_sameOnesSum k _).trans hsum.symm).eq_of_lt hk hlt⟩
  · rw [← BitVec.toNat_inj]
    refine hzero.trans (List.sum_eq_zero_iff.trans ?_)
    simp only [List.forall_mem_map, ← BitVec.toNat_inj]
    rfl
  · have hne' : (csumSum b).toNat ≠ 0 := fun h => hne (BitVec.eq_of_toNat_eq h)
    omega

/-- Settles O2. -/
theorem checksumComplementsTheSum : Obligations.ChecksumComplementsTheSum := by
  intro b
  have hnot : (checksum b).toNat = 0xFFFF - (csumSum b).toNat := BitVec.toNat_not
  refine ⟨hnot, fun h => ?_⟩
  rw [hnot, h]
  rfl

/-! ## One byte changed -/

/-- What a byte at an index counts for in its word (R58): the high byte stands first. -/
def byteWeight (i : Nat) : Nat := if i % 2 = 0 then 2 ^ 8 else 1

/-- A changed byte changes the integer sum of the words by its own change, times its weight. -/
theorem sum_wordsOf_set {b : Bytes} {i : Nat} (hi : i < b.length) (y : Byte) :
    ((wordsOf (b.set i y)).map BitVec.toNat).sum + byteWeight i * (byteAt b i).toNat =
      ((wordsOf b).map BitVec.toNat).sum + byteWeight i * y.toNat := by
  induction b using wordsOf.induct generalizing i with
  | case1 => cases hi
  | case2 hi =>
    obtain rfl : i = 0 := by simpa using hi
    simp [wordsOf, byteAt, byteWeight, beWord_toNat]
    omega
  | case3 first second rest ih =>
    match i with
    | 0 | 1 =>
      simp [wordsOf, byteAt, byteWeight, beWord_toNat]
      omega
    | j + 2 =>
      have hrest := ih (i := j) (by simpa using hi)
      have hweight : byteWeight (j + 2) = byteWeight j := by simp [byteWeight]
      have hbyte : byteAt (first :: second :: rest) (j + 2) = byteAt rest j := rfl
      simp only [List.set_cons_succ, wordsOf, List.map_cons, List.sum_cons, hweight, hbyte]
      omega

/-- A change of one byte is less than `0xFFFF` in either place of its word, so the residue sees it. -/
theorem csumSum_set_ne {b : Bytes} {i : Nat} (hi : i < b.length) {y : Byte} (hy : y ≠ byteAt b i) :
    csumSum (b.set i y) ≠ csumSum b := by
  intro heq
  obtain ⟨-, hold⟩ := csumSum_sameOnesSum b
  obtain ⟨-, hnew⟩ := csumSum_sameOnesSum (b.set i y)
  rw [heq, hold] at hnew
  have hchange := sum_wordsOf_set hi y
  have hne : y.toNat ≠ (byteAt b i).toNat := fun h => hy (BitVec.eq_of_toNat_eq h)
  have hylt := y.isLt
  have hlt := (byteAt b i).isLt
  unfold byteWeight at hchange
  split at hchange <;> omega

/-! ## One bit flipped -/

theorem flippedByte_ne (x : Byte) {k : Nat} (hk : k < 8) : x ^^^ BitVec.ofNat 8 (2 ^ k) ≠ x := by
  intro h
  have hzero : BitVec.ofNat 8 (2 ^ k) = 0#8 := (BitVec.xor_right_inj x).mp (h.trans BitVec.xor_zero.symm)
  have hpos : 0 < 2 ^ k := Nat.two_pow_pos k
  have hval := congrArg BitVec.toNat hzero
  rw [BitVec.toNat_ofNat, Nat.mod_eq_of_lt (Nat.pow_lt_pow_right (by decide) hk)] at hval
  exact hpos.ne' hval

theorem csumSum_flipBit_ne {b : Bytes} {i k : Nat} (hi : i < b.length) (hk : k < 8) :
    csumSum (flipBit b i k) ≠ csumSum b :=
  csumSum_set_ne hi (flippedByte_ne _ hk)

theorem byteAt_flipBit_of_ne (p : Bytes) {i j : Nat} (k : Nat) (h : i ≠ j) : byteAt (flipBit p i k) j = byteAt p j := by
  simp only [byteAt, flipBit, List.getD_eq_getElem?_getD, List.getElem?_set_ne h]

theorem pktLen_flipBit (p : Bytes) {i : Nat} (k : Nat) (h : i ≠ 1) : pktLen (flipBit p i k) = pktLen p :=
  congrArg BitVec.toNat (byteAt_flipBit_of_ne p k h)

theorem take_flipBit (p : Bytes) {i n : Nat} (k : Nat) (h : i < n) : (flipBit p i k).take n = flipBit (p.take n) i k := by
  have hbyte : byteAt p i = byteAt (p.take n) i :=
    byteAt_of_take (n := n) (by rw [List.take_take, Nat.min_self]) h
  rw [flipBit, flipBit, List.take_set, hbyte]

theorem take_flipBit_of_le (p : Bytes) {i n : Nat} (k : Nat) (h : n ≤ i) : (flipBit p i k).take n = p.take n :=
  List.take_set_of_le h

/-! ## What `verify` detects (R107, R110) -/

theorem verify_eq_true_iff {c : Config} {p : Bytes} :
    verify c p = true ↔ pktLen p ≤ c.C ∧ csumSum (p.take (4 + pktLen p)) = 0xFFFF := by
  rw [verify, pktRegion_eq_take]
  split
  · next h => exact iff_of_false Bool.false_ne_true fun ⟨hle, _⟩ => Nat.not_le.mpr h hle
  · next h => rw [beq_iff_eq, and_iff_right (Nat.le_of_not_lt h)]

theorem verify_of_len_too_long {c : Config} {p : Bytes} (h : c.C < pktLen p) : verify c p = false :=
  if_pos h

/-- A flip in the region, the length byte apart, leaves the region where it is and changes its sum. -/
theorem verify_flipBit_region {c : Config} {p : Bytes} {i k : Nat} (hv : verify c p = true) (hi : i ≠ 1)
    (hreg : i < 4 + pktLen p) (hp : i < p.length) (hk : k < 8) : verify c (flipBit p i k) = false := by
  rw [Bool.eq_false_iff, Ne, verify_eq_true_iff, pktLen_flipBit p k hi, take_flipBit p k hreg]
  rintro ⟨-, hflip⟩
  obtain ⟨-, hsum⟩ := verify_eq_true_iff.mp hv
  have hlt : i < (p.take (4 + pktLen p)).length := by
    rw [List.length_take]
    exact Nat.lt_min.mpr ⟨hreg, hp⟩
  exact csumSum_flipBit_ne hlt hk (hflip.trans hsum.symm)

theorem verify_flipBit_tail (c : Config) (p : Bytes) {i : Nat} (k : Nat) (h : 4 + pktLen p ≤ i) :
    verify c (flipBit p i k) = verify c p := by
  rw [Bool.eq_iff_iff, verify_eq_true_iff, verify_eq_true_iff, pktLen_flipBit p k (by omega),
    take_flipBit_of_le p k h]

theorem IsPacketOf.pktLen {c : Config} (hc : c.WF) {seq : Byte} {d p : Bytes} (h : IsPacketOf c seq d p) :
    pktLen p = d.length := by
  obtain ⟨hd, tail, -, rfl⟩ := h
  have hcap := Config.capacity_bounds hc
  exact pktLen_buildPacket seq tail (by omega)

/-- Settles O3. -/
theorem verifyIsLegalLengthAndFullSum : Obligations.VerifyIsLegalLengthAndFullSum := fun _ _ => verify_eq_true_iff

/-- Settles O4. -/
theorem encodedPacketVerifies : Obligations.EncodedPacketVerifies := fun _ _ _ _ hc h => h.verify hc

/-- A flip of the length byte that is not detected: an empty packet read as one of 2 bytes, whose tail begins with the
word `0xFFFD` that makes up for the length. -/
theorem lengthFlip_undetected :
    ∃ seq d p k, IsPacketOf Config.ex seq d p ∧ k < 8 ∧ verify Config.ex (flipBit p 1 k) = true :=
  ⟨0x00, [], buildPacket 0x00 [] ([0xFF, 0xFD] ++ List.replicate 58 0x00), 1, ⟨by decide, _, by decide, rfl⟩,
    by decide, by decide⟩

/-- The same flip where the tail is zero. -/
theorem lengthFlip_detected :
    ∃ seq d p k, IsPacketOf Config.ex seq d p ∧ k < 8 ∧ Machine.pktLen (flipBit p 1 k) ≤ Config.ex.C ∧
      verify Config.ex (flipBit p 1 k) = false :=
  ⟨0x00, [], buildPacket 0x00 [] (List.replicate 60 0x00), 1, ⟨by decide, _, by decide, rfl⟩, by decide, by decide,
    by decide⟩

/-- Settles O5. -/
theorem singleBitFlipDetection : Obligations.SingleBitFlipDetection := by
  refine ⟨fun c seq d p i k hc h hi hk => ?_, lengthFlip_undetected, lengthFlip_detected⟩
  have hlen := h.pktLen hc
  refine ⟨fun hbyte => ?_, fun hone hlong => ?_, fun htail => ?_⟩
  · exact verify_flipBit_region (h.verify hc) (by omega) (by omega) (by rwa [h.length hc]) hk
  · subst hone
    exact verify_of_len_too_long hlong
  · rw [verify_flipBit_tail c p k (by omega), h.verify hc]

end Sys2Proof.Machine
end

section
/-! What the three codec commands answer (40_codec_checksum.md R104, R106, R108). -/

namespace Sys2Proof.Machine

/-! ## Meanings of the commands that complete -/

theorem execCkSum_eq (u : UnitId) {data : Bytes} (s : State) (h : data.length < 2 ^ 16) :
    execCkSum u data s = .next (s.record u
      { cmd := encode (.ckSum u data), outcome := .ok,
        actions := [.result [hiByte (csumSum data), loByte (csumSum data), hiByte (checksum data),
          loByte (checksum data)]] }) :=
  if_pos h

theorem execCkVerify_eq (u : UnitId) {pkt : Bytes} {s : State} (h : pkt.length = s.cfg.P) :
    execCkVerify u pkt s = .next (s.record u
      { cmd := encode (.ckVerify u pkt), outcome := .ok,
        actions := [.result [if verify s.cfg pkt then 0x01 else 0x00]] }) :=
  if_pos h

theorem execPktEncode_of_too_long (u : UnitId) (seq : Byte) {data : Bytes} {s : State} (h : s.cfg.C < data.length) :
    execPktEncode u seq data s =
      .next (s.refusedAs u (encode (.pktEncode u seq data)) (.badPayloadLen data.length)) :=
  if_pos h

/-- The packet is the unit's `encode` of the operands, and all that it writes is the count of the unit's draws. -/
theorem execPktEncode_of_fits (u : UnitId) (seq : Byte) {data : Bytes} {s : State} (h : data.length ≤ s.cfg.C) :
    ∃ p k, IsPacketOf s.cfg seq data p ∧
      execPktEncode u seq data s = .next ((s.setDraws u k).record u
        { cmd := encode (.pktEncode u seq data), outcome := .ok, actions := [.result p] }) := by
  have hfit : ¬ s.cfg.C < data.length := Nat.not_lt.mpr h
  cases u with
  | snd => exact ⟨_, _, ⟨h, _, drawBytes_length .., rfl⟩, if_neg hfit⟩
  | rcv => exact ⟨_, _, ⟨h, _, drawBytes_length .., rfl⟩, if_neg hfit⟩

/-! ## Results and refusals -/

/-- The two bytes of a word, most significant first (R57). -/
theorem hiByte_loByte_toNat (w : Word16) : (hiByte w).toNat * 256 + (loByte w).toNat = w.toNat := by
  rw [← beWord_toNat, beWord_hi_lo]

/-- Operands that cannot be read refuse the command of an accepted op. -/
theorem present_of_decodeOperands_error {s : State} {u : UnitId} {o : Op} {rest : Bytes} {r : Rejection}
    (ha : o.acceptedBy u = true) (h : decodeOperands s.cfg u o rest = .error r) :
    present u (o.code :: rest) s = .next (s.refusedAs u (o.code :: rest) r) :=
  present_of_error ((decode_of_accepted s.cfg ha rest).trans h)

theorem decodeOperands_ckSum_error (c : Config) (u : UnitId) {rest : Bytes}
    (h : ∀ n1 n0 data, rest = n1 :: n0 :: data → data.length ≠ be16 n1 n0) :
    decodeOperands c u .ckSum rest = .error (.badLength (1 + rest.length)) :=
  match rest with
  | [] | [_] => rfl
  | _ :: _ :: _ => if_neg (h _ _ _ rfl)

theorem decodeOperands_pktEncode_error (c : Config) (u : UnitId) {rest : Bytes}
    (h : ∀ seq l data, rest = seq :: l :: data → data.length ≠ l.toNat) :
    decodeOperands c u .pktEncode rest = .error (.badLength (1 + rest.length)) :=
  match rest with
  | [] | [_] => rfl
  | _ :: _ :: _ => if_neg (h _ _ _ rfl)

/-- Both units accept the codec commands (R77). -/
theorem codec_acceptedBy {o : Op} (ho : o = .ckSum ∨ o = .ckVerify ∨ o = .pktEncode) (u : UnitId) :
    o.acceptedBy u = true := by
  rcases ho with rfl | rfl | rfl <;> rfl

/-! ## The obligations -/

/-- Settles O6. -/
theorem ckSumResult : Obligations.CkSumResult := by
  refine ⟨fun u data s hlen => ⟨_, _, _, _, execCkSum_eq u s hlen, hiByte_loByte_toNat _, ?_⟩, fun u rest s h => ?_⟩
  · rw [hiByte_loByte_toNat, (checksumComplementsTheSum data).1]
  · exact present_of_decodeOperands_error (codec_acceptedBy (.inl rfl) u) (decodeOperands_ckSum_error s.cfg u h)

/-- Settles O7. -/
theorem ckVerifyResult : Obligations.CkVerifyResult := by
  refine ⟨fun u pkt s hlen => ⟨_, execCkVerify_eq u hlen, fun hv => if_pos hv, fun hv => ?_⟩, fun u pkt s hlen => ?_⟩
  · exact if_neg (Bool.eq_false_iff.mp hv)
  · exact present_of_decodeOperands_error (codec_acceptedBy (.inr (.inl rfl)) u) (if_neg hlen)

/-- Settles O8. -/
theorem pktEncodeResult : Obligations.PktEncodeResult := by
  refine ⟨fun u seq data s _ hfit => execPktEncode_of_fits u seq hfit,
    fun u seq data s hlong => execPktEncode_of_too_long u seq hlong, fun u rest s h => ?_⟩
  exact present_of_decodeOperands_error (codec_acceptedBy (.inr (.inr rfl)) u)
    (decodeOperands_pktEncode_error s.cfg u h)

end Sys2Proof.Machine
end

section
/-! Segmentation (41_sender.md R122), and the sender's transactions in closed form (R121, R130, R140). -/

namespace Sys2Proof.Machine

/-! ## Segmentation -/

/-- Chunks begin within the message, and wherever a multiple of `C` lies within it one begins. -/
theorem lt_chunkCount_iff {c : Config} (hc : c.WF) {msg : Bytes} {j : Nat} :
    j < chunkCount c msg ↔ j * c.C < msg.length := by
  obtain ⟨hC, -⟩ := Config.capacity_bounds hc
  rw [chunkCount, ← Nat.succ_le_iff, Nat.le_div_iff_mul_le hC, Nat.succ_mul]
  omega

theorem length_le_chunkCount_mul {c : Config} (hc : c.WF) (msg : Bytes) : msg.length ≤ chunkCount c msg * c.C :=
  Nat.not_lt.mp ((lt_chunkCount_iff hc).not.mp (Nat.lt_irrefl _))

theorem chunkCount_pos {c : Config} (hc : c.WF) {msg : Bytes} (h : msg ≠ []) : 0 < chunkCount c msg := by
  rw [lt_chunkCount_iff hc, Nat.zero_mul]
  exact List.length_pos_iff.mpr h

theorem chunk_eq_take_drop (c : Config) (msg : Bytes) (j : Nat) : chunk c msg j = (msg.drop (j * c.C)).take c.C := by
  rw [chunk, slice, List.take_eq_take_iff, List.length_drop, Nat.succ_mul]
  omega

theorem chunk_length (c : Config) (msg : Bytes) (j : Nat) :
    (chunk c msg j).length = min c.C (msg.length - j * c.C) := by
  rw [chunk_eq_take_drop, List.length_take, List.length_drop]

theorem getElem?_chunk {c : Config} {msg : Bytes} {i j : Nat} (h : i < (chunk c msg j).length) :
    (chunk c msg j)[i]? = msg[j * c.C + i]? := by
  rw [chunk_length] at h
  rw [chunk_eq_take_drop, List.getElem?_take_of_lt (by omega), List.getElem?_drop]

theorem getElem?_chunks {c : Config} {msg : Bytes} {j : Nat} (h : j < chunkCount c msg) :
    (chunks c msg)[j]? = some (chunk c msg j) := by
  simp [chunks, h]

theorem getElem?_chunks_eq_some {c : Config} {msg d : Bytes} {j : Nat} (h : (chunks c msg)[j]? = some d) :
    j < chunkCount c msg ∧ d = chunk c msg j := by
  have hj : j < chunkCount c msg := by
    rw [← chunks_length]
    exact (List.getElem?_eq_some_iff.mp h).1
  rw [getElem?_chunks hj] at h
  exact ⟨hj, (Option.some.inj h).symm⟩

/-- The first `k` chunks together are the first `k * C` bytes of the message. -/
theorem flatten_chunk_range (c : Config) (msg : Bytes) (k : Nat) :
    ((List.range k).map (chunk c msg)).flatten = msg.take (k * c.C) := by
  induction k with
  | zero => simp
  | succ k ih =>
    rw [List.range_succ, List.map_append, List.flatten_append, ih, Nat.succ_mul, List.take_add, ← chunk_eq_take_drop]
    simp

theorem chunks_flatten {c : Config} (hc : c.WF) (msg : Bytes) : (chunks c msg).flatten = msg := by
  rw [chunks, flatten_chunk_range, List.take_of_length_le (length_le_chunkCount_mul hc msg)]

theorem chunks_nil {c : Config} (hc : c.WF) : chunks c [] = [] := by
  rw [← List.length_eq_zero_iff, chunks_length]
  exact Nat.eq_zero_of_not_pos ((lt_chunkCount_iff hc).not.mpr (by simp))

/-! ## SND_MSG -/

theorem execSndMsg_of_too_long {msg : Bytes} {s : State} (h : s.cfg.maxMsg < msg.length) :
    execSndMsg msg s = .next (s.refusedAs .snd (encode (.sndMsg msg)) (.msgTooLong msg.length)) :=
  if_pos h

theorem execSndMsg_nil (s : State) :
    execSndMsg [] s = .next (s.record .snd { cmd := encode (.sndMsg []), outcome := .msgEmpty, actions := [] }) := by
  rw [execSndMsg, List.length_nil, if_neg (Nat.not_lt_zero _), if_pos rfl, finish_eq]

/-- How many chunks of a message `SND_MSG` stores: as many as there are and as fit (R123). -/
def Sender.storable (c : Config) (x : Sender) (msg : Bytes) : Nat := min (chunkCount c msg) (c.maxBuffer - x.count)

/-- `SND` with a message's storable chunks stored, and the actions this emitted. -/
abbrev Sender.StoredMsg (c : Config) (x : Sender) (msg : Bytes) (t : SndTx) : Prop :=
  Stored c (chunks c msg) (x.storable c msg) { u := x, out := [] } t

theorem storeChunks_msg {c : Config} (hc : c.WF) {x : Sender} (hi : x.IndexInv c) (msg : Bytes) :
    ∃ t, storeChunks c (chunks c msg) { u := x, out := [] } = .ok (t, x.storable c msg) ∧ x.StoredMsg c msg t := by
  obtain ⟨-, hcount, -⟩ := id hi
  have h := storeChunks_ok hc (fun _ => mem_chunks_length (msg := msg)) (t := { u := x, out := [] }) (Sender.nbp_lt hi)
    hcount
  rwa [chunks_length] at h

/-- `SND_MSG` of a message that is neither empty nor too long, its accesses to the buffer all in range (R121). -/
theorem execSndMsg_stores {msg : Bytes} {s : State} (hc : s.cfg.WF) (hi : s.snd.IndexInv s.cfg) (hne : msg ≠ [])
    (hle : msg.length ≤ s.cfg.maxMsg) :
    ∃ t, s.snd.StoredMsg s.cfg msg t ∧ execSndMsg msg s =
      finishSnd s (encode (.sndMsg msg)) (msgOutcome (s.snd.storable s.cfg msg) (chunkCount s.cfg msg)) t := by
  obtain ⟨t, hok, hst⟩ := storeChunks_msg hc hi msg
  refine ⟨t, hst, ?_⟩
  rw [execSndMsg, if_neg (Nat.not_lt.mpr hle), if_neg (mt List.length_eq_zero_iff.mp hne), hok]

/-- Inversion of `SND_MSG` where the indices are in their ranges: the chunks stored are those that fit. -/
theorem execSndMsg_inv_stored {msg : Bytes} {s t : State} (hc : s.cfg.WF) (hi : s.snd.IndexInv s.cfg)
    (h : execSndMsg msg s = .next t) :
    RefusedBy (.sndMsg msg) s t ∨ RecordedBy (.sndMsg msg) s t .msgEmpty [] ∨
    ∃ x, s.snd.StoredMsg s.cfg msg x ∧ RecordedBy (.sndMsg msg) { s with snd := x.u } t
      (msgOutcome (s.snd.storable s.cfg msg) (chunkCount s.cfg msg)) x.out := by
  refine (execSndMsg_inv h).imp_right (Or.imp_right ?_)
  rintro ⟨x, n, hx, ht⟩
  obtain ⟨x', hok, hst⟩ := storeChunks_msg hc hi msg
  rw [hx] at hok
  cases hok
  exact ⟨x, hst, ht⟩

/-- The chunks stored are the first of the message, each a packet numbered from `next_seq` on (R124). -/
theorem Sender.StoredMsg.isPacketOf {c : Config} {x : Sender} {msg : Bytes} {t : SndTx} (h : x.StoredMsg c msg t)
    {j : Nat} (hj : j < x.storable c msg) :
    IsPacketOf c (x.nextSeq + BitVec.ofNat 8 j) (chunk c msg j) (t.u.slotBytes c (slotAdd c x.nbp j) c.P) :=
  h.packets j _ hj (getElem?_chunks (Nat.lt_of_lt_of_le hj (Nat.min_le_left _ _)))

/-- An address outside the slots written reads as before (R125): it lies in another slot. -/
theorem Stored.byteAtAddr_outside {c : Config} (hc : c.WF) {ds : List Bytes} {n : Nat} {t t' : SndTx}
    (h : Stored c ds n t t') {a : Nat}
    (ha : ∀ j, j < n → a < slotAddr c (slotAdd c t.u.nbp j) 0 ∨ slotAddr c (slotAdd c t.u.nbp j) c.P ≤ a) :
    t'.u.byteAtAddr a = t.u.byteAtAddr a := by
  have ho : a % c.P < c.P := Nat.mod_lt _ (Config.P_pos hc)
  have haddr : slotAddr c (a / c.P) (a % c.P) = a := Nat.div_add_mod' a c.P
  have hslot : ∀ j, j < n → a / c.P ≠ slotAdd c t.u.nbp j := by
    intro j hj heq
    have hout := ha j hj
    rw [← heq] at hout
    simp only [slotAddr] at hout haddr
    omega
  have hbytes := h.others (a / c.P) c.P (Nat.le_refl _) hslot
  rw [← haddr, ← byteAt_slotBytes t'.u c _ ho, hbytes, byteAt_slotBytes t.u c _ ho]

/-! ## SND_ACK -/

section
variable {pkt : Bytes} {s : State} (hc : s.cfg.WF) (hb : s.snd.base < s.cfg.maxBuffer) (hlen : pkt.length = s.cfg.P)
include hc hb hlen

theorem execSndAck_of_corrupt (hv : verify s.cfg pkt = false) :
    execSndAck pkt s = .next (s.record .snd
      { cmd := encode (.sndAck pkt), outcome := .ackCorrupt, actions := [] }) := by
  rw [execSndAck_eq hc hb, if_pos hlen, hv]
  rfl

theorem execSndAck_of_idle (hv : verify s.cfg pkt = true) (h0 : s.snd.count = 0) :
    execSndAck pkt s = .next (s.record .snd
      { cmd := encode (.sndAck pkt), outcome := .ackIdle, actions := [] }) := by
  rw [execSndAck_eq hc hb, if_pos hlen, if_pos hv, if_pos h0]
  rfl

theorem execSndAck_of_stale (hv : verify s.cfg pkt = true) (h0 : 0 < s.snd.count)
    (hst : s.cfg.winSize ≤ s.snd.ackInterval s.cfg pkt ∨ s.snd.count ≤ s.snd.ackInterval s.cfg pkt) :
    execSndAck pkt s = .next (s.record .snd
      { cmd := encode (.sndAck pkt), outcome := .ackStale (s.snd.ackInterval s.cfg pkt), actions := [] }) := by
  have hstale : ackStale s.cfg s.snd.count (s.snd.ackInterval s.cfg pkt) = true := by simpa [ackStale] using hst
  rw [execSndAck_eq hc hb, if_pos hlen, if_pos hv, if_neg (Nat.ne_of_gt h0), if_pos hstale]
  rfl

theorem execSndAck_of_advancing (hv : verify s.cfg pkt = true) (hw : s.snd.ackInterval s.cfg pkt < s.cfg.winSize)
    (hn : s.snd.ackInterval s.cfg pkt < s.snd.count) :
    execSndAck pkt s = finishSnd s (encode (.sndAck pkt)) (.ackAdvanced (s.snd.ackInterval s.cfg pkt))
      ((s.snd.slid s.cfg (s.snd.ackInterval s.cfg pkt + 1)).emit .timerStart) := by
  have hfresh : ¬ ackStale s.cfg s.snd.count (s.snd.ackInterval s.cfg pkt) = true := by
    simp only [ackStale, Bool.or_eq_true, decide_eq_true_eq]
    omega
  rw [execSndAck_eq hc hb, if_pos hlen, if_pos hv, if_neg (by omega), if_neg hfresh]

end

/-- The distance of R131 in ordinary arithmetic (R112). -/
theorem Sender.ackInterval_eq (c : Config) (x : Sender) (pkt : Bytes) :
    x.ackInterval c pkt = ((byteAt pkt 0).toNat + 256 - (byteAt (x.slotBytes c x.base 1) 0).toNat) % 256 := by
  have hlt := (byteAt (x.slotBytes c x.base 1) 0).isLt
  rw [Sender.ackInterval, seqDist, BitVec.toNat_sub, pktSeq]
  omega

/-- The newest packet has the number before `next_seq`. -/
theorem Sender.seqAt_newest {x : Sender} {n : Nat} (h : x.count = n + 1) : x.seqAt n = x.nextSeq - 1 := by
  have hcancel : ∀ a b : Byte, a - (b + 1) + b = a - 1 := fun a b => by ring
  rw [Sender.seqAt, h, BitVec.ofNat_add]
  exact hcancel _ _

/-- The packet of window position `i` is at distance `i` from the oldest one (R36, R135). -/
theorem Sender.PacketInv.ackInterval {c : Config} (hc : c.WF) {x : Sender} (h : x.PacketInv c)
    (hb : x.base < c.maxBuffer) {i : Nat} (hi : i < x.count) (hi' : i < 256) {pkt : Bytes}
    (hp : byteAt pkt 0 = x.seqAt i) : x.ackInterval c pkt = i := by
  have hdist : x.seqAt i - x.seqAt 0 = BitVec.ofNat 8 i := by
    rw [Sender.seqAt, Sender.seqAt, add_sub_add_left_eq_sub]
    exact BitVec.sub_zero _
  rw [Sender.ackInterval, byteAt_base_slot (Config.P_pos hc) hb, h.byteAt_packetAt (by omega), pktSeq, hp, seqDist,
    hdist, BitVec.toNat_ofNat]
  exact Nat.mod_eq_of_lt hi'

/-- An acknowledgment of the packet at window position `i` frees the `i + 1` oldest slots. -/
theorem execSndAck_of_position {s : State} (hs : s.Inv) {i : Nat} (hw : i < s.cfg.winSize) (hi : i < s.snd.count)
    {d pkt : Bytes} (hp : IsPacketOf s.cfg (s.snd.seqAt i) d pkt) :
    execSndAck pkt s =
      finishSnd s (encode (.sndAck pkt)) (.ackAdvanced i) ((s.snd.slid s.cfg (i + 1)).emit .timerStart) := by
  have hc := hs.config
  obtain ⟨hb, -⟩ := hs.sender.index
  obtain ⟨-, -, -, hwin, -⟩ := id hc
  have hseq : byteAt pkt 0 = s.snd.seqAt i := by
    obtain ⟨-, tail, -, rfl⟩ := id hp
    rfl
  have hdist := hs.sender.packets.ackInterval hc hb hi (by omega) hseq
  have hadv := execSndAck_of_advancing hc hb (hp.length hc) (hp.verify hc) (hdist ▸ hw) (hdist ▸ hi)
  rwa [hdist] at hadv

/-! ## SND_TIMEOUT -/

theorem execSndTimeout_of_empty {s : State} (h : s.snd.count = 0) :
    execSndTimeout s = finishSnd s (encode .sndTimeout) .toEmpty ((s.snd.resent s.cfg 0).emit .timerStop) :=
  if_pos h

theorem execSndTimeout_of_outstanding {s : State} (hm : 0 < s.cfg.maxBuffer) (h : 0 < s.snd.count) :
    execSndTimeout s = finishSnd s (encode .sndTimeout) (.toRetransmit (s.snd.sentCount s.cfg))
      ((s.snd.resent s.cfg (s.snd.sentCount s.cfg)).emit .timerStart) :=
  (execSndTimeout_eq hm).trans (if_neg (Nat.ne_of_gt h))

end Sys2Proof.Machine
end

section
/-! The obligations of 41_sender.md about single transactions. -/

namespace Sys2Proof.Machine

/-! ## SND_MSG -/

/-- Settles O9. -/
theorem segmentationCutsTheMessage : Obligations.SegmentationCutsTheMessage := by
  intro c msg hc
  obtain ⟨hC, -⟩ := Config.capacity_bounds hc
  refine ⟨chunks_length c msg, fun j d hd => ?_, chunks_flatten hc msg, ?_⟩
  · obtain ⟨hj, rfl⟩ := getElem?_chunks_eq_some hd
    have hstart := (lt_chunkCount_iff hc).mp hj
    rw [chunks_length, chunk_length]
    refine ⟨fun hnext => ?_, fun hlast => ?_, fun i hi => getElem?_chunk (chunk_length c msg j ▸ hi)⟩
    · have hnext' := (lt_chunkCount_iff hc).mp hnext
      rw [Nat.succ_mul] at hnext'
      omega
    · have hend := length_le_chunkCount_mul hc msg
      rw [← hlast, Nat.succ_mul] at hend
      omega
  · rintro rfl
    exact ⟨chunks_nil hc, execSndMsg_nil⟩

/-- Settles O10, by the three values of `msgOutcome`. -/
theorem sndMsgOutcome : Obligations.SndMsgOutcome := by
  intro msg s hc hi
  refine ⟨execSndMsg_of_too_long, ?_, fun hne hle => ?_⟩
  · rintro rfl
    exact execSndMsg_nil s
  · obtain ⟨t, hst, hex⟩ := execSndMsg_stores hc hi hne hle
    refine ⟨_, t.out, chunkCount s.cfg msg, s.snd.storable s.cfg msg, hex.trans (finishSnd_eq ..), rfl, rfl, ?_⟩
    have hle : s.snd.storable s.cfg msg ≤ chunkCount s.cfg msg := Nat.min_le_left _ _
    dsimp only
    rw [hst.trace, msgOutcome]
    split
    · next hall => exact .inl ⟨hall, rfl⟩
    · split
      · next hnone => exact .inr (.inl ⟨hnone, rfl⟩)
      · exact .inr (.inr ⟨by omega, by omega, rfl⟩)

/-- Settles O11: of a message that is not empty a chunk is stored where the buffer is empty. -/
theorem sndMsgRegisters : Obligations.SndMsgRegisters := by
  intro msg s hc hi hne hle
  obtain ⟨t, hst, hex⟩ := execSndMsg_stores hc hi hne hle
  have hsome : s.snd.count = 0 → 0 < s.snd.storable s.cfg msg := by
    intro h0
    have hk := chunkCount_pos hc hne
    have hm := Config.maxBuffer_pos hc
    rw [Sender.storable]
    omega
  have harmed : t.u.tmrArmed = if s.snd.count = 0 then true else s.snd.tmrArmed :=
    hst.tmrArmed.trans (if_congr (and_iff_left_of_imp hsome) rfl rfl)
  exact ⟨_, s.snd.storable s.cfg msg, hex.trans (finishSnd_eq ..), rfl, hst.base, hst.nbp, hst.count, hst.nextSeq,
    harmed, hst.bufDraw, rfl, rfl, rfl, rfl, rfl⟩

/-- Settles O12. -/
theorem sndMsgStoresChunks : Obligations.SndMsgStoresChunks := by
  intro msg s hc hi hne hle
  obtain ⟨t, hst, hex⟩ := execSndMsg_stores hc hi hne hle
  exact ⟨_, s.snd.storable s.cfg msg, hex.trans (finishSnd_eq ..), rfl, hst.nextSeq, fun _ => hst.isPacketOf,
    fun _ => hst.byteAtAddr_outside hc⟩

/-- Settles O13: the actions of each chunk stored are those of `storeActions`. -/
theorem sndMsgTransmits : Obligations.SndMsgTransmits := by
  intro msg s hc hi hne hle
  obtain ⟨t, hst, hex⟩ := execSndMsg_stores hc hi hne hle
  refine ⟨_, _, s.snd.storable s.cfg msg, hex.trans (finishSnd_eq ..), rfl, congrArg (· ++ _) hst.trace, ?_⟩
  refine hst.out.trans (congrArg (fun f => (List.range _).flatMap f) (funext fun j => ?_))
  refine if_congr Iff.rfl ?_ rfl
  split <;> rfl

/-! ## SND_ACK -/

/-- Settles O14. -/
theorem sndAckAdvances : Obligations.SndAckAdvances := by
  intro pkt s interval hc hi hlen hv hint hw hn
  rw [← Sender.ackInterval_eq] at hint
  subst hint
  exact execSndAck_of_advancing hc hi.1 hlen hv hw hn

/-- Settles O15. -/
theorem sndAckTests : Obligations.SndAckTests := by
  intro pkt s interval hc hi hlen hint
  obtain ⟨hb, -⟩ := hi
  rw [← Sender.ackInterval_eq] at hint
  subst hint
  exact ⟨execSndAck_of_corrupt hc hb hlen, execSndAck_of_idle hc hb hlen, execSndAck_of_stale hc hb hlen,
    fun hv _ hw hn => ⟨_, _, execSndAck_of_advancing hc hb hlen hv hw hn, rfl⟩⟩

/-- Settles O19: the third packet is at window position 2. -/
theorem scenarioDSlidesByThree : Obligations.ScenarioDSlidesByThree := by
  intro pkt s hs hw hcount hp
  refine ⟨_, _, execSndAck_of_position hs (by omega) (by omega) hp, rfl, rfl, rfl, rfl, ?_⟩
  show (enteringPositions s.cfg s.snd.count 3).map _ ++ [Action.timerStart] = _
  rw [enteringPositions, hw]
  rfl

/-! ## SND_TIMEOUT -/

/-- Settles O20. -/
theorem sndTimeoutRetransmits : Obligations.SndTimeoutRetransmits := by
  refine ⟨fun s h => execSndTimeout_of_empty h, fun s hc h => execSndTimeout_of_outstanding (Config.maxBuffer_pos hc) h,
    fun s rest hne => ?_⟩
  obtain ⟨b, rest, rfl⟩ := List.exists_cons_of_ne_nil hne
  exact present_of_decodeOperands_error (u := .snd) (o := .sndTimeout) rfl rfl

/-- Settles O21: what the message transmits is the whole window, which the expiry resends. -/
theorem scenarioCResendsTheSamePackets : Obligations.ScenarioCResendsTheSamePackets := by
  intro msg s hc hi h0 hne hle hwin hroom
  obtain ⟨x, hst, hex⟩ := execSndMsg_stores hc hi hne hle
  have hk := chunkCount_pos hc hne
  have hcount : x.u.count = chunkCount s.cfg msg := by
    rw [hst.count, Sender.storable, h0, Nat.zero_add, Nat.sub_zero]
    exact Nat.min_eq_left hroom
  have hsent : x.u.sentCount s.cfg = chunkCount s.cfg msg := by
    rw [Sender.sentCount, hcount]
    exact Nat.min_eq_left hwin
  have hfirst : pktOuts x.out = (List.range (x.u.sentCount s.cfg)).map (x.u.packetAt s.cfg) := by
    rw [sndMsg_firstTransmissions hi hst, Sender.sentCount, h0, Nat.zero_min, Nat.sub_zero, List.range_eq_range']
  refine ⟨_, _, _, _, hex.trans (finishSnd_eq ..), congrArg (· ++ _) hst.trace,
    execSndTimeout_of_outstanding (Config.maxBuffer_pos hc) (hcount ▸ hk), rfl, ?_, ?_, hst.base⟩
  · show (pktOuts x.out).length = chunkCount s.cfg msg
    rw [hfirst, List.length_map, List.length_range, hsent]
  · show pktOuts (((List.range (x.u.sentCount s.cfg)).map fun i => .pktOut (x.u.packetAt s.cfg i)) ++ [.timerStart]) =
      pktOuts x.out
    rw [pktOuts_append, pktOuts_map_pktOut, hfirst]
    exact List.append_nil _

/-- Settles O22: the newest packet is at window position `count - 1`. -/
theorem emptyingAckThenExpiryIsQuiescent : Obligations.EmptyingAckThenExpiryIsQuiescent := by
  intro pkt s hs h0 hw hp
  obtain ⟨n, hn⟩ : ∃ n, s.snd.count = n + 1 := Nat.exists_eq_succ_of_ne_zero (Nat.ne_of_gt h0)
  rw [← Sender.seqAt_newest hn] at hp
  have hcount : s.snd.count - (n + 1) = 0 := by omega
  refine ⟨_, _, execSndAck_of_position hs (by omega) (by omega) hp, hcount, rfl, execSndTimeout_of_empty hcount,
    hcount, rfl⟩

end Sys2Proof.Machine
end

section
/-! What a run counts (41_sender.md R144): the packets acknowledged and produced, and what becomes of them. -/

namespace Sys2Proof.Machine

/-! ## The ledger of the sender -/

/-- `SND` moves from `x` to `y` while `es` is observed: what the entries acknowledge and store is what `base`, `count`
and `next_seq` move by, and the indices stay in their ranges (R144). -/
structure Sender.Ledger (c : Config) (x : Sender) (es : List Entry) (y : Sender) : Prop where
  trace : y.trace = x.trace ++ es
  count : y.count + ackedTotal es = x.count + storedTotal es
  base : y.base = slotAdd c x.base (ackedTotal es)
  nextSeq : y.nextSeq = x.nextSeq + BitVec.ofNat 8 (storedTotal es)
  index : y.IndexInv c

theorem storedTotal_append (a b : List Entry) : storedTotal (a ++ b) = storedTotal a + storedTotal b := by
  induction a with
  | nil => simp [storedTotal]
  | cons e rest ih => simp [storedTotal, ih, Nat.add_assoc]

theorem Sender.Ledger.trans {c : Config} {x y z : Sender} {es fs : List Entry} (h : x.Ledger c es y)
    (h' : y.Ledger c fs z) : x.Ledger c (es ++ fs) z where
  trace := by rw [h'.trace, h.trace, List.append_assoc]
  count := by
    have hx := h.count
    have hy := h'.count
    rw [ackedTotal_append, storedTotal_append]
    omega
  base := by rw [h'.base, h.base, slotAdd_slotAdd, ackedTotal_append]
  nextSeq := by rw [h'.nextSeq, h.nextSeq, storedTotal_append, BitVec.ofNat_add, BitVec.add_assoc]
  index := h'.index

/-- Entries that neither acknowledge nor store go with registers that stay. -/
theorem Sender.Ledger.of_same {c : Config} {x y : Sender} {es : List Entry} (hi : x.IndexInv c)
    (ha : ackedTotal es = 0) (hs : storedTotal es = 0) (htrace : y.trace = x.trace ++ es) (hbase : y.base = x.base)
    (hnbp : y.nbp = x.nbp) (hcount : y.count = x.count) (hseq : y.nextSeq = x.nextSeq) : x.Ledger c es y where
  trace := htrace
  count := by rw [ha, hs, hcount]
  base := by rw [ha, slotAdd_zero hi.1, hbase]
  nextSeq := by rw [hs, hseq]; exact (BitVec.add_zero _).symm
  index := by rwa [Sender.IndexInv, hbase, hnbp, hcount]

theorem Sender.Ledger.refl {c : Config} {x : Sender} (hi : x.IndexInv c) : x.Ledger c [] x :=
  .of_same hi rfl rfl (List.append_nil _).symm rfl rfl rfl rfl

/-- The outcome of `SND_MSG` tells how many chunks were stored (R128). -/
theorem totals_msgOutcome (cmd : Bytes) (n k : Nat) (out : List Action) :
    ackedTotal [⟨cmd, msgOutcome n k, out⟩] = 0 ∧ storedTotal [⟨cmd, msgOutcome n k, out⟩] = n := by
  unfold msgOutcome
  split
  · next hall => exact ⟨rfl, hall.symm⟩
  · split
    · next hnone => exact ⟨rfl, hnone.symm⟩
    · exact ⟨rfl, rfl⟩

/-! ## Every transaction and every step -/

theorem Sender.StoredMsg.ledger {c : Config} {x : Sender} (hi : x.IndexInv c) {msg : Bytes} {t : SndTx}
    (h : x.StoredMsg c msg t) (cmd : Bytes) :
    x.Ledger c [⟨cmd, msgOutcome (x.storable c msg) (chunkCount c msg), t.out⟩]
      { t.u with trace := t.u.trace ++ [⟨cmd, msgOutcome (x.storable c msg) (chunkCount c msg), t.out⟩] } := by
  obtain ⟨hb, hcount, hn⟩ := hi
  obtain ⟨ha, hs⟩ := totals_msgOutcome cmd (x.storable c msg) (chunkCount c msg) t.out
  have hfit : x.storable c msg ≤ c.maxBuffer - x.count := Nat.min_le_right _ _
  refine ⟨congrArg (· ++ _) h.trace, ?_, ?_, ?_, ?_⟩
  · rw [ha, hs, ← h.count, Nat.add_zero]
  · rw [ha, slotAdd_zero hb]
    exact h.base
  · rw [hs]
    exact h.nextSeq
  · show t.u.base < _ ∧ t.u.count ≤ _ ∧ t.u.nbp = slotAdd c t.u.base t.u.count
    rw [h.base, h.count, h.nbp, ← slotAdd_slotAdd]
    exact ⟨hb, by dsimp only; omega, congrArg (slotAdd c · _) hn⟩

theorem Sender.slid_ledger {c : Config} {x : Sender} (hi : x.IndexInv c) {interval : Nat} (hn : interval < x.count)
    (cmd : Bytes) (out : List Action) :
    x.Ledger c [⟨cmd, .ackAdvanced interval, out⟩]
      { ((x.slid c (interval + 1)).emit .timerStart).u with
        trace := x.trace ++ [⟨cmd, .ackAdvanced interval, out⟩] } := by
  obtain ⟨hb, hcount, hnbp⟩ := hi
  refine ⟨rfl, ?_, rfl, (BitVec.add_zero _).symm, ?_⟩
  · show x.count - (interval + 1) + (interval + 1) = x.count
    omega
  · have hsplit : interval + 1 + (x.count - (interval + 1)) = x.count := by omega
    show slotAdd c x.base (interval + 1) < _ ∧ x.count - (interval + 1) ≤ _ ∧
      x.nbp = slotAdd c (slotAdd c x.base (interval + 1)) (x.count - (interval + 1))
    rw [slotAdd_slotAdd, hsplit]
    exact ⟨slotAdd_lt (Nat.zero_lt_of_lt hb) _ _, by omega, hnbp⟩

/-- A refusal is observed where the command was presented, and moves no register. -/
theorem State.refusedAs_ledger {s : State} (hi : s.snd.IndexInv s.cfg) (u : UnitId) (cmd : Bytes) (r : Rejection) :
    ∃ es, s.snd.Ledger s.cfg es (s.refusedAs u cmd r).snd := by
  cases u with
  | snd => exact ⟨_, .of_same hi rfl rfl rfl rfl rfl rfl rfl⟩
  | rcv => exact ⟨[], .refl hi⟩

theorem exec_ledger {i : Instr} {s t : State} (hc : s.cfg.WF) (hi : s.snd.IndexInv s.cfg) (h : exec i s = .next t) :
    ∃ es, s.snd.Ledger s.cfg es t.snd := by
  cases i with
  | sndMsg msg =>
    obtain ⟨r, rfl⟩ | rfl | ⟨x, hst, rfl⟩ := execSndMsg_inv_stored hc hi h
    · exact State.refusedAs_ledger hi ..
    · exact ⟨_, .of_same hi rfl rfl rfl rfl rfl rfl rfl⟩
    · exact ⟨_, hst.ledger hi _⟩
  | sndAck pkt =>
    obtain ⟨r, rfl⟩ | ⟨k, hk, rfl⟩ | ⟨x, n, -, hn, hx, rfl⟩ := execSndAck_inv h
    · exact State.refusedAs_ledger hi ..
    · obtain rfl | rfl | ⟨_, rfl⟩ := hk <;> exact ⟨_, .of_same hi rfl rfl rfl rfl rfl rfl rfl⟩
    · rw [slide_eq_slid hc hn hi.1] at hx
      cases hx
      exact ⟨_, Sender.slid_ledger hi hn _ _⟩
  | sndTimeout =>
    obtain ⟨x, a, k, -, hk, -, hu, rfl⟩ := execSndTimeout_inv h
    have htotals : ackedTotal [⟨encode .sndTimeout, k, (x.emit a).out⟩] = 0 ∧
        storedTotal [⟨encode .sndTimeout, k, (x.emit a).out⟩] = 0 := by
      obtain rfl | ⟨_, rfl⟩ := hk <;> exact ⟨rfl, rfl⟩
    obtain ⟨ha, hst⟩ := htotals
    exact ⟨_, .of_same hi ha hst (congrArg (·.trace ++ _) hu) (congrArg (·.base) hu) (congrArg (·.nbp) hu)
      (congrArg (·.count) hu) (congrArg (·.nextSeq) hu)⟩
  | rcvPkt pkt =>
    obtain ⟨-, -, -, hsnd, -⟩ := exec_records h
    rw [hsnd rfl]
    exact ⟨[], .refl hi⟩
  | ckSum u | ckVerify u | pktEncode u =>
    obtain ⟨r, rfl⟩ | ⟨r, k, rfl⟩ := exec_codec_inv (by simp [Instr.op]) h
    · exact State.refusedAs_ledger hi ..
    · cases u with
      | snd => exact ⟨_, .of_same hi rfl rfl rfl rfl rfl rfl rfl⟩
      | rcv => exact ⟨[], .refl hi⟩

theorem present_ledger {u : UnitId} {cmd : Bytes} {s t : State} (hc : s.cfg.WF) (hi : s.snd.IndexInv s.cfg)
    (h : present u cmd s = .next t) : t.cfg = s.cfg ∧ t.inputs = s.inputs ∧ ∃ es, s.snd.Ledger s.cfg es t.snd := by
  cases hd : decode s.cfg u cmd with
  | ok i =>
    rw [present_of_decode hd] at h
    obtain ⟨hcfg, hin, -⟩ := exec_records h
    exact ⟨hcfg, hin, exec_ledger hc hi h⟩
  | error r =>
    rw [present_of_error hd] at h
    cases h
    exact ⟨State.refusedAs_cfg .., State.refusedAs_inputs .., State.refusedAs_ledger hi ..⟩

/-- A list of events that resets no unit. -/
def NoReset (events : List Input) : Prop := (∀ u, Input.reset u ∉ events) ∧ Input.resetBoth ∉ events

theorem NoReset.tail {ev : Input} {rest : List Input} (h : NoReset (ev :: rest)) : NoReset rest :=
  ⟨fun u hm => h.1 u (List.mem_cons_of_mem _ hm), fun hm => h.2 (List.mem_cons_of_mem _ hm)⟩

/-- A step with no reset to come keeps the parameters and presents nothing new. -/
theorem step_ledger {s t : State} (hi : s.snd.IndexInv s.cfg) (hr : NoReset s.inputs) (h : step s = .next t) :
    t.cfg = s.cfg ∧ NoReset t.inputs ∧ ∃ es, s.snd.Ledger s.cfg es t.snd := by
  have hc := wf_of_step_next h
  rw [step_of_wf hc] at h
  split at h
  · cases h
    exact ⟨rfl, hr, [], .refl hi⟩
  · next u cmd rest hin =>
    obtain ⟨hcfg, hin', hes⟩ := present_ledger (s := { s with inputs := rest }) hc hi h
    exact ⟨hcfg, hin' ▸ NoReset.tail (hin ▸ hr), hes⟩
  · next u rest hin => exact absurd (hin ▸ List.mem_cons_self) (hr.1 u)
  · next rest hin => exact absurd (hin ▸ List.mem_cons_self) hr.2

/-! ## Runs -/

/-- A run of one more step is a step and the run after it. -/
theorem run_succ_next {M : Host.Core} {n : Nat} {s t : M.State} (h : M.run (n + 1) s = .next t) :
    ∃ s', M.step s = .next s' ∧ M.run n s' = .next t := by
  unfold Host.Core.run at h
  split at h
  · next s' hs => exact ⟨s', hs, h⟩
  · cases h
  · cases h

theorem runSteps_ledger {n : Nat} {s t : State} (hi : s.snd.IndexInv s.cfg) (hr : NoReset s.inputs)
    (h : runSteps n s = .next t) : ∃ es, s.snd.Ledger s.cfg es t.snd := by
  induction n generalizing s with
  | zero =>
    cases h
    exact ⟨[], .refl hi⟩
  | succ n ih =>
    obtain ⟨s', hs, hn⟩ := run_succ_next (M := core) h
    obtain ⟨hcfg, hr', es, hes⟩ := step_ledger hi hr hs
    obtain ⟨fs, hfs⟩ := ih (hcfg ▸ hes.index) hr' hn
    exact ⟨es ++ fs, hes.trans (hcfg ▸ hfs)⟩

/-- Settles O23: the ledger of a step, carried along the run. -/
theorem acknowledgedNeverExceedsProduced : Obligations.AcknowledgedNeverExceedsProduced := by
  intro n s t hs hr hboth h
  obtain ⟨es, hes⟩ := runSteps_ledger hs.sender.index ⟨hr, hboth⟩ h
  exact ⟨es, hes.trace, hes.count, hes.base, hes.nextSeq⟩

end Sys2Proof.Machine
end

section
/-! Every packet that a transaction emits is one that `encode` built (41_sender.md R144), so that it verifies (R109). -/

namespace Sys2Proof.Machine

/-- Every packet among the actions is one that `encode` builds. -/
def EncodedPackets (c : Config) (out : List Action) : Prop := ∀ p, .pktOut p ∈ out → ∃ seq d, IsPacketOf c seq d p

theorem EncodedPackets.append {c : Config} {a b : List Action} (ha : EncodedPackets c a) (hb : EncodedPackets c b) :
    EncodedPackets c (a ++ b) :=
  fun p hp => (List.mem_append.mp hp).elim (ha p) (hb p)

theorem encodedPackets_singleton {c : Config} {a : Action} (h : ∀ p, a ≠ .pktOut p) : EncodedPackets c [a] :=
  fun p hp => absurd (List.mem_singleton.mp hp).symm (h p)

/-- Stored packets are such packets (R36). -/
theorem Sender.PacketInv.encodedPackets {c : Config} {x : Sender} (h : x.PacketInv c) {is : List Nat}
    (his : ∀ i ∈ is, i < x.count) : EncodedPackets c (is.map fun i => .pktOut (x.packetAt c i)) := by
  intro p hp
  obtain ⟨i, hi, hpi⟩ := List.mem_map.mp hp
  cases hpi
  exact ⟨_, h i (his i hi)⟩

theorem mem_storeActions {c : Config} {count : Nat} {p q : Bytes} (h : .pktOut p ∈ storeActions c count q) : p = q := by
  unfold storeActions at h
  split at h
  · split at h <;> simpa using h
  · cases h

theorem Sender.StoredMsg.encodedPackets {c : Config} {x : Sender} {msg : Bytes} {t : SndTx} (h : x.StoredMsg c msg t) :
    EncodedPackets c t.out := by
  intro p hp
  rw [h.out, List.nil_append, List.mem_flatMap] at hp
  obtain ⟨j, hj, hp⟩ := hp
  rw [mem_storeActions hp]
  exact ⟨_, _, h.isPacketOf (List.mem_range.mp hj)⟩

theorem Receiver.ackPacket_isPacketOf (x : Receiver) (c : Config) : IsPacketOf c x.ackSeqByte [] (x.ackPacket c).1 :=
  ⟨Nat.zero_le _, _, drawBytes_length .., rfl⟩

theorem Receiver.encodedPackets_ack (x : Receiver) (c : Config) : EncodedPackets c [.pktOut (x.ackPacket c).1] := by
  intro p hp
  cases List.mem_singleton.mp hp
  exact ⟨_, _, x.ackPacket_isPacketOf c⟩

/-- The entry a transaction records holds packets that `encode` built only. -/
theorem exec_encodedPackets {i : Instr} {s t : State} (hs : s.Inv) (h : exec i s = .next t) :
    ∃ e, t.traceOf i.unit = s.traceOf i.unit ++ [e] ∧ EncodedPackets s.cfg e.actions := by
  have hc := hs.config
  have hi := hs.sender.index
  have hpackets := hs.sender.packets
  cases i with
  | sndMsg msg =>
    obtain ⟨r, rfl⟩ | rfl | ⟨x, hst, rfl⟩ := execSndMsg_inv_stored hc hi h
    · exact ⟨_, rfl, nofun⟩
    · exact ⟨_, rfl, nofun⟩
    · exact ⟨_, congrArg (· ++ _) hst.trace, hst.encodedPackets⟩
  | sndAck pkt =>
    obtain ⟨r, rfl⟩ | ⟨k, -, rfl⟩ | ⟨x, n, -, hn, hx, rfl⟩ := execSndAck_inv h
    · exact ⟨_, rfl, nofun⟩
    · exact ⟨_, rfl, nofun⟩
    · rw [slide_eq_slid hc hn hi.1] at hx
      cases hx
      have hold : ∀ i ∈ enteringPositions s.cfg s.snd.count (n + 1), i < s.snd.count :=
        fun i hi => of_decide_eq_true (List.mem_filter.mp hi).2
      exact ⟨_, rfl, (hpackets.encodedPackets hold).append (encodedPackets_singleton nofun)⟩
  | sndTimeout =>
    rw [exec, execSndTimeout_eq (Config.maxBuffer_pos hc)] at h
    split at h
    · cases h
      exact ⟨_, rfl, encodedPackets_singleton (a := .timerStop) nofun⟩
    · cases h
      have hold : ∀ i ∈ List.range (s.snd.sentCount s.cfg), i < s.snd.count :=
        fun i hi => Nat.lt_of_lt_of_le (List.mem_range.mp hi) (Nat.min_le_left _ _)
      exact ⟨_, rfl, (hpackets.encodedPackets hold).append (encodedPackets_singleton nofun)⟩
  | rcvPkt pkt =>
    obtain ⟨r, rfl⟩ | rfl | ⟨k, -, rfl⟩ | ⟨-, -, rfl⟩ := execRcvPkt_inv h
    · exact ⟨_, rfl, nofun⟩
    · exact ⟨_, rfl, nofun⟩
    · exact ⟨_, rfl, s.rcv.encodedPackets_ack s.cfg⟩
    · exact ⟨_, rfl, (encodedPackets_singleton (a := .msgOut _) nofun).append (Receiver.encodedPackets_ack _ s.cfg)⟩
  | ckSum u | ckVerify u | pktEncode u =>
    obtain ⟨r, rfl⟩ | ⟨r, k, rfl⟩ := exec_codec_inv (by simp [Instr.op]) h
    · exact ⟨_, State.refusedAs_traceOf .., nofun⟩
    · exact ⟨_, State.setDraws_record_traceOf .., encodedPackets_singleton nofun⟩

/-- Settles O36: a packet that `encode` built is whole and verifies. -/
theorem everyEmittedPacketVerifies : Obligations.EveryEmittedPacketVerifies := by
  intro i s t e p hs h he hp
  obtain ⟨e', he', hall⟩ := exec_encodedPackets hs h
  cases List.append_cancel_left (he'.symm.trans he)
  obtain ⟨seq, d, hpkt⟩ := hall p hp
  exact ⟨hpkt.length hs.config, hpkt.verify hs.config⟩

end Sys2Proof.Machine
end

section
/-! The receiver's transaction in closed form (42_receiver.md R160 to R165), and the obligations about one. -/

namespace Sys2Proof.Machine

/-! ## The acknowledgment -/

theorem Receiver.ackSeqByte_of_valid {x : Receiver} (h : x.ackValid = true) : x.ackSeqByte = x.expectedSeq - 1 :=
  if_pos h

/-- The sentinel (R162). -/
theorem Receiver.ackSeqByte_of_not_valid {x : Receiver} (h : x.ackValid = false) : x.ackSeqByte = 0xFF :=
  if_neg (Bool.eq_false_iff.mp h)

/-- A packet just accepted is acknowledged with its own number (R163). -/
@[simp] theorem Receiver.ackSeqByte_accept (x : Receiver) (seq : Byte) : (x.accept seq).ackSeqByte = seq :=
  (ackSeqByte_of_valid rfl).trans (BitVec.add_sub_cancel seq 1)

theorem IsPacketOf.byteAt_zero {c : Config} {seq : Byte} {d p : Bytes} (h : IsPacketOf c seq d p) :
    byteAt p 0 = seq := by
  obtain ⟨-, tail, -, rfl⟩ := h
  exact byteAt_buildPacket_zero seq d tail

/-- Settles O24: an acknowledgment is a packet with no payload. -/
theorem acknowledgmentBytes : Obligations.AcknowledgmentBytes := by
  intro c x _
  exact ⟨x.ackSeqByte, _, drawBytes_length _ _ (tailLength c []), buildPacket_nil x.ackSeqByte _,
    Receiver.ackSeqByte_of_valid, Receiver.ackSeqByte_of_not_valid, rfl⟩

/-- Settles O18: from number 0 the byte `0xFF` is at distance 255, which no window reaches. -/
theorem sentinelNeverAcknowledges : Obligations.SentinelNeverAcknowledges := by
  intro s p hs hvalid hp h0 hbase
  have hc := hs.config
  obtain ⟨hb, -⟩ := hs.sender.index
  obtain ⟨-, -, -, hwin, -⟩ := id hc
  have hbyte : byteAt p 0 = 0xFF := hp.byteAt_zero.trans (Receiver.ackSeqByte_of_not_valid hvalid)
  have hdist : s.snd.ackInterval s.cfg p = 255 := by
    rw [Sender.ackInterval_eq, hbyte, hbase]
    rfl
  have hstale := execSndAck_of_stale hc hb (hp.length hc) (hp.verify hc) h0 (.inl (hdist ▸ hwin))
  rw [hdist] at hstale
  exact ⟨hbyte, hstale⟩

/-! ## RCV_PKT -/

theorem pktPayload_eq_take (p : Bytes) : pktPayload p = (p.drop 4).take (pktLen p) := by
  rw [pktPayload, slice, Nat.add_sub_cancel_left]

section
variable {pkt : Bytes} {s : State} (hlen : pkt.length = s.cfg.P)
include hlen

theorem execRcvPkt_of_expected (hv : verify s.cfg pkt = true) (hseq : pktSeq pkt = s.rcv.expectedSeq) :
    execRcvPkt pkt s = finishAck s (encode (.rcvPkt pkt)) (.rxAccepted (pktSeq pkt)) (s.rcv.accept (pktSeq pkt))
      [.msgOut (pktPayload pkt)] := by
  rw [execRcvPkt, if_pos hlen, if_pos hv, if_pos hseq]

theorem execRcvPkt_of_unexpected (hv : verify s.cfg pkt = true) (hseq : pktSeq pkt ≠ s.rcv.expectedSeq) :
    execRcvPkt pkt s = finishAck s (encode (.rcvPkt pkt)) (.rxDuplicate (pktSeq pkt)) s.rcv [] := by
  rw [execRcvPkt, if_pos hlen, if_pos hv, if_neg hseq]

theorem execRcvPkt_of_corrupt (hv : verify s.cfg pkt = false) :
    execRcvPkt pkt s =
      if s.cfg.ackOnCorrupt then finishAck s (encode (.rcvPkt pkt)) .rxCorrupt s.rcv []
      else finish s .rcv (encode (.rcvPkt pkt)) .rxCorrupt [] := by
  rw [execRcvPkt, if_pos hlen, if_neg (Bool.eq_false_iff.mp hv)]

end

/-- Settles O25. -/
theorem rcvPktAccepts : Obligations.RcvPktAccepts := by
  intro pkt s _ hlen hv hseq
  have hack := (s.rcv.accept (byteAt pkt 0)).ackPacket_isPacketOf s.cfg
  have hpayload : pktPayload pkt = (pkt.drop 4).take (byteAt pkt 1).toNat := pktPayload_eq_take pkt
  rw [Receiver.ackSeqByte_accept] at hack
  rw [← hpayload]
  exact ⟨_, _, hack, execRcvPkt_of_expected hlen hv hseq⟩

/-- Settles O26. -/
theorem rcvPktReacknowledges : Obligations.RcvPktReacknowledges := by
  intro pkt s _ hlen hv hseq
  exact ⟨_, _, s.rcv.ackPacket_isPacketOf s.cfg, execRcvPkt_of_unexpected hlen hv hseq⟩

/-- Settles O27. -/
theorem rcvPktCorrupted : Obligations.RcvPktCorrupted := by
  refine ⟨fun pkt s _ hlen hv => ⟨fun hoff => ?_, fun hon => ?_⟩, fun pkt s hlen => ?_⟩
  · exact (execRcvPkt_of_corrupt hlen hv).trans (if_neg (Bool.eq_false_iff.mp hoff))
  · exact ⟨_, _, s.rcv.ackPacket_isPacketOf s.cfg, (execRcvPkt_of_corrupt hlen hv).trans (if_pos hon)⟩
  · exact present_of_decodeOperands_error (u := .rcv) (o := .rcvPkt) rfl (if_neg hlen)

end Sys2Proof.Machine
end

section
/-! What a run delivers (42_receiver.md R166): the numbers accepted, and a message for each. -/

namespace Sys2Proof.Machine

/-! ## The deliveries of the receiver -/

theorem msgOuts_append (a b : List Action) : msgOuts (a ++ b) = msgOuts a ++ msgOuts b := by
  induction a with
  | nil => rfl
  | cons x l ih => cases x <;> simp [msgOuts, ih]

/-- The `k` sequence numbers from `seq` on (R112). -/
def seqsFrom (seq : Byte) (k : Nat) : List Byte := (List.range k).map fun i => seq + BitVec.ofNat 8 i

theorem seqsFrom_add (seq : Byte) (j k : Nat) :
    seqsFrom seq (j + k) = seqsFrom seq j ++ seqsFrom (seq + BitVec.ofNat 8 j) k := by
  simp only [seqsFrom, List.range_add, List.map_append, List.map_map, Function.comp_def, BitVec.ofNat_add,
    BitVec.add_assoc]

/-- `RCV` moves from `x` to `y` while `es` is observed: `k` packets are accepted, numbered from `expected_seq` on, and
each delivers one message (R166). -/
structure Receiver.Delivers (x : Receiver) (es : List Entry) (k : Nat) (y : Receiver) : Prop where
  trace : y.trace = x.trace ++ es
  accepted : acceptedSeqs es = seqsFrom x.expectedSeq k
  messages : (msgOuts (actionsOf es)).length = k
  expectedSeq : y.expectedSeq = x.expectedSeq + BitVec.ofNat 8 k

theorem Receiver.Delivers.trans {x y z : Receiver} {es fs : List Entry} {j k : Nat} (h : x.Delivers es j y)
    (h' : y.Delivers fs k z) : x.Delivers (es ++ fs) (j + k) z where
  trace := by rw [h'.trace, h.trace, List.append_assoc]
  accepted := by rw [acceptedSeqs_append, h.accepted, h'.accepted, h.expectedSeq, seqsFrom_add]
  messages := by rw [actionsOf_append, msgOuts_append, List.length_append, h.messages, h'.messages]
  expectedSeq := by rw [h'.expectedSeq, h.expectedSeq, BitVec.ofNat_add, BitVec.add_assoc]

/-- Entries that accept and deliver nothing go with an `expected_seq` that stays. -/
theorem Receiver.Delivers.of_none {x y : Receiver} {es : List Entry} (htrace : y.trace = x.trace ++ es)
    (haccepted : acceptedSeqs es = []) (hmessages : msgOuts (actionsOf es) = [])
    (hseq : y.expectedSeq = x.expectedSeq) : x.Delivers es 0 y where
  trace := htrace
  accepted := haccepted
  messages := congrArg List.length hmessages
  expectedSeq := hseq.trans (BitVec.add_zero _).symm

theorem Receiver.Delivers.refl (x : Receiver) : x.Delivers [] 0 x :=
  .of_none (List.append_nil _).symm rfl rfl rfl

/-! ## Every transaction and every step -/

theorem State.refusedAs_delivers (s : State) (u : UnitId) (cmd : Bytes) (r : Rejection) :
    ∃ es k, s.rcv.Delivers es k (s.refusedAs u cmd r).rcv := by
  cases u with
  | snd => exact ⟨[], 0, .refl _⟩
  | rcv => exact ⟨_, 0, .of_none rfl rfl rfl rfl⟩

/-- Only the packet that `RCV` waits for is accepted, and only its payload is delivered (R163, R165). -/
theorem execRcvPkt_delivers {pkt : Bytes} {s t : State} (h : execRcvPkt pkt s = .next t) :
    ∃ es k, s.rcv.Delivers es k t.rcv := by
  obtain ⟨r, rfl⟩ | rfl | ⟨k, hk, rfl⟩ | ⟨-, hseq, rfl⟩ := execRcvPkt_inv h
  · exact State.refusedAs_delivers ..
  · exact ⟨_, 0, .of_none rfl rfl rfl rfl⟩
  · obtain rfl | rfl := hk <;> exact ⟨_, 0, .of_none rfl rfl rfl rfl⟩
  · have hnumber : pktSeq pkt = s.rcv.expectedSeq + 0 := hseq.trans (BitVec.add_zero _).symm
    exact ⟨_, 1, rfl, congrArg ([·]) hnumber, rfl, congrArg (· + 1) hseq⟩

theorem exec_delivers {i : Instr} {s t : State} (h : exec i s = .next t) : ∃ es k, s.rcv.Delivers es k t.rcv := by
  cases i with
  | sndMsg | sndAck | sndTimeout =>
    obtain ⟨-, -, hrcv, -⟩ := exec_records h
    rw [hrcv rfl]
    exact ⟨[], 0, .refl _⟩
  | rcvPkt pkt => exact execRcvPkt_delivers h
  | ckSum u | ckVerify u | pktEncode u =>
    obtain ⟨r, rfl⟩ | ⟨r, k, rfl⟩ := exec_codec_inv (by simp [Instr.op]) h
    · exact State.refusedAs_delivers ..
    · cases u with
      | snd => exact ⟨[], 0, .refl _⟩
      | rcv => exact ⟨_, 0, .of_none rfl rfl rfl rfl⟩

theorem present_delivers {u : UnitId} {cmd : Bytes} {s t : State} (h : present u cmd s = .next t) :
    t.inputs = s.inputs ∧ ∃ es k, s.rcv.Delivers es k t.rcv := by
  cases hd : decode s.cfg u cmd with
  | ok i =>
    rw [present_of_decode hd] at h
    obtain ⟨-, hin, -⟩ := exec_records h
    exact ⟨hin, exec_delivers h⟩
  | error r =>
    rw [present_of_error hd] at h
    cases h
    exact ⟨State.refusedAs_inputs .., State.refusedAs_delivers ..⟩

theorem step_delivers {s t : State} (hr : NoReset s.inputs) (h : step s = .next t) :
    NoReset t.inputs ∧ ∃ es k, s.rcv.Delivers es k t.rcv := by
  rw [step_of_wf (wf_of_step_next h)] at h
  split at h
  · cases h
    exact ⟨hr, [], 0, .refl _⟩
  · next u cmd rest hin =>
    obtain ⟨hin', hes⟩ := present_delivers h
    exact ⟨hin' ▸ NoReset.tail (hin ▸ hr), hes⟩
  · next u rest hin => exact absurd (hin ▸ List.mem_cons_self) (hr.1 u)
  · next rest hin => exact absurd (hin ▸ List.mem_cons_self) hr.2

theorem runSteps_delivers {n : Nat} {s t : State} (hr : NoReset s.inputs) (h : runSteps n s = .next t) :
    ∃ es k, s.rcv.Delivers es k t.rcv := by
  induction n generalizing s with
  | zero =>
    cases h
    exact ⟨[], 0, .refl _⟩
  | succ n ih =>
    obtain ⟨s', hs, hn⟩ := run_succ_next (M := core) h
    obtain ⟨hr', es, j, hes⟩ := step_delivers hr hs
    obtain ⟨fs, k, hfs⟩ := ih hr' hn
    exact ⟨es ++ fs, j + k, hes.trans hfs⟩

/-- Settles O29: what a step delivers, carried along the run. -/
theorem deliveryInSequenceOrder : Obligations.DeliveryInSequenceOrder := by
  intro n s t hr hboth h
  obtain ⟨es, k, hes⟩ := runSteps_delivers ⟨hr, hboth⟩ h
  exact ⟨es, k, hes.trace, hes.accepted, hes.messages, hes.expectedSeq⟩

end Sys2Proof.Machine
end

section
/-! Packets delivered in order to a receiver that waits for the first of them (42_receiver.md R163, R167). -/

namespace Sys2Proof.Machine

/-- A built packet that `RCV` waits for is accepted: its payload is delivered and the next number is waited for. -/
theorem execRcvPkt_of_isPacketOf {s : State} (hc : s.cfg.WF) {d p : Bytes}
    (hp : IsPacketOf s.cfg s.rcv.expectedSeq d p) :
    ∃ (t : State) (e : Entry), execRcvPkt p s = .next t ∧ t.cfg = s.cfg ∧ t.snd = s.snd ∧
      t.rcv.trace = s.rcv.trace ++ [e] ∧ msgOuts e.actions = [d] ∧ t.rcv.expectedSeq = s.rcv.expectedSeq + 1 := by
  have hseq : pktSeq p = s.rcv.expectedSeq := hp.byteAt_zero
  have hpayload : pktPayload p = d := by
    obtain ⟨hd, tail, -, rfl⟩ := id hp
    have hcap := Config.capacity_bounds hc
    exact pktPayload_buildPacket _ tail (by omega)
  exact ⟨_, _, execRcvPkt_of_expected (hp.length hc) (hp.verify hc) hseq, rfl, rfl, rfl, congrArg ([·]) hpayload,
    congrArg (· + 1) hseq⟩

/-- Packets numbered from `expected_seq` on, delivered in order, deliver their payloads in order. -/
theorem deliverAll_inOrder {n : Nat} {d p : Nat → Bytes} {s : State} (hc : s.cfg.WF)
    (hp : ∀ j, j < n → IsPacketOf s.cfg (s.rcv.expectedSeq + BitVec.ofNat 8 j) (d j) (p j)) :
    ∃ t es, deliverAll ((List.range n).map p) s = .next t ∧ t.snd = s.snd ∧ t.rcv.trace = s.rcv.trace ++ es ∧
      msgOuts (actionsOf es) = (List.range n).map d ∧ t.rcv.expectedSeq = s.rcv.expectedSeq + BitVec.ofNat 8 n := by
  induction n generalizing d p s with
  | zero => exact ⟨s, [], rfl, rfl, (List.append_nil _).symm, rfl, (BitVec.add_zero _).symm⟩
  | succ n ih =>
    have hfirst : IsPacketOf s.cfg s.rcv.expectedSeq (d 0) (p 0) := by simpa using hp 0 n.succ_pos
    obtain ⟨s', e, hex, hcfg, hsnd, htrace, hmsg, hseq⟩ := execRcvPkt_of_isPacketOf hc hfirst
    have hnext : ∀ j, s'.rcv.expectedSeq + BitVec.ofNat 8 j = s.rcv.expectedSeq + BitVec.ofNat 8 (j + 1) := by
      intro j
      rw [hseq, Nat.add_comm j 1, BitVec.ofNat_add, BitVec.add_assoc]
      rfl
    have hrest : ∀ j, j < n →
        IsPacketOf s'.cfg (s'.rcv.expectedSeq + BitVec.ofNat 8 j) ((d ∘ Nat.succ) j) ((p ∘ Nat.succ) j) := by
      intro j hj
      rw [hnext, hcfg]
      exact hp (j + 1) (Nat.succ_lt_succ hj)
    obtain ⟨t, es, hall, hsnd', htrace', hmsg', hseq'⟩ := ih (hcfg ▸ hc) hrest
    refine ⟨t, e :: es, ?_, hsnd'.trans hsnd, ?_, ?_, hseq'.trans (hnext n)⟩
    · rw [List.range_succ_eq_map, List.map_cons, List.map_map, deliverAll, exec, hex]
      exact hall
    · rw [htrace', htrace, List.append_assoc]
      rfl
    · rw [List.range_succ_eq_map, List.map_cons, List.map_map, ← hmsg']
      exact (msgOuts_append e.actions (actionsOf es)).trans (congrArg (· ++ msgOuts (actionsOf es)) hmsg)

/-- Of a message stored whole in an empty buffer, all of it inside the window, every chunk is transmitted, in order. -/
theorem Sender.StoredMsg.pktOuts_eq {c : Config} {x : Sender} {msg : Bytes} {t : SndTx} (h : x.StoredMsg c msg t)
    (h0 : x.count = 0) (hall : x.storable c msg = chunkCount c msg) (hwin : chunkCount c msg ≤ c.winSize) :
    pktOuts t.out = (List.range (chunkCount c msg)).map fun j => t.u.slotBytes c (slotAdd c x.nbp j) c.P := by
  rw [h.out, List.nil_append, hall, pktOuts_flatMap, ← List.flatMap_pure_eq_map]
  refine List.flatMap_congr fun j hj => ?_
  have hj' := List.mem_range.mp hj
  rw [Function.comp, pktOuts_storeActions, if_pos (by dsimp only; omega)]
  rfl

/-- A message that fits the window and the buffer, nothing being outstanding, is transmitted whole: chunk by chunk, in
packets numbered from `next_seq` on (R122, R124, R126). -/
theorem execSndMsg_of_fits {msg : Bytes} {s : State} (hc : s.cfg.WF) (hi : s.snd.IndexInv s.cfg) (h0 : s.snd.count = 0)
    (hne : msg ≠ []) (hle : msg.length ≤ s.cfg.maxMsg) (hwin : chunkCount s.cfg msg ≤ s.cfg.winSize)
    (hroom : chunkCount s.cfg msg ≤ s.cfg.maxBuffer) :
    ∃ (t : State) (e : Entry) (p : Nat → Bytes), execSndMsg msg s = .next t ∧ t.cfg = s.cfg ∧ t.rcv = s.rcv ∧
      t.snd.trace = s.snd.trace ++ [e] ∧
      t.snd.nextSeq = s.snd.nextSeq + BitVec.ofNat 8 (chunkCount s.cfg msg) ∧
      pktOuts e.actions = (List.range (chunkCount s.cfg msg)).map p ∧
      ∀ j, j < chunkCount s.cfg msg →
        IsPacketOf s.cfg (s.snd.nextSeq + BitVec.ofNat 8 j) (chunk s.cfg msg j) (p j) := by
  obtain ⟨x, hst, hex⟩ := execSndMsg_stores hc hi hne hle
  have hall : s.snd.storable s.cfg msg = chunkCount s.cfg msg := by
    rw [Sender.storable, h0, Nat.sub_zero]
    exact Nat.min_eq_left hroom
  exact ⟨_, _, _, hex.trans (finishSnd_eq ..), rfl, rfl, congrArg (· ++ _) hst.trace, hall ▸ hst.nextSeq,
    hst.pktOuts_eq h0 hall hwin, fun _ hj => hst.isPacketOf (hall ▸ hj)⟩

/-- Settles O30: the packets transmitted carry the chunks in order and are numbered from the number waited for. -/
theorem losslessMessageReachesTheApplication : Obligations.LosslessMessageReachesTheApplication := by
  intro msg s hs h0 hstep hne hle hwin hroom
  have hc := hs.config
  obtain ⟨t, e, p, hex, hcfg, hrcv, htrace, hnext, hout, hp⟩ :=
    execSndMsg_of_fits hc hs.sender.index h0 hne hle hwin hroom
  rw [← hstep, ← hrcv, ← hcfg] at hp
  obtain ⟨t', es, hall, hsnd, hes, hmsg, hseq⟩ := deliverAll_inOrder (hcfg ▸ hc) hp
  rw [hcfg] at hall hmsg hseq
  have hchunks : msgOuts (actionsOf es) = chunks s.cfg msg := hmsg
  exact ⟨t, e, t', es, hex, htrace, hout ▸ hall, hrcv ▸ hes, hchunks, hchunks ▸ chunks_flatten hc msg,
    by rw [hseq, hsnd, hnext, hrcv, hstep]⟩

end Sys2Proof.Machine
end

section
/-! How a presented command ends (60_exceptions.md R180, R183): it always completes, and it either is refused, which
writes the run's mark and one record, or leaves the mark and records an outcome that is no refusal. -/

namespace Sys2Proof.Machine

/-! ## Every transaction completes (R180) -/

theorem Sender.AgreesOutstanding.refl (c : Config) (x : Sender) : x.AgreesOutstanding c x :=
  ⟨rfl, rfl, rfl, rfl, rfl, rfl, rfl, fun _ _ => rfl⟩

/-- Where the sender's indices are in their ranges no access to the buffer faults: a command completes in each of two states
that differ in stale slots at most, so in one that is its own twin. -/
theorem exec_completes {s : State} (hc : s.cfg.WF) (hi : s.snd.IndexInv s.cfg) (i : Instr) :
    ∃ t, exec i s = .next t := by
  have hself : StaleTwins s s := ⟨s.snd, .refl s.cfg s.snd, rfl⟩
  obtain ⟨t, -, h, -⟩ := exec_twins hc hi hself i
  exact ⟨t, h⟩

theorem present_completes {s : State} (hc : s.cfg.WF) (hi : s.snd.IndexInv s.cfg) (u : UnitId) (cmd : Bytes) :
    ∃ t, present u cmd s = .next t := by
  cases hd : decode s.cfg u cmd with
  | ok i =>
    rw [present_of_decode hd]
    exact exec_completes hc hi i
  | error r => exact ⟨_, present_of_error hd⟩

/-- Settles O44: resets and idling have a next state as they stand, and a presented command completes. -/
theorem noStepStops : Obligations.NoStepStops := by
  intro s hs
  rw [step_of_wf hs.config]
  split
  · exact ⟨_, rfl⟩
  · next u cmd rest _ => exact present_completes (s := { s with inputs := rest }) hs.config hs.sender.index u cmd
  · exact ⟨_, rfl⟩
  · exact ⟨_, rfl⟩

/-! ## One record, at the unit addressed (R184) -/

theorem State.refusedAs_traceOf_peer (s : State) (u : UnitId) (cmd : Bytes) (r : Rejection) :
    (s.refusedAs u cmd r).traceOf (peer u) = s.traceOf (peer u) := by cases u <;> rfl

theorem exec_traceOf_peer {i : Instr} {s t : State} (h : exec i s = .next t) :
    t.traceOf (peer i.unit) = s.traceOf (peer i.unit) := by
  obtain ⟨-, -, hrcv, hsnd, -⟩ := exec_records h
  cases hu : i.unit with
  | snd => exact congrArg Receiver.trace (hrcv hu)
  | rcv => exact congrArg Sender.trace (hsnd hu)

/-- Refused or run, a presented command is recorded once, under its own bytes. -/
theorem present_records {u : UnitId} {cmd : Bytes} {s t : State} (h : present u cmd s = .next t) :
    t.inputs = s.inputs ∧ t.traceOf (peer u) = s.traceOf (peer u) ∧
      ∃ k out, t.traceOf u = s.traceOf u ++ [{ cmd := cmd, outcome := k, actions := out }] := by
  cases hd : decode s.cfg u cmd with
  | ok i =>
    obtain ⟨-, rfl, rfl⟩ := encodeOfDecode _ _ _ _ hd
    rw [present_of_decode hd] at h
    obtain ⟨-, hin, -, -, hrecord⟩ := exec_records h
    exact ⟨hin, exec_traceOf_peer h, hrecord⟩
  | error r =>
    rw [present_of_error hd] at h
    cases h
    exact ⟨State.refusedAs_inputs .., State.refusedAs_traceOf_peer .., _, _, State.refusedAs_traceOf ..⟩

/-- Settles O45. -/
theorem everyCommandRecordsOneOutcome : Obligations.EveryCommandRecordsOneOutcome := by
  intro s u cmd rest hs hin
  obtain ⟨t, ht⟩ := present_completes (s := { s with inputs := rest }) hs.config hs.sender.index u cmd
  obtain ⟨hrest, hpeer, k, out, htrace⟩ := present_records ht
  refine ⟨t, k, out, (step_of_command hs.config hin).trans ht, hrest, htrace.trans ?_, hpeer.trans ?_⟩
  · cases u <;> rfl
  · cases u <;> rfl

/-! ## Refused, or run with the mark left (R183) -/

/-- A command of `u` ran: the mark stays, and the outcome recorded is no refusal. -/
def RanAt (u : UnitId) (s t : State) : Prop :=
  t.refusalMark = s.refusalMark ∧ ∃ e, t.traceOf u = s.traceOf u ++ [e] ∧ ∀ r, e.outcome ≠ .refused r

theorem msgOutcome_ne_refused (stored k : Nat) (r : Rejection) : msgOutcome stored k ≠ .refused r := by
  unfold msgOutcome
  split
  · nofun
  · split <;> nofun

theorem exec_refusedBy_or_ranAt {i : Instr} {s t : State} (h : exec i s = .next t) :
    RefusedBy i s t ∨ RanAt i.unit s t := by
  cases i with
  | sndMsg msg =>
    obtain hr | rfl | ⟨x, n, hx, rfl⟩ := execSndMsg_inv h
    · exact .inl hr
    · exact .inr ⟨rfl, _, rfl, nofun⟩
    · obtain ⟨hfrom, -⟩ := (TxFrom.start s.snd).storeChunks hx
      exact .inr ⟨rfl, _, congrArg (· ++ _) hfrom.trace, msgOutcome_ne_refused _ _⟩
  | sndAck pkt =>
    obtain hr | ⟨k, hk, rfl⟩ | ⟨x, n, -, -, hx, rfl⟩ := execSndAck_inv h
    · exact .inl hr
    · obtain rfl | rfl | ⟨_, rfl⟩ := hk <;> exact .inr ⟨rfl, _, rfl, nofun⟩
    · obtain ⟨hfrom, -⟩ := (TxFrom.start s.snd).slide hx
      exact .inr ⟨rfl, _, congrArg (· ++ _) hfrom.trace, nofun⟩
  | sndTimeout =>
    obtain ⟨x, a, k, -, hk, hfrom, -, rfl⟩ := execSndTimeout_inv h
    obtain rfl | ⟨_, rfl⟩ := hk <;> exact .inr ⟨rfl, _, congrArg (· ++ _) hfrom.trace, nofun⟩
  | rcvPkt pkt =>
    obtain hr | rfl | ⟨k, hk, rfl⟩ | ⟨-, -, rfl⟩ := execRcvPkt_inv h
    · exact .inl hr
    · exact .inr ⟨rfl, _, rfl, nofun⟩
    · obtain rfl | rfl := hk <;> exact .inr ⟨rfl, _, rfl, nofun⟩
    · exact .inr ⟨rfl, _, rfl, nofun⟩
  | ckSum u | ckVerify u | pktEncode u =>
    obtain hr | ⟨r, k, rfl⟩ := exec_codec_inv (by simp [Instr.op]) h
    · exact .inl hr
    · exact .inr ⟨by cases u <;> rfl, _, State.setDraws_record_traceOf .., nofun⟩

theorem present_refusedAs_or_ranAt {u : UnitId} {cmd : Bytes} {s t : State} (h : present u cmd s = .next t) :
    (∃ r, t = s.refusedAs u cmd r) ∨ RanAt u s t := by
  cases hd : decode s.cfg u cmd with
  | ok i =>
    obtain ⟨-, rfl, rfl⟩ := encodeOfDecode _ _ _ _ hd
    exact exec_refusedBy_or_ranAt (present_of_decode hd ▸ h)
  | error r =>
    rw [present_of_error hd] at h
    cases h
    exact .inl ⟨r, rfl⟩

/-- No transaction clears the mark. -/
theorem exec_keeps_refusalMark {i : Instr} {s t : State} (hm : s.refusalMark = true) (h : exec i s = .next t) :
    t.refusalMark = true := by
  obtain ⟨r, rfl⟩ | ⟨hmark, -⟩ := exec_refusedBy_or_ranAt h
  · exact State.refusedAs_refusalMark ..
  · exact hmark.trans hm

theorem step_keeps_refusalMark {s t : State} (hm : s.refusalMark = true) (h : step s = .next t) :
    t.refusalMark = true :=
  step_keeps (Q := fun s => s.refusalMark = true)
    (hin := fun _ _ hm => hm)
    (hrefuse := fun s u cmd r _ => s.refusedAs_refusalMark u cmd r)
    (hexec := fun _ _ _ hm hx => exec_keeps_refusalMark hm hx)
    (hreset := fun s u hm => (s.resetUnit_refusalMark u).trans hm)
    (hboth := fun _ hm => hm)
    hm h

/-- An event that is no command leaves the mark (logs 4 and 8). -/
theorem step_refusalMark_of_no_command {s t : State} (hno : ∀ u cmd rest, s.inputs ≠ .command u cmd :: rest)
    (h : step s = .next t) : t.refusalMark = s.refusalMark := by
  rw [step_of_wf (wf_of_step_next h)] at h
  split at h
  · cases h
    rfl
  · next u cmd rest hin => exact absurd hin (hno u cmd rest)
  · cases h
    exact State.resetUnit_refusalMark ..
  · cases h
    rfl

/-- Settles O47: the one entry recorded tells whether the command was refused. -/
theorem refusalsWriteOnlyTheMark : Obligations.RefusalsWriteOnlyTheMark := by
  intro s t h
  refine ⟨fun hm => step_keeps_refusalMark hm h, fun u cmd rest e hin he => ?_,
    fun hno => step_refusalMark_of_no_command hno h⟩
  have he' : t.traceOf u = ({ s with inputs := rest } : State).traceOf u ++ [e] := by cases u <;> exact he
  rw [step_of_command (wf_of_step_next h) hin] at h
  obtain ⟨r, rfl⟩ | ⟨hmark, e₁, he₁, hran⟩ := present_refusedAs_or_ranAt h
  · cases List.append_cancel_left ((State.refusedAs_traceOf ..).symm.trans he')
    exact ⟨fun _ hr => by cases hr; rfl, fun hnot => absurd rfl (hnot r)⟩
  · cases List.append_cancel_left (he₁.symm.trans he')
    exact ⟨fun r hr => absurd hr (hran r), fun _ => hmark⟩

/-! ## Which outcomes are errors (R182) -/

/-- Settles O46, outcome by outcome of R181. -/
theorem errorClassesOfOutcomes : Obligations.ErrorClassesOfOutcomes := by
  intro k
  cases k with
  | refused r => cases r <;> simp [TxOutcome.errorClass, TxOutcome.code, rejectionCode]
  | _ => simp [TxOutcome.errorClass, TxOutcome.code]

end Sys2Proof.Machine
end

section
/-! The two units share nothing (00_scope.md R2), so their transactions commute (60_exceptions.md R187). -/

namespace Sys2Proof.Machine

/-! ## A state with a transaction of one unit laid over it -/

/-- A next state changed by `f`; a stop stays. -/
def mapNext (f : State → State) : Answer → Answer
  | .next t => .next (f t)
  | .fault r => .fault r
  | .refused r => .refused r

theorem mapNext_eq_next {f : State → State} {a : Answer} {t : State} (h : mapNext f a = .next t) :
    ∃ s, a = .next s ∧ f s = t := by
  cases a with
  | next s => exact ⟨s, rfl, Host.Outcome.next.inj h⟩
  | fault r => cases h
  | refused r => cases h

theorem ite_eq_mapNext {f : State → State} {p : Prop} [Decidable p] {a b a' b' : Answer} (ha : a' = mapNext f a)
    (hb : b' = mapNext f b) : (if p then a' else b') = mapNext f (if p then a else b) := by
  split
  · exact ha
  · exact hb

/-- What a transaction of unit `u` that leaves `t` makes of a state: `u` is as in `t`, and the mark is set where it is
set in either. -/
def State.overlay (s : State) (u : UnitId) (t : State) : State :=
  match u with
  | .snd => { s with snd := t.snd, refusalMark := s.refusalMark || t.refusalMark }
  | .rcv => { s with rcv := t.rcv, refusalMark := s.refusalMark || t.refusalMark }

theorem peer_peer (u : UnitId) : peer (peer u) = u := by cases u <;> rfl

theorem State.overlay_comm (u : UnitId) (t t' s : State) :
    (s.overlay u t).overlay (peer u) t' = (s.overlay (peer u) t').overlay u t := by
  cases u <;> simp [State.overlay, peer, Bool.or_right_comm]

/-! ## A transaction does not see the other unit -/

theorem execSndMsg_overlay (t s : State) (msg : Bytes) :
    execSndMsg msg (s.overlay .rcv t) = mapNext (·.overlay .rcv t) (execSndMsg msg s) := by
  refine ite_eq_mapNext rfl (ite_eq_mapNext rfl ?_)
  dsimp only [State.overlay]
  split <;> rfl

theorem execSndAck_overlay (t s : State) (pkt : Bytes) :
    execSndAck pkt (s.overlay .rcv t) = mapNext (·.overlay .rcv t) (execSndAck pkt s) := by
  refine ite_eq_mapNext (ite_eq_mapNext (ite_eq_mapNext rfl ?_) rfl) rfl
  dsimp only [State.overlay]
  split
  · refine ite_eq_mapNext rfl ?_
    split <;> rfl
  · rfl

theorem execSndTimeout_overlay (t s : State) :
    execSndTimeout (s.overlay .rcv t) = mapNext (·.overlay .rcv t) (execSndTimeout s) := by
  refine ite_eq_mapNext rfl ?_
  dsimp only [State.overlay]
  split <;> rfl

theorem execRcvPkt_overlay (t s : State) (pkt : Bytes) :
    execRcvPkt pkt (s.overlay .snd t) = mapNext (·.overlay .snd t) (execRcvPkt pkt s) :=
  ite_eq_mapNext (ite_eq_mapNext (ite_eq_mapNext rfl rfl) (ite_eq_mapNext rfl rfl)) rfl

/-- A transaction runs alike whatever state the other unit is in (R2). -/
theorem exec_overlay (i : Instr) (t s : State) :
    exec i (s.overlay (peer i.unit) t) = mapNext (·.overlay (peer i.unit) t) (exec i s) := by
  cases i with
  | sndMsg msg => exact execSndMsg_overlay t s msg
  | sndAck pkt => exact execSndAck_overlay t s pkt
  | sndTimeout => exact execSndTimeout_overlay t s
  | rcvPkt pkt => exact execRcvPkt_overlay t s pkt
  | ckSum u | ckVerify u | pktEncode u => cases u <;> exact ite_eq_mapNext rfl rfl

/-- What a transaction does is laid over the state it began from. -/
theorem exec_eq_overlay {i : Instr} {s t : State} (h : exec i s = .next t) : t = s.overlay i.unit t := by
  obtain ⟨hcfg, hin, hrcv, hsnd, -⟩ := exec_records h
  have hep := exec_epoch h
  have hmark : t.refusalMark = (s.refusalMark || t.refusalMark) := by
    cases hm : s.refusalMark with
    | true => exact exec_keeps_refusalMark hm h
    | false => rfl
  cases hu : i.unit with
  | snd => rw [State.overlay, ← hmark, ← hcfg, ← hin, ← hep, ← hrcv hu]
  | rcv => rw [State.overlay, ← hmark, ← hcfg, ← hin, ← hep, ← hsnd hu]

/-- What one order reaches, the other reaches: each transaction is laid over what the other leaves. -/
theorem exec_comm {i j : Instr} {s s1 s2 : State} (hu : j.unit = peer i.unit) (hi : exec i s = .next s1)
    (hj : exec j s1 = .next s2) : ∃ s1', exec j s = .next s1' ∧ exec i s1' = .next s2 := by
  have hu' : peer j.unit = i.unit := hu ▸ peer_peer i.unit
  have hs1 := exec_eq_overlay hi
  rw [hs1, ← hu', exec_overlay, hu'] at hj
  obtain ⟨t, hjs, rfl⟩ := mapNext_eq_next hj
  refine ⟨t, hjs, ?_⟩
  rw [exec_eq_overlay hjs, hu, exec_overlay, hi]
  exact congrArg Host.Outcome.next ((congrArg (·.overlay (peer i.unit) t) hs1).trans (State.overlay_comm ..))

/-- Settles O32. -/
theorem unitsDoNotInterfere : Obligations.UnitsDoNotInterfere := by
  intro i j s s2 hi hj
  constructor
  · rintro ⟨s1, h1, h2⟩
    exact exec_comm (by rw [hi, hj, peer]) h1 h2
  · rintro ⟨s1, h1, h2⟩
    exact exec_comm (by rw [hi, hj, peer]) h1 h2

end Sys2Proof.Machine
end

section
/-! What the duty C4 of the environment does for a delivered packet (60_exceptions.md R193): its number tells its sequence
byte, so a number the window has passed is stale, and one accepted already is no packet waited for. -/

namespace Sys2Proof.Machine

/-! ## Distances of numbers on the wire (R112) -/

/-- The distance between the bytes of two numbers is the distance of the numbers, modulo 256. -/
theorem seqDist_of_numbers (a : Nat) (n : Int) :
    seqDist (BitVec.ofNat 8 a) (BitVec.ofInt 8 n) = ((n - a) % 256).toNat := by
  rw [seqDist, BitVec.toNat_sub, BitVec.toNat_ofNat, BitVec.toNat_ofInt]
  omega

/-- Numbers less than 256 apart have different bytes. -/
theorem ofInt_ne_ofNat {a : Nat} {n : Int} (hlt : n < a) (hgt : a < n + 256) : BitVec.ofInt 8 n ≠ BitVec.ofNat 8 a := by
  intro heq
  have hdist := seqDist_of_numbers a n
  rw [heq, seqDist, BitVec.sub_self, BitVec.toNat_zero] at hdist
  omega

/-! ## What is delivered -/

theorem delivery_sndAck {c : Config} {pkt : Bytes} (hlen : pkt.length = c.P) :
    Input.delivery c (.command .snd (encode (.sndAck pkt))) = some (.snd, pkt) := by
  have hdec : decode c .snd (encode (.sndAck pkt)) = .ok (.sndAck pkt) :=
    decode_encode (i := .sndAck pkt) (decide_eq_true hlen)
  simp only [Input.delivery, hdec]

theorem delivery_rcvPkt {c : Config} {pkt : Bytes} (hlen : pkt.length = c.P) :
    Input.delivery c (.command .rcv (encode (.rcvPkt pkt))) = some (.rcv, pkt) := by
  have hdec : decode c .rcv (encode (.rcvPkt pkt)) = .ok (.rcvPkt pkt) :=
    decode_encode (i := .rcvPkt pkt) (decide_eq_true hlen)
  simp only [Input.delivery, hdec]

/-- An intact packet delivered is itself on the channel, with a number that the duty bounds. -/
theorem DutyC4.exists_number {s : State} {e : Input} {u : UnitId} {pkt : Bytes} (h : DutyC4 s e)
    (hd : e.delivery s.cfg = some (u, pkt)) (hv : verify s.cfg pkt = true) :
    ∃ n : Int, (n, pkt) ∈ s.numbered (peer u) ∧ s.acked ≤ n + (256 - s.cfg.winSize) := by
  obtain ⟨⟨n, q⟩, hmem, hq | hbad, hn⟩ := h u pkt hd
  · subst hq
    exact ⟨n, hmem, hn⟩
  · rw [hv] at hbad
    cases hbad

/-! ## What the number makes of it -/

/-- The distance that `SND_ACK` computes is that of the acknowledgment's number from the window's start (R131). -/
theorem State.ChannelInv.ackInterval {s : State} (hs : s.Inv) (hch : s.ChannelInv) (h0 : 0 < s.snd.count) {n : Int}
    {pkt : Bytes} (hp : byteAt pkt 0 = BitVec.ofInt 8 n) :
    s.snd.ackInterval s.cfg pkt = ((n - s.acked) % 256).toNat := by
  obtain ⟨-, -, hbase⟩ := outstandingPacketsAreNumbered s 0 hs h0
  rw [Sender.ackInterval, hbase, hch.window, pktSeq, hp, seqDist_of_numbers]

/-- Settles O17: an acknowledgment passed by at most `256 - WIN_SIZE` is at a distance of at least `WIN_SIZE`, and a packet
accepted fewer than 256 numbers ago has another byte than the one waited for. -/
theorem dutyC4MakesPassedAcksStale : Obligations.DutyC4MakesPassedAcksStale := by
  refine ⟨fun pkt s hs hch hlen hv h0 hduty => ?_, fun pkt s hs hch hlen hv hduty => ?_⟩
  · obtain ⟨n, hmem, hbound⟩ := hduty.exists_number (delivery_sndAck hlen) hv
    obtain ⟨-, -, hbyte⟩ := hch.answered _ hmem
    refine ⟨n, hmem, hbyte, hbound, fun hpassed => ?_⟩
    obtain ⟨-, -, hwin, -⟩ := id hs.config
    have hdist : s.snd.ackInterval s.cfg pkt = (256 - (s.acked - n)).toNat := by
      rw [hch.ackInterval hs h0 hbyte]
      omega
    rw [← hdist]
    exact execSndAck_of_stale hs.config hs.sender.index.1 hlen hv h0 (.inl (by omega))
  · obtain ⟨n, hmem, hbound⟩ := hduty.exists_number (delivery_rcvPkt hlen) hv
    obtain ⟨-, -, hbyte⟩ := hch.sent _ hmem
    refine ⟨n, hmem, hbyte, hbound, fun hlt hgt => ?_⟩
    have hseq : pktSeq pkt ≠ s.rcv.expectedSeq := by
      rw [pktSeq, hbyte, hch.expected]
      exact ofInt_ne_ofNat hlt hgt
    exact ⟨_, _, execRcvPkt_of_unexpected hlen hv hseq, rfl⟩

end Sys2Proof.Machine
end

section
/-! One round of recovery (60_exceptions.md R195): an expiry resends the window, the receiver accepts it, and its last
acknowledgment frees it. -/

namespace Sys2Proof.Machine

/-! ## Numbers of the window's positions (R36) -/

theorem Sender.seqAt_zero_add (x : Sender) (i : Nat) : x.seqAt 0 + BitVec.ofNat 8 i = x.seqAt i := by
  simp [Sender.seqAt]

/-- Freeing slots renumbers the window's positions. -/
theorem Sender.seqAt_slid (c : Config) {n : Nat} {x : Sender} (hn : n ≤ x.count) (i : Nat) :
    (x.slid c n).u.seqAt i = x.seqAt (n + i) := by
  have hring : ∀ q a b d : Byte, q - b + d = q - (a + b) + (a + d) := fun q a b d => by ring
  obtain ⟨k, hk⟩ := Nat.exists_eq_add_of_le hn
  rw [Sender.seqAt, Sender.seqAt, Sender.slid, hk, Nat.add_sub_cancel_left, BitVec.ofNat_add, BitVec.ofNat_add]
  exact hring _ _ _ _

/-! ## Deliveries one after the other -/

theorem deliverAll_cons_next {p : Bytes} {ps : List Bytes} {s t : State} (h : deliverAll (p :: ps) s = .next t) :
    ∃ s', exec (.rcvPkt p) s = .next s' ∧ deliverAll ps s' = .next t := by
  rw [deliverAll] at h
  split at h
  · next s' hs' => exact ⟨s', hs', h⟩
  · cases h
  · cases h

theorem deliverAll_append {ps : List Bytes} {s t : State} (h : deliverAll ps s = .next t) (qs : List Bytes) :
    deliverAll (ps ++ qs) s = deliverAll qs t := by
  induction ps generalizing s with
  | nil =>
    cases h
    rfl
  | cons p ps ih =>
    obtain ⟨s', hex, hrest⟩ := deliverAll_cons_next h
    rw [List.cons_append, deliverAll, hex]
    exact ih hrest

theorem deliverAll_cfg {ps : List Bytes} {s t : State} (h : deliverAll ps s = .next t) : t.cfg = s.cfg := by
  induction ps generalizing s with
  | nil =>
    cases h
    rfl
  | cons p ps ih =>
    obtain ⟨s', hex, hrest⟩ := deliverAll_cons_next h
    obtain ⟨hcfg, -⟩ := exec_records hex
    exact (ih hrest).trans hcfg

/-! ## The last acknowledgment -/

theorem getLast?_pktOuts_concat (tr : List Entry) {e : Entry} {p : Bytes} (he : pktOuts e.actions = [p]) :
    (pktOuts (actionsOf (tr ++ [e]))).getLast? = some p := by
  have hlast : actionsOf [e] = e.actions := List.append_nil _
  rw [actionsOf_append, pktOuts_append, hlast, he, List.getLast?_concat]

/-- The packet that `RCV` waits for is acknowledged with its own number, and there is something to acknowledge from then
on (R161, R163). -/
theorem execRcvPkt_acknowledges {s : State} (hc : s.cfg.WF) {d p : Bytes}
    (hp : IsPacketOf s.cfg s.rcv.expectedSeq d p) :
    ∃ t ack, execRcvPkt p s = .next t ∧ t.cfg = s.cfg ∧ t.snd = s.snd ∧ t.rcv.ackValid = true ∧
      t.rcv.expectedSeq = s.rcv.expectedSeq + 1 ∧ (pktOuts (actionsOf t.rcv.trace)).getLast? = some ack ∧
      IsPacketOf s.cfg s.rcv.expectedSeq [] ack := by
  have hseq : pktSeq p = s.rcv.expectedSeq := hp.byteAt_zero
  have hack := (s.rcv.accept (pktSeq p)).ackPacket_isPacketOf s.cfg
  rw [Receiver.ackSeqByte_accept, hseq] at hack
  have hex := execRcvPkt_of_expected (hp.length hc) (hp.verify hc) hseq
  rw [hseq] at hex
  exact ⟨_, _, hex, rfl, rfl, rfl, rfl, getLast?_pktOuts_concat _ rfl, hack⟩

/-- Packets numbered from `expected_seq` on, delivered in order, leave the acknowledgment of the last of them as the last
packet that `RCV` has emitted. -/
theorem deliverAll_acknowledges {n : Nat} {d p : Nat → Bytes} {s : State} (hc : s.cfg.WF)
    (hp : ∀ j, j < n + 1 → IsPacketOf s.cfg (s.rcv.expectedSeq + BitVec.ofNat 8 j) (d j) (p j)) :
    ∃ t ack, deliverAll ((List.range (n + 1)).map p) s = .next t ∧ t.cfg = s.cfg ∧ t.snd = s.snd ∧
      t.rcv.ackValid = true ∧ t.rcv.expectedSeq = s.rcv.expectedSeq + BitVec.ofNat 8 (n + 1) ∧
      (pktOuts (actionsOf t.rcv.trace)).getLast? = some ack ∧
      IsPacketOf s.cfg (s.rcv.expectedSeq + BitVec.ofNat 8 n) [] ack := by
  obtain ⟨t', -, hall, hsnd', -, -, hseq'⟩ := deliverAll_inOrder (n := n) hc fun j hj => hp j (Nat.lt_succ_of_lt hj)
  have hcfg' := deliverAll_cfg hall
  have hlast := hp n n.lt_succ_self
  rw [← hseq', ← hcfg'] at hlast
  obtain ⟨t, ack, hex, hcfg, hsnd, hvalid, hseq, hout, hack⟩ := execRcvPkt_acknowledges (hcfg' ▸ hc) hlast
  refine ⟨t, ack, ?_, hcfg.trans hcfg', hsnd.trans hsnd', hvalid, ?_, hout, hseq' ▸ hcfg' ▸ hack⟩
  · rw [List.range_succ, List.map_append, deliverAll_append hall, List.map_singleton, deliverAll, exec, hex]
    rfl
  · rw [hseq, hseq', BitVec.ofNat_add, BitVec.add_assoc]
    rfl

/-! ## The round -/

/-- An expiry resends the sent part of the window and keeps the invariants, the receiver and the window (R140, R143). -/
theorem execSndTimeout_resends {s : State} (hs : s.Inv) (h0 : 0 < s.snd.count) :
    ∃ t e, exec .sndTimeout s = .next t ∧ t.snd.trace = s.snd.trace ++ [e] ∧ t.Inv ∧ t.cfg = s.cfg ∧ t.rcv = s.rcv ∧
      t.snd.count = s.snd.count ∧ t.snd.seqAt 0 = s.snd.seqAt 0 ∧
      pktOuts e.actions = (List.range (t.snd.sentCount t.cfg)).map (t.snd.packetAt t.cfg) := by
  refine ⟨_, _, execSndTimeout_of_outstanding (Config.maxBuffer_pos hs.config) h0, rfl, ?_, rfl, rfl, rfl, rfl, ?_⟩
  · exact ⟨hs.config, ⟨hs.sender.index, hs.sender.buffer, hs.sender.packets, fun _ => rfl⟩, hs.receiver⟩
  · rw [SndTx.emit_out, pktOuts_append, Sender.resent, pktOuts_map_pktOut]
    exact List.append_nil _

/-- The sent part of the window, delivered in order to a receiver that waits for the oldest packet, is freed by the last
acknowledgment of the deliveries (R130, R160). -/
theorem deliverAll_window_frees {s : State} (hs : s.Inv) (h0 : 0 < s.snd.count)
    (hstep : s.rcv.expectedSeq = s.snd.seqAt 0) :
    ∃ t ack t', deliverAll ((List.range (s.snd.sentCount s.cfg)).map (s.snd.packetAt s.cfg)) s = .next t ∧
      (pktOuts (actionsOf t.rcv.trace)).getLast? = some ack ∧ exec (.sndAck ack) t = .next t' ∧
      t'.snd.count = s.snd.count - s.snd.sentCount s.cfg ∧ t'.rcv.expectedSeq = t'.snd.seqAt 0 := by
  have hc := hs.config
  have hsent : 0 < s.snd.sentCount s.cfg := by
    obtain ⟨-, -, hwin, -⟩ := id hc
    exact Nat.lt_min.mpr ⟨h0, hwin⟩
  obtain ⟨n, hn⟩ := Nat.exists_eq_succ_of_ne_zero (Nat.ne_of_gt hsent)
  obtain ⟨hcount, hwin⟩ : n < s.snd.count ∧ n < s.cfg.winSize :=
    Nat.lt_min.mp (show n < s.snd.sentCount s.cfg by omega)
  have hpackets : ∀ i, i < s.snd.count → ∃ d, IsPacketOf s.cfg (s.snd.seqAt i) d (s.snd.packetAt s.cfg i) :=
    hs.sender.packets
  choose! d hd using hpackets
  have hp : ∀ j, j < n + 1 →
      IsPacketOf s.cfg (s.rcv.expectedSeq + BitVec.ofNat 8 j) (d j) (s.snd.packetAt s.cfg j) := by
    intro j hj
    rw [hstep, Sender.seqAt_zero_add]
    exact hd j (by omega)
  obtain ⟨t, ack, hall, hcfg, hsnd, hvalid, hseq, hout, hack⟩ := deliverAll_acknowledges hc hp
  have ht : t.Inv := ⟨hcfg ▸ hc, hcfg ▸ hsnd ▸ hs.sender, fun hnot => by rw [hvalid] at hnot; cases hnot⟩
  rw [hstep, Sender.seqAt_zero_add, ← hcfg, ← hsnd] at hack
  have hfree := execSndAck_of_position ht (hcfg ▸ hwin) (hsnd ▸ hcount) hack
  refine ⟨t, ack, _, hn ▸ hall, hout, hfree, ?_, ?_⟩
  · rw [hn, ← hsnd]
    rfl
  · have hle : n + 1 ≤ t.snd.count := hsnd ▸ hcount
    calc
      t.rcv.expectedSeq = t.snd.seqAt 0 + BitVec.ofNat 8 (n + 1) := by rw [hseq, hstep, hsnd]
      _ = t.snd.seqAt (n + 1) := Sender.seqAt_zero_add ..
      _ = (t.snd.slid t.cfg (n + 1)).u.seqAt 0 := (Sender.seqAt_slid t.cfg hle 0).symm

/-- Settles O31: what the expiry resends is the window of the state it leaves, which the deliveries free. -/
theorem oneRoundOfRecoveryFreesTheWindow : Obligations.OneRoundOfRecoveryFreesTheWindow := by
  intro s hs h0 hstep
  obtain ⟨t1, e, hex, htrace, ht1, hcfg, hrcv, hcount, holdest, hout⟩ := execSndTimeout_resends hs h0
  obtain ⟨t2, ack, t3, hall, hlast, hack, hfreed, hnext⟩ :=
    deliverAll_window_frees ht1 (hcount ▸ h0) (by rw [hrcv, hstep, holdest])
  rw [Sender.sentCount, hcount, hcfg] at hfreed
  exact ⟨t1, e, t2, ack, t3, hex, htrace, hout ▸ hall, hlast, hack, hfreed, hnext⟩

end Sys2Proof.Machine
end

section
/-! Every transaction keeps the invariants of its unit (10_state.md section 7): what `SND_MSG` stores are the packets that
follow the window, `SND_ACK` renumbers the window's positions, and nothing else moves a register of the sender. -/

namespace Sys2Proof.Machine

/-! ## The sender's invariants, transaction by transaction -/

/-- The observation and the count of draws are no part of the invariants. -/
theorem Sender.Inv.setObservation {c : Config} {x : Sender} (h : x.Inv c) (tr : List Entry) (k : Nat) :
    ({ x with trace := tr, draws := k } : Sender).Inv c :=
  ⟨h.index, h.buffer, h.packets, h.timer⟩

/-- Chunks stored take the window positions from `count` on (R125). -/
theorem Stored.packetAt_new {c : Config} {ds : List Bytes} {n : Nat} {x : Sender} {t : SndTx} (hi : x.IndexInv c)
    (h : Stored c ds n { u := x, out := [] } t) (j : Nat) :
    t.u.packetAt c (x.count + j) = t.u.slotBytes c (slotAdd c x.nbp j) c.P := by
  obtain ⟨-, -, hn⟩ := hi
  rw [Sender.packetAt, h.base, ← slotAdd_slotAdd, hn]
  rfl

/-- Chunks stored where there is room leave the outstanding packets as they are: they are written to other slots. -/
theorem Stored.packetAt_old {c : Config} {ds : List Bytes} {n : Nat} {x : Sender} {t : SndTx} (hi : x.IndexInv c)
    (h : Stored c ds n { u := x, out := [] } t) (hroom : x.count + n ≤ c.maxBuffer) {i : Nat} (hlt : i < x.count) :
    t.u.packetAt c i = x.packetAt c i := by
  obtain ⟨-, -, hn⟩ := hi
  rw [Sender.packetAt, h.base]
  refine h.others _ _ (Nat.le_refl _) fun j hj heq => ?_
  have hslot : slotAdd c x.base i = slotAdd c x.base (x.count + j) :=
    heq.trans ((congrArg (slotAdd c · j) hn).trans (slotAdd_slotAdd ..))
  have hsame := slotAdd_inj (by omega) (by omega) hslot
  omega

/-- The numbers of the outstanding positions stay when chunks are stored. -/
theorem Stored.seqAt {c : Config} {ds : List Bytes} {n : Nat} {x : Sender} {t : SndTx}
    (h : Stored c ds n { u := x, out := [] } t) (i : Nat) : t.u.seqAt i = x.seqAt i := by
  have hring : ∀ q a b d : Byte, q + b - (a + b) + d = q - a + d := fun q a b d => by ring
  rw [Sender.seqAt, Sender.seqAt, h.nextSeq, h.count, BitVec.ofNat_add]
  exact hring _ _ _ _

theorem Sender.StoredMsg.packetInv {c : Config} {x : Sender} (hi : x.IndexInv c) (hp : x.PacketInv c) {msg : Bytes}
    {t : SndTx} (h : x.StoredMsg c msg t) : t.u.PacketInv c := by
  intro i hlt
  rw [h.count] at hlt
  have hroom : x.count + x.storable c msg ≤ c.maxBuffer := by
    have hfit : x.storable c msg ≤ c.maxBuffer - x.count := Nat.min_le_right _ _
    obtain ⟨-, hcount, -⟩ := hi
    omega
  rw [h.seqAt]
  by_cases hold : i < x.count
  · rw [h.packetAt_old hi hroom hold]
    exact hp i hold
  · obtain ⟨j, rfl⟩ := Nat.exists_eq_add_of_le (Nat.not_lt.mp hold)
    have hseq : x.seqAt (x.count + j) = x.nextSeq + BitVec.ofNat 8 j := by
      rw [Sender.seqAt, BitVec.ofNat_add, ← BitVec.add_assoc, BitVec.sub_add_cancel]
    rw [h.packetAt_new hi, hseq]
    exact ⟨_, h.isPacketOf (by dsimp only at hlt; omega)⟩

theorem Sender.StoredMsg.timerInv {c : Config} {x : Sender} (ht : x.TimerInv) {msg : Bytes} {t : SndTx}
    (h : x.StoredMsg c msg t) : t.u.TimerInv := by
  intro hpos
  rw [h.count] at hpos
  rw [h.tmrArmed]
  split
  · rfl
  · next hnot => exact ht (by dsimp only at hpos hnot; omega)

theorem Sender.StoredMsg.inv {c : Config} {x : Sender} (hx : x.Inv c) {msg : Bytes} {t : SndTx}
    (h : x.StoredMsg c msg t) : t.u.Inv c where
  index := (h.ledger hx.index []).index
  buffer := h.bufInv hx.buffer
  packets := h.packetInv hx.index hx.packets
  timer := h.timerInv hx.timer

theorem Sender.slid_inv {c : Config} {x : Sender} (hx : x.Inv c) {interval : Nat} (hn : interval < x.count) :
    ((x.slid c (interval + 1)).emit .timerStart).u.Inv c where
  index := (Sender.slid_ledger hx.index hn [] []).index
  buffer := hx.buffer
  packets := fun i hi => by
    have hi' : i < x.count - (interval + 1) := hi
    show ∃ d, IsPacketOf c ((x.slid c (interval + 1)).u.seqAt i) d ((x.slid c (interval + 1)).u.packetAt c i)
    rw [Sender.seqAt_slid c hn, Sender.packetAt_slid]
    exact hx.packets _ (by omega)
  timer := fun _ => rfl

theorem State.refusedAs_inv {s : State} (hs : s.Inv) (u : UnitId) (cmd : Bytes) (r : Rejection) :
    (s.refusedAs u cmd r).Inv := by
  cases u with
  | snd => exact ⟨hs.config, hs.sender.setObservation _ _, hs.receiver⟩
  | rcv => exact ⟨hs.config, hs.sender, hs.receiver⟩

theorem execSndMsg_keeps_inv {msg : Bytes} {s t : State} (hs : s.Inv) (h : execSndMsg msg s = .next t) : t.Inv := by
  obtain ⟨r, rfl⟩ | rfl | ⟨x, hst, rfl⟩ := execSndMsg_inv_stored hs.config hs.sender.index h
  · exact State.refusedAs_inv hs ..
  · exact ⟨hs.config, hs.sender.setObservation _ _, hs.receiver⟩
  · exact ⟨hs.config, (hst.inv hs.sender).setObservation _ _, hs.receiver⟩

theorem execSndAck_keeps_inv {pkt : Bytes} {s t : State} (hs : s.Inv) (h : execSndAck pkt s = .next t) : t.Inv := by
  obtain ⟨r, rfl⟩ | ⟨k, -, rfl⟩ | ⟨x, n, -, hn, hx, rfl⟩ := execSndAck_inv h
  · exact State.refusedAs_inv hs ..
  · exact ⟨hs.config, hs.sender.setObservation _ _, hs.receiver⟩
  · rw [slide_eq_slid hs.config hn hs.sender.index.1] at hx
    cases hx
    exact ⟨hs.config, (Sender.slid_inv hs.sender hn).setObservation _ _, hs.receiver⟩

/-- The expiry disarms the timer, and the handler starts it again where a packet is outstanding (R140). -/
theorem execSndTimeout_keeps_inv {s t : State} (hs : s.Inv) (h : execSndTimeout s = .next t) : t.Inv := by
  rw [execSndTimeout_eq (Config.maxBuffer_pos hs.config)] at h
  have hx := hs.sender
  split at h
  · next h0 =>
    cases h
    exact ⟨hs.config, ⟨hx.index, hx.buffer, hx.packets, fun hpos => absurd h0 (Nat.ne_of_gt hpos)⟩, hs.receiver⟩
  · cases h
    exact ⟨hs.config, ⟨hx.index, hx.buffer, hx.packets, fun _ => rfl⟩, hs.receiver⟩

/-- Once a packet has been accepted there is an acknowledgment to give (R28, R163). -/
theorem execRcvPkt_keeps_inv {pkt : Bytes} {s t : State} (hs : s.Inv) (h : execRcvPkt pkt s = .next t) : t.Inv := by
  obtain ⟨r, rfl⟩ | rfl | ⟨k, -, rfl⟩ | ⟨-, -, rfl⟩ := execRcvPkt_inv h
  · exact State.refusedAs_inv hs ..
  · exact ⟨hs.config, hs.sender, hs.receiver⟩
  · exact ⟨hs.config, hs.sender, hs.receiver⟩
  · exact ⟨hs.config, hs.sender, nofun⟩

/-- Every transaction keeps the invariants of the machine. -/
theorem exec_keeps_inv {i : Instr} {s t : State} (hs : s.Inv) (h : exec i s = .next t) : t.Inv := by
  cases i with
  | sndMsg msg => exact execSndMsg_keeps_inv hs h
  | sndAck pkt => exact execSndAck_keeps_inv hs h
  | sndTimeout => exact execSndTimeout_keeps_inv hs h
  | rcvPkt pkt => exact execRcvPkt_keeps_inv hs h
  | ckSum u | ckVerify u | pktEncode u =>
    obtain ⟨r, rfl⟩ | ⟨r, k, rfl⟩ := exec_codec_inv (by simp [Instr.op]) h
    · exact State.refusedAs_inv hs ..
    · cases u with
      | snd => exact ⟨hs.config, hs.sender.setObservation _ _, hs.receiver⟩
      | rcv => exact ⟨hs.config, hs.sender, hs.receiver⟩

/-! ## Resets and steps -/

theorem Sender.resetUnit_inv {c : Config} (hc : c.WF) (x : Sender) : (x.resetUnit c).Inv c where
  index := ⟨Config.maxBuffer_pos hc, Nat.zero_le _, (Nat.zero_mod _).symm⟩
  buffer := x.resetUnit_bufInv c
  packets := nofun
  timer := nofun

theorem Receiver.resetUnit_inv (x : Receiver) : x.resetUnit.Inv := fun _ => rfl

theorem State.resetUnit_inv {s : State} (hs : s.Inv) (u : UnitId) : (s.resetUnit u).Inv := by
  cases u with
  | snd => exact ⟨hs.config, s.snd.resetUnit_inv hs.config, hs.receiver⟩
  | rcv => exact ⟨hs.config, hs.sender, s.rcv.resetUnit_inv⟩

theorem State.resetTogether_inv {s : State} (hs : s.Inv) : s.resetTogether.Inv :=
  ⟨hs.config, s.snd.resetUnit_inv hs.config, s.rcv.resetUnit_inv⟩

theorem step_keeps_inv {s t : State} (hs : s.Inv) (h : step s = .next t) : t.Inv :=
  step_keeps (Q := State.Inv)
    (hin := fun _ _ hs => ⟨hs.config, hs.sender, hs.receiver⟩)
    (hrefuse := fun _ u cmd r hs => State.refusedAs_inv hs u cmd r)
    (hexec := fun _ _ _ hs hx => exec_keeps_inv hs hx)
    (hreset := fun _ u hs => State.resetUnit_inv hs u)
    (hboth := fun _ hs => State.resetTogether_inv hs)
    hs h

end Sys2Proof.Machine
end

section
/-! The numbers of packets since the last joint reset (log 16) stay what the sequence bytes and the packets on the channel
are about: each unit's half of that relation is kept by what its own transactions move and emit. -/

namespace Sys2Proof.Machine

/-! ## The two halves of `State.ChannelInv` -/

/-- The sender's half, its first `k` transactions standing before the last joint reset. -/
structure Sender.Numbered (k : Nat) (x : Sender) : Prop where
  epoch : k ≤ x.trace.length
  window : x.nextSeq - BitVec.ofNat 8 x.count = BitVec.ofNat 8 (ackedTotal (x.trace.drop k))
  sent : ∀ p ∈ numberSnd 0 (x.trace.drop k),
    0 ≤ p.1 ∧ p.1 < (ackedTotal (x.trace.drop k) + x.count : Nat) ∧ byteAt p.2 0 = BitVec.ofInt 8 p.1

/-- The receiver's half, its first `k` transactions standing before the last joint reset. -/
structure Receiver.Numbered (k : Nat) (x : Receiver) : Prop where
  epoch : k ≤ x.trace.length
  expected : x.expectedSeq = BitVec.ofNat 8 (acceptedSeqs (x.trace.drop k)).length
  answered : ∀ p ∈ numberRcv 0 (x.trace.drop k),
    -1 ≤ p.1 ∧ p.1 < (acceptedSeqs (x.trace.drop k)).length ∧ byteAt p.2 0 = BitVec.ofInt 8 p.1

theorem State.channelInv_iff {s : State} :
    s.ChannelInv ↔ s.snd.Numbered s.epoch.snd ∧ s.rcv.Numbered s.epoch.rcv := by
  constructor
  · intro h
    exact ⟨⟨h.epoch .snd, h.window, h.sent⟩, ⟨h.epoch .rcv, h.expected, h.answered⟩⟩
  · rintro ⟨hs, hr⟩
    refine ⟨fun u => ?_, hs.window, hr.expected, hs.sent, hr.answered⟩
    cases u with
    | snd => exact hs.epoch
    | rcv => exact hr.epoch

/-- The events still to be presented are no part of the relation. -/
theorem State.ChannelInv.setInputs {s : State} (h : s.ChannelInv) (is : List Input) :
    ({ s with inputs := is } : State).ChannelInv := by
  obtain ⟨hsnd, hrcv⟩ := State.channelInv_iff.mp h
  exact State.channelInv_iff.mpr ⟨hsnd, hrcv⟩

/-! ## Numbers of the packets of one transaction -/

/-- A packet of the window that starts at number `a` gets the number of its position, modulo 256 (log 16). -/
theorem number_of_position {a i : Nat} {b : Byte} (hb : b = BitVec.ofNat 8 a + BitVec.ofNat 8 i) :
    seqDist (BitVec.ofNat 8 a) b ≤ i ∧ b = BitVec.ofInt 8 (a + seqDist (BitVec.ofNat 8 a) b : Nat) := by
  have hdist : seqDist (BitVec.ofNat 8 a) b = i % 256 := by
    rw [hb, seqDist, add_sub_cancel_left, BitVec.toNat_ofNat]
  rw [hdist, hb, ← BitVec.ofNat_add]
  refine ⟨Nat.mod_le _ _, ?_⟩
  apply BitVec.eq_of_toNat_eq
  rw [BitVec.ofInt_natCast, BitVec.toNat_ofNat, BitVec.toNat_ofNat]
  omega

/-- An acknowledgment gets the number before the one that `RCV` waits for, the sentinel -1 (log 16). -/
theorem ofNat_sub_one (n : Nat) : BitVec.ofNat 8 n - 1 = BitVec.ofInt 8 ((n : Int) - 1) := by
  have hone : (1 : Byte).toNat = 1 := rfl
  apply BitVec.eq_of_toNat_eq
  rw [BitVec.toNat_sub, BitVec.toNat_ofNat, BitVec.toNat_ofInt, hone]
  omega

/-- The number of the oldest outstanding packet moves by what is acknowledged (R144). -/
theorem Sender.Ledger.window {c : Config} {x y : Sender} {es : List Entry} (h : x.Ledger c es y) :
    y.nextSeq - BitVec.ofNat 8 y.count = x.nextSeq - BitVec.ofNat 8 x.count + BitVec.ofNat 8 (ackedTotal es) := by
  have hcount : BitVec.ofNat 8 y.count + BitVec.ofNat 8 (ackedTotal es) =
      BitVec.ofNat 8 x.count + BitVec.ofNat 8 (storedTotal es) := by
    rw [← BitVec.ofNat_add, h.count, BitVec.ofNat_add]
  have hring : ∀ q n n' a d : Byte, n' + a = n + d → q + d - n' = q - n + a :=
    fun q n n' a d hnn => by linear_combination -hnn
  rw [h.nextSeq]
  exact hring _ _ _ _ _ hcount

/-- A transaction of `SND` keeps the sender's half where it emits packets of the window it leaves only. -/
theorem Sender.Numbered.ledger {c : Config} {k : Nat} {x y : Sender} {e : Entry} (h : x.Numbered k)
    (hl : x.Ledger c [e] y) (hout : ∀ p ∈ pktOuts e.actions, ∃ i, i < y.count ∧ byteAt p 0 = y.seqAt i) :
    y.Numbered k := by
  have hdrop : y.trace.drop k = x.trace.drop k ++ [e] := by
    rw [hl.trace]
    exact List.drop_append_of_le_length h.epoch
  have hcount := hl.count
  have hwindow : y.nextSeq - BitVec.ofNat 8 y.count = BitVec.ofNat 8 (ackedTotal (y.trace.drop k)) := by
    rw [hdrop, ackedTotal_append, BitVec.ofNat_add, ← h.window]
    exact hl.window
  refine ⟨?_, hwindow, fun p hp => ?_⟩
  · rw [hl.trace, List.length_append]
    exact Nat.le_add_right_of_le h.epoch
  · rw [hdrop, numberSnd_append, List.mem_append] at hp
    obtain hp | hp := hp
    · obtain ⟨hlow, hhigh, hbyte⟩ := h.sent p hp
      refine ⟨hlow, hhigh.trans_le ?_, hbyte⟩
      rw [hdrop, ackedTotal_append]
      omega
    · simp only [numberSnd, List.append_nil, List.mem_map, Nat.zero_add, ← ackedTotal_append, ← hdrop] at hp
      obtain ⟨q, hq, rfl⟩ := hp
      obtain ⟨i, hi, hseq⟩ := hout q hq
      rw [Sender.seqAt, hwindow] at hseq
      obtain ⟨hle, hbyte⟩ := number_of_position hseq
      exact ⟨Int.natCast_nonneg _, by rw [pktSeq]; omega, hbyte⟩

/-- A transaction of `RCV` keeps the receiver's half where it acknowledges the number before the one it then waits for. -/
theorem Receiver.Numbered.delivers {k n : Nat} {x y : Receiver} {e : Entry} (h : x.Numbered k)
    (hd : x.Delivers [e] n y) (hout : ∀ p ∈ pktOuts e.actions, byteAt p 0 = y.expectedSeq - 1) : y.Numbered k := by
  have hdrop : y.trace.drop k = x.trace.drop k ++ [e] := by
    rw [hd.trace]
    exact List.drop_append_of_le_length h.epoch
  have hlen : (acceptedSeqs (y.trace.drop k)).length = (acceptedSeqs (x.trace.drop k)).length + n := by
    rw [hdrop, acceptedSeqs_append, List.length_append, hd.accepted, seqsFrom, List.length_map, List.length_range]
  have hexpected : y.expectedSeq = BitVec.ofNat 8 (acceptedSeqs (y.trace.drop k)).length := by
    rw [hlen, BitVec.ofNat_add, ← h.expected]
    exact hd.expectedSeq
  refine ⟨?_, hexpected, fun p hp => ?_⟩
  · rw [hd.trace, List.length_append]
    exact Nat.le_add_right_of_le h.epoch
  · rw [hdrop, numberRcv_append, List.mem_append] at hp
    obtain hp | hp := hp
    · obtain ⟨hlow, hhigh, hbyte⟩ := h.answered p hp
      exact ⟨hlow, by omega, hbyte⟩
    · simp only [numberRcv, List.append_nil, List.mem_map, Nat.zero_add, ← List.length_append, ← acceptedSeqs_append,
        ← hdrop] at hp
      obtain ⟨q, hq, rfl⟩ := hp
      refine ⟨by omega, by omega, ?_⟩
      rw [hout q hq, hexpected]
      exact ofNat_sub_one _

/-! ## What a transaction emits -/

theorem exists_position_of_mem {c : Config} {x : Sender} {a : Nat} {p : Bytes}
    (hp : p ∈ (List.range' a (x.sentCount c - a)).map (x.packetAt c)) : ∃ i, i < x.count ∧ p = x.packetAt c i := by
  obtain ⟨i, hi, rfl⟩ := List.mem_map.mp hp
  obtain ⟨hle, hlt⟩ := List.mem_range'_1.mp hi
  have hsent : x.sentCount c ≤ x.count := Nat.min_le_left _ _
  exact ⟨i, by omega, rfl⟩

/-- Every packet that a transaction of `SND` emits stands in the window it leaves (R126, R133, R142). -/
theorem exec_emits_window {i : Instr} {s t : State} (hs : s.Inv) (hu : i.unit = .snd) (h : exec i s = .next t) :
    ∃ e, t.snd.trace = s.snd.trace ++ [e] ∧
      ∀ p ∈ pktOuts e.actions, ∃ i, i < t.snd.count ∧ p = t.snd.packetAt t.cfg i := by
  have hc := hs.config
  have hi := hs.sender.index
  cases i with
  | sndMsg msg =>
    obtain ⟨r, rfl⟩ | rfl | ⟨x, hst, rfl⟩ := execSndMsg_inv_stored hc hi h
    · exact ⟨_, rfl, nofun⟩
    · exact ⟨_, rfl, nofun⟩
    · exact ⟨_, congrArg (· ++ _) hst.trace, fun p hp => exists_position_of_mem (sndMsg_firstTransmissions hi hst ▸ hp)⟩
  | sndAck pkt =>
    obtain ⟨r, rfl⟩ | ⟨k, -, rfl⟩ | ⟨x, n, hw, hn, hx, rfl⟩ := execSndAck_inv h
    · exact ⟨_, rfl, nofun⟩
    · exact ⟨_, rfl, nofun⟩
    · rw [slide_eq_slid hc hn hi.1] at hx
      cases hx
      have hout : pktOuts ((s.snd.slid s.cfg (n + 1)).emit .timerStart).out = _ :=
        (pktOuts_append _ _).trans ((List.append_nil _).trans (sndAck_firstTransmissions hn hw))
      exact ⟨_, rfl, fun p hp => exists_position_of_mem (hout ▸ hp)⟩
  | sndTimeout =>
    obtain h0 | hpos := Nat.eq_zero_or_pos s.snd.count
    · cases (execSndTimeout_of_empty h0).symm.trans h
      exact ⟨_, rfl, nofun⟩
    · obtain ⟨t', e, hex, htrace, -, -, -, -, -, hout⟩ := execSndTimeout_resends hs hpos
      cases hex.symm.trans h
      rw [List.range_eq_range'] at hout
      exact ⟨e, htrace, fun p hp => exists_position_of_mem (a := 0) (hout ▸ hp)⟩
  | rcvPkt pkt => cases hu
  | ckSum u | ckVerify u | pktEncode u =>
    obtain rfl : u = .snd := hu
    obtain ⟨r, rfl⟩ | ⟨r, k, rfl⟩ := exec_codec_inv (by simp [Instr.op]) h
    · exact ⟨_, rfl, nofun⟩
    · exact ⟨_, rfl, nofun⟩

theorem Receiver.byteAt_ackPacket (x : Receiver) (c : Config) : byteAt (x.ackPacket c).1 0 = x.ackSeqByte :=
  (x.ackPacket_isPacketOf c).byteAt_zero

/-- Every packet that a transaction of `RCV` emits acknowledges the number before the one it then waits for (R161). -/
theorem exec_emits_ack {i : Instr} {s t : State} (hs : s.Inv) (hu : i.unit = .rcv) (h : exec i s = .next t) :
    ∃ e, t.rcv.trace = s.rcv.trace ++ [e] ∧ ∀ p ∈ pktOuts e.actions, byteAt p 0 = t.rcv.expectedSeq - 1 := by
  cases i with
  | sndMsg | sndAck | sndTimeout => cases hu
  | rcvPkt pkt =>
    obtain ⟨r, rfl⟩ | rfl | ⟨k, -, rfl⟩ | ⟨-, -, rfl⟩ := execRcvPkt_inv h
    · exact ⟨_, rfl, nofun⟩
    · exact ⟨_, rfl, nofun⟩
    · refine ⟨_, rfl, fun p hp => ?_⟩
      rw [List.mem_singleton.mp hp, Receiver.byteAt_ackPacket]
      exact ackByteIsExpectedMinusOne s hs
    · refine ⟨_, rfl, fun p hp => ?_⟩
      rw [List.mem_singleton.mp hp, Receiver.byteAt_ackPacket]
      exact Receiver.ackSeqByte_of_valid rfl
  | ckSum u | ckVerify u | pktEncode u =>
    obtain rfl : u = .rcv := hu
    obtain ⟨r, rfl⟩ | ⟨r, k, rfl⟩ := exec_codec_inv (by simp [Instr.op]) h
    · exact ⟨_, rfl, nofun⟩
    · exact ⟨_, rfl, nofun⟩

/-! ## Every transaction and every step -/

theorem exec_keeps_channelInv {i : Instr} {s t : State} (hs : s.Inv) (hch : s.ChannelInv) (h : exec i s = .next t) :
    t.ChannelInv := by
  obtain ⟨hsnd, hrcv⟩ := State.channelInv_iff.mp hch
  obtain ⟨-, -, hrcvSame, hsndSame, -⟩ := exec_records h
  rw [State.channelInv_iff, exec_epoch h]
  cases hu : i.unit with
  | snd =>
    obtain ⟨e, he, hout⟩ := exec_emits_window hs hu h
    obtain ⟨es, hl⟩ := exec_ledger hs.config hs.sender.index h
    obtain rfl : es = [e] := List.append_cancel_left (hl.trace.symm.trans he)
    refine ⟨hsnd.ledger hl fun p hp => ?_, hrcvSame hu ▸ hrcv⟩
    obtain ⟨j, hj, rfl⟩ := hout p hp
    exact ⟨j, hj, (exec_keeps_inv hs h).sender.packets.byteAt_packetAt hj⟩
  | rcv =>
    obtain ⟨e, he, hout⟩ := exec_emits_ack hs hu h
    obtain ⟨es, k, hd⟩ := exec_delivers h
    obtain rfl : es = [e] := List.append_cancel_left (hd.trace.symm.trans he)
    exact ⟨hsndSame hu ▸ hsnd, hrcv.delivers hd hout⟩

theorem State.refusedAs_channelInv {s : State} (hs : s.Inv) (hch : s.ChannelInv) (u : UnitId) (cmd : Bytes)
    (r : Rejection) : (s.refusedAs u cmd r).ChannelInv := by
  obtain ⟨hsnd, hrcv⟩ := State.channelInv_iff.mp hch
  rw [State.channelInv_iff, State.refusedAs_epoch]
  cases u with
  | snd =>
    exact ⟨hsnd.ledger (e := ⟨cmd, .refused r, []⟩) (.of_same hs.sender.index rfl rfl rfl rfl rfl rfl rfl) nofun, hrcv⟩
  | rcv => exact ⟨hsnd, hrcv.delivers (e := ⟨cmd, .refused r, []⟩) (.of_none rfl rfl rfl rfl) nofun⟩

theorem present_keeps_channelInv {u : UnitId} {cmd : Bytes} {s t : State} (hs : s.Inv) (hch : s.ChannelInv)
    (h : present u cmd s = .next t) : t.ChannelInv := by
  cases hd : decode s.cfg u cmd with
  | ok i => exact exec_keeps_channelInv hs hch (present_of_decode hd ▸ h)
  | error r =>
    rw [present_of_error hd] at h
    cases h
    exact State.refusedAs_channelInv hs hch u cmd r

/-- Packets are numbered anew after a joint reset, whatever went before (R213). -/
theorem State.resetTogether_channelInv (s : State) : s.resetTogether.ChannelInv := by
  rw [State.channelInv_iff]
  have hsnd : s.resetTogether.snd.trace.drop s.resetTogether.epoch.snd = [] := s.resetTogether_sinceReset .snd
  have hrcv : s.resetTogether.rcv.trace.drop s.resetTogether.epoch.rcv = [] := s.resetTogether_sinceReset .rcv
  refine ⟨⟨Nat.le_refl _, ?_, ?_⟩, ⟨Nat.le_refl _, ?_, ?_⟩⟩
  · rw [hsnd]
    exact BitVec.sub_zero 0
  · rw [hsnd]
    nofun
  · rw [hrcv]
    rfl
  · rw [hrcv]
    nofun

theorem step_keeps_channelInv {s t : State} (hs : s.Inv) (hch : s.ChannelInv)
    (hno : ∀ u rest, s.inputs ≠ .reset u :: rest) (h : step s = .next t) : t.ChannelInv := by
  rw [step_of_wf hs.config] at h
  split at h
  · cases h
    exact hch
  · next u cmd rest _ =>
    have hs' : ({ s with inputs := rest } : State).Inv := ⟨hs.config, hs.sender, hs.receiver⟩
    exact present_keeps_channelInv hs' (hch.setInputs rest) h
  · next u rest hreset => exact absurd hreset (hno u rest)
  · cases h
    exact State.resetTogether_channelInv _

/-- Settles O42: the invariants of the units, and the numbers of packets where no unit is reset alone. -/
theorem stepKeepsTheInvariants : Obligations.StepKeepsTheInvariants := fun _ _ hs h =>
  ⟨step_keeps_inv hs h, fun hch hno => step_keeps_channelInv hs hch hno h⟩

end Sys2Proof.Machine
end

section
/-! An acknowledgment of a number behind the window (70_reset_and_hazards.md R218). -/

namespace Sys2Proof.Machine

/-- A number `d` behind the oldest outstanding one is at distance `256 - d` from it (R112, R131). -/
theorem Sender.ackInterval_of_behind {c : Config} {x : Sender} {pkt : Bytes} {d : Nat} (h1 : 1 ≤ d) (h255 : d ≤ 255)
    (hp : byteAt pkt 0 = byteAt (x.slotBytes c x.base 1) 0 - BitVec.ofNat 8 d) : x.ackInterval c pkt = 256 - d := by
  have hbase := (byteAt (x.slotBytes c x.base 1) 0).isLt
  rw [Sender.ackInterval_eq, hp, BitVec.toNat_sub, BitVec.toNat_ofNat]
  omega

/-- Settles O16: the distance `256 - d` reaches into the window only where `d` is more than `256 - WIN_SIZE`. -/
theorem oldAcknowledgmentStaleOrAliased : Obligations.OldAcknowledgmentStaleOrAliased := by
  intro pkt s d hc hi hlen hv h0 h1 h255 hp
  obtain ⟨hb, -⟩ := hi
  obtain ⟨-, -, -, hwin, -⟩ := id hc
  rw [← Sender.ackInterval_of_behind h1 h255 hp]
  have hdist := Sender.ackInterval_of_behind h1 h255 hp
  exact ⟨fun hle => execSndAck_of_stale hc hb hlen hv h0 (.inl (by omega)),
    fun hlt hn => ⟨_, _, execSndAck_of_advancing hc hb hlen hv (by omega) hn, rfl⟩⟩

end Sys2Proof.Machine
end

section
/-! Resets and idling, and what the channel may hold after a joint reset (70_reset_and_hazards.md R210 to R213). -/

namespace Sys2Proof.Machine

/-- Settles O57. -/
theorem stepResetsAndIdles : Obligations.StepResetsAndIdles := by
  intro s rest hc
  rw [step_of_wf hc]
  refine ⟨fun hin => ?_, fun hin => ?_, fun hin => ?_, fun hin => ?_⟩
  · rw [hin]
  · rw [hin]
    exact ⟨_, rfl⟩
  · rw [hin]
    rfl
  · rw [hin]
    exact ⟨_, rfl⟩

/-! ## What the channel holds -/

theorem mem_pktOuts {p : Bytes} {l : List Action} : p ∈ pktOuts l ↔ .pktOut p ∈ l := by
  induction l with
  | nil => exact ⟨nofun, nofun⟩
  | cons a l ih => cases a <;> simp [pktOuts, ih]

/-- With nothing on the channel an environment that keeps its duty delivers nothing. -/
theorem DutyC3.delivery_eq_none {s : State} {ev : Input} (h : DutyC3 s ev) (hempty : ∀ u, s.sinceReset u = []) :
    ev.delivery s.cfg = none := by
  refine Option.eq_none_iff_forall_ne_some.mpr fun (u, p) hd => ?_
  obtain ⟨q, hq, -⟩ := h u p hd
  rw [State.onChannel, hempty] at hq
  cases hq

/-- A packet that a transaction emits is on the channel after it. -/
theorem mem_onChannel_of_emitted {i : Instr} {s t : State} {e : Entry} {p : Bytes} (hs : s.EpochInv)
    (h : exec i s = .next t) (he : t.traceOf i.unit = s.traceOf i.unit ++ [e]) (hp : .pktOut p ∈ e.actions) :
    p ∈ t.onChannel i.unit := by
  have hlast : actionsOf [e] = e.actions := List.append_nil _
  rw [State.onChannel, State.sinceReset_append hs (exec_epoch h) he, actionsOf_append, pktOuts_append, hlast]
  exact List.mem_append_right _ (mem_pktOuts.mpr hp)

/-! ## Where the last joint reset stands -/

theorem eq_or_eq_peer (u v : UnitId) : v = u ∨ v = peer u := by cases u <;> cases v <;> decide

/-- One transaction more at unit `u` keeps the last joint reset within the observation. -/
theorem State.EpochInv.record {s t : State} {u : UnitId} {e : Entry} (hs : s.EpochInv) (hep : t.epoch = s.epoch)
    (hown : t.traceOf u = s.traceOf u ++ [e]) (hpeer : t.traceOf (peer u) = s.traceOf (peer u)) : t.EpochInv := by
  intro v
  rw [hep]
  obtain rfl | rfl := eq_or_eq_peer u v
  · rw [hown, List.length_append]
    exact Nat.le_add_right_of_le (hs v)
  · rw [hpeer]
    exact hs (peer u)

theorem exec_keeps_epochInv {i : Instr} {s t : State} (hs : s.EpochInv) (h : exec i s = .next t) : t.EpochInv := by
  obtain ⟨-, -, -, -, k, out, hown⟩ := exec_records h
  exact hs.record (exec_epoch h) hown (exec_traceOf_peer h)

theorem State.resetUnit_epochInv {s : State} (hs : s.EpochInv) (u : UnitId) : (s.resetUnit u).EpochInv := by
  intro v
  rw [State.resetUnit_epoch, State.resetUnit_traceOf]
  exact hs v

theorem step_keeps_epochInv {s t : State} (hs : s.EpochInv) (h : step s = .next t) : t.EpochInv :=
  step_keeps (Q := State.EpochInv)
    (hin := fun _ _ hs => hs)
    (hrefuse := fun s u cmd r hs =>
      hs.record (s.refusedAs_epoch u cmd r) (s.refusedAs_traceOf u cmd r) (s.refusedAs_traceOf_peer u cmd r))
    (hexec := fun _ _ _ hs hx => exec_keeps_epochInv hs hx)
    (hreset := fun _ u hs => State.resetUnit_epochInv hs u)
    (hboth := fun s _ => s.resetTogether_channelInv.epoch)
    hs h

/-- Settles O60: nothing has been observed since a joint reset, and what is emitted afterwards is observed since it. -/
theorem channelIsEmptyAfterJointReset : Obligations.ChannelIsEmptyAfterJointReset := by
  refine ⟨fun c ev hduty => ?_, fun s rest hc hin => ?_, fun i s t e p ev hs h he hp hd => ?_,
    fun c => (resetOf_channelInv c).epoch, fun _ _ => step_keeps_epochInv⟩
  · exact hduty.delivery_eq_none fun u => by cases u <;> rfl
  · refine ⟨_, by rw [step_of_wf hc, hin], State.resetTogether_channelInv _, fun ev hduty => ?_⟩
    exact hduty.delivery_eq_none (State.resetTogether_sinceReset _)
  · intro u q hq
    cases hd.symm.trans hq
    refine ⟨p, ?_, .inl rfl⟩
    rw [peer_peer]
    exact mem_onChannel_of_emitted hs h he hp

end Sys2Proof.Machine
end
